-- ==== Sys2Proof/Word.lean ====
section
/-! DEFINITION. The word types of the block (00_scope.md R8: a byte is 8 bits, a word is 32 bits). -/

namespace Sys2Proof

/-- A byte (R8). -/
abbrev Byte := BitVec 8

/-- A 16-bit geometry field, such as WIDTH or ENC_X (R22). -/
abbrev Half := BitVec 16

/-- A 32-bit bus word or register (R8, R26). -/
abbrev Word := BitVec 32

end Sys2Proof
end

