-- ==== Sys2Proof/Machine/Ports.lean ====
section
/-! DEFINITION. The ports of the block as plain data (10_state.md R46): the vector of input ports that one clock cycle samples,
and the vector of output ports that it drives. `clk` is the step itself. -/

namespace Sys2Proof

/-- The input ports in one clock cycle (R46). -/
structure PortIn where
  /-- synchronous reset, active high (R250) -/
  rst : Bool
  /-- a host bus transaction is presented in this cycle (R73) -/
  busReq : Bool
  /-- the transaction is a write (R73) -/
  busWe : Bool
  /-- byte address of the transaction (R71) -/
  busAddr : BitVec 26
  /-- write data (R73) -/
  busWdata : Word
  /-- abort line INT (R216) -/
  sigInt : Bool
  /-- abort line TERM (R216) -/
  sigTerm : Bool
  /-- abort line HUP (R216) -/
  sigHup : Bool
  /-- abort line SEGV (R216) -/
  sigSegv : Bool
  /-- the sink takes the offered byte in this cycle (R162) -/
  outReady : Bool
  /-- the sink reports a write failure (R215) -/
  sinkErr : Bool
  /-- the sink is present and writable (R178, R212) -/
  sinkAvail : Bool
deriving DecidableEq, Repr, Inhabited

/-- The stream outputs of one cycle (R162). -/
structure StreamOut where
  valid : Bool
  data : Byte
  last : Bool
deriving DecidableEq, Repr, Inhabited

/-- The bus outputs of one cycle (R73): `err` is 1 for an ERR response, 0 for OKAY. -/
structure BusResp where
  rdata : Word
  err : Bool
deriving DecidableEq, Repr, Inhabited

/-- The output ports in one cycle (R46). -/
structure PortOut where
  bus : BusResp
  stream : StreamOut
deriving DecidableEq, Repr, Inhabited

/-- The environment in which nothing is asked of the block: no reset, no bus transaction, every abort line low, and the sink of
the conventions of 95_test_vectors.md (`out_ready = 1`, `sink_avail = 1`, `sink_err = 0`). -/
def PortIn.quiet : PortIn where
  rst := false
  busReq := false
  busWe := false
  busAddr := 0
  busWdata := 0
  sigInt := false
  sigTerm := false
  sigHup := false
  sigSegv := false
  outReady := true
  sinkErr := false
  sinkAvail := true

/-- The same cycle with `MemWrite(CMD, 4, w)` on the bus (R30, R74) and no reset. -/
def PortIn.withCommand (i : PortIn) (w : Word) : PortIn :=
  { i with rst := false, busReq := true, busWe := true, busAddr := 0x10, busWdata := w }

end Sys2Proof
end

