-- ==== Sys2Proof/Config.lean ====
section
/-! DEFINITION. What an instantiation fixes (00_scope.md R5 to R7) and the free values: constants without a body, of which
nothing can be proved, for what the spec leaves to power-up (93 I1) and to the environment (93 I5, I6). -/

namespace Sys2Proof

/-- The synthesis-time parameters (R5). Their legal ranges are `Params.legal` (WellFormed.lean). -/
structure Params where
  /-- `P_MAX_LEDS`, the largest strip length the memories hold -/
  pMaxLeds : Nat
  /-- `P_MAX_WIDTH`, the largest image width the memories hold -/
  pMaxWidth : Nat
  /-- `P_TICK_CYCLES`, clock cycles in one delay tick -/
  pTickCycles : Nat
deriving DecidableEq, Repr

/-- `COL_STRIDE = 3*P_MAX_LEDS + 1`, byte slots per column in the column-buffer memory (R7). -/
def Params.colStride (p : Params) : Nat := 3 * p.pMaxLeds + 1

/-- The reference configuration REF (R7). -/
def Config.ref : Params := { pMaxLeds := 64, pMaxWidth := 64, pTickCycles := 1 }

/-- FREE VALUE (log entry 2): the byte that PIX or CBM holds at a bus byte address since power-up, until something writes it
(R49, 93 I1: "any value"). -/
opaque Config.powerUpByte : Nat → Byte

/-- FREE VALUE (log entry 1): the input ports in cycle n, when State lists no inputs for it (93 I5, I6: "an oracle the model
takes"). -/
opaque Config.envInput : Nat → PortIn

end Sys2Proof
end

