-- ==== Sys2Proof/Syntax.lean ====
section
/-! DEFINITION. The instructions: the six commands of spec/opcode_table.json (30_encoding.md R102). No command has an operand
field (R101, R109). -/

namespace Sys2Proof

/-- The commands a host can write to CMD, one constructor per row of the opcode table (R102). -/
inductive Instr where
  /-- NOP, op 0x0 (43_control.md R200) -/
  | nop
  /-- ENCODE, op 0x1 (41_formatter.md R140) -/
  | encode
  /-- RUN, op 0x2 (42_sequencer.md R160) -/
  | run
  /-- START, op 0x3 (42_sequencer.md R161) -/
  | start
  /-- SHUTDOWN, op 0x4 (43_control.md R201) -/
  | shutdown
  /-- CLEAR, op 0x5 (43_control.md R202) -/
  | clear
deriving DecidableEq, Repr

end Sys2Proof
end

