-- ==== Sys2Proof/WellFormed.lean ====
section
/-! DEFINITION. Well-formedness. A command has no operand field (30_encoding.md R101), so every `Instr` is well formed. What the
spec does constrain are the parameters of the instantiation (00_scope.md R5, R6): one named check each. -/

namespace Sys2Proof

/-- Every command is well formed: CMD32 has no operand field (R101, R109). -/
def Instr.wellFormed : Instr → Bool
  | .nop => true
  | .encode => true
  | .run => true
  | .start => true
  | .shutdown => true
  | .clear => true

/-- R5: `P_MAX_LEDS` is 1 to 65535. -/
def Params.ledsInRange (p : Params) : Bool := decide (1 ≤ p.pMaxLeds ∧ p.pMaxLeds ≤ 65535)

/-- R5: `P_MAX_WIDTH` is 1 to 65535. -/
def Params.widthInRange (p : Params) : Bool := decide (1 ≤ p.pMaxWidth ∧ p.pMaxWidth ≤ 65535)

/-- R5: `P_TICK_CYCLES` is 1 to 2^32-1. -/
def Params.tickInRange (p : Params) : Bool := decide (1 ≤ p.pTickCycles ∧ p.pTickCycles ≤ 4294967295)

/-- R6: the pixel memory fits its 16 MiB window. -/
def Params.pixelsFit (p : Params) : Bool := decide (p.pMaxWidth * p.pMaxLeds ≤ 4194304)

/-- R6: the column-buffer memory fits its 16 MiB window. -/
def Params.columnsFit (p : Params) : Bool := decide (p.pMaxWidth * p.colStride ≤ 4194304)

/-- The instantiation meets R5 and R6. One that does not is not admitted (93 I13, log entry 4). -/
def Params.legal (p : Params) : Bool :=
  p.ledsInRange && p.widthInRange && p.tickInRange && p.pixelsFit && p.columnsFit

end Sys2Proof
end

