-- ==== Sys2Proof/Decode.lean ====
section
/-! DEFINITION. Decoding and encoding of CMD32 words (30_encoding.md R100 to R103, R107, R108). The decoder is total on every
32-bit word; it rejects an illegal opcode by name. -/

namespace Sys2Proof

/-- Why a CMD32 word is no command. -/
inductive DecodeReject where
  /-- `op` is one of 0x6 to 0xF (R103, 43_control.md R203) -/
  | illegalOpcode (op : BitVec 4)
deriving DecidableEq, Repr

/-- The opcode field `op = w[3:0]` (R101). -/
def opField (w : Word) : BitVec 4 := w.extractLsb' 0 4

/-- The opcode map (R102, R103). -/
def decodeOp (op : BitVec 4) : Except DecodeReject Instr :=
  match op.toNat with
  | 0 => .ok .nop
  | 1 => .ok .encode
  | 2 => .ok .run
  | 3 => .ok .start
  | 4 => .ok .shutdown
  | 5 => .ok .clear
  | _ => .error (.illegalOpcode op)

/-- The command that a CMD32 word selects, by `op` alone: bits [31:4] are ignored (R101, R107). -/
def decode (w : Word) : Except DecodeReject Instr := decodeOp (opField w)

/-- The opcode of a command (R102). -/
def opcode : Instr → BitVec 4
  | .nop => 0x0
  | .encode => 0x1
  | .run => 0x2
  | .start => 0x3
  | .shutdown => 0x4
  | .clear => 0x5

/-- The CMD32 word of a command with a given value in the ignored bits [31:4] (R101). -/
def encodeWith (ignored : BitVec 28) (i : Instr) : Word := ignored ++ opcode i

/-- The CMD32 word of a command, its ignored bits 0 (as `CMD m` expands, R111; log entry 13). -/
def encode (i : Instr) : Word := encodeWith 0 i

/-- The CMD32 word that an opcode-table row's bits stand for: the low `nbits` bits of `w`, every bit above them 0. A CMD32 word
is one 32-bit bus word (R71, R100), so no byte order enters. -/
def tableWord (nbits w : Nat) : Word := BitVec.ofNat 32 (w % 2 ^ nbits)

/-- The command that the decoder reads from a table word; none where it rejects. -/
def decodeTableWord (nbits w : Nat) : Option Instr :=
  match decode (tableWord nbits w) with
  | .ok i => some i
  | .error _ => none

end Sys2Proof
end

