-- ==== Sys2Proof/Machine/State.lean ====
section
/-! DEFINITION. The state of the block (10_state.md R22), the reasons a step can stop, and the reset state (R49). -/

namespace Sys2Proof.Machine

/-- The sequencer state `STATE` (R23). -/
inductive SeqState where
  /-- 0: quiescent, accepts commands and configuration -/
  | idle
  /-- 1: the formatter is building the column buffers -/
  | encoding
  /-- 2: a column buffer is being streamed -/
  | txCol
  /-- 3: the column delay after a column write -/
  | waitCol
  /-- 4: the loop delay between iterations -/
  | waitLoop
  /-- 5: the off buffer is being streamed -/
  | txOff
  /-- 6: terminal, success -/
  | done
  /-- 7: terminal, failure -/
  | error
deriving DecidableEq, Repr

/-- `ERR_CODE` (60_exceptions.md R210). Codes 5 to 7 are never written, so they have no constructor (log entry 11). -/
inductive ErrCode where
  /-- 0: no error -/
  | none
  /-- 1: RUN or START with `sink_avail = 0` (R212) -/
  | deviceUnavailable
  /-- 2: the image is taller than the strip (R214) -/
  | imageTooTall
  /-- 3: geometry outside its legal range (R213) -/
  | badConfig
  /-- 4: `sink_err` in TX_COL or TX_OFF (R215) -/
  | deviceWriteFailure
deriving DecidableEq, Repr

/-- `SIGNAL`, the abort cause (60_exceptions.md R217). Codes 6 and 7 are never written, so they have no constructor (log entry 11). -/
inductive AbortCause where
  /-- 0: none -/
  | none
  /-- 1: `sig_int` -/
  | int
  /-- 2: `sig_term` -/
  | term
  /-- 3: `sig_hup` -/
  | hup
  /-- 4: `sig_segv` -/
  | segv
  /-- 5: the SHUTDOWN command -/
  | host
deriving DecidableEq, Repr

/-- The registers of the CSR region (R26). -/
inductive Csr where
  | id | cap0 | cap1 | cmd | status | iter | curCol | txIdx | encGeom | encPos
  | width | height | maxLeds | repeatCount | colDelay | loopDelay | ctrl
deriving DecidableEq, Repr

/-- The configuration registers: the CSRs a host can write a value to (R26, 20_memory.md R78). -/
inductive ConfigReg where
  | width | height | maxLeds | repeatCount | colDelay | loopDelay | ctrl
deriving DecidableEq, Repr

/-- What a bus address selects (20_memory.md R72, R75, R76). -/
inductive BusTarget where
  /-- not 4-byte aligned (R75) -/
  | misaligned
  /-- aligned and unmapped (R76) -/
  | unmapped
  /-- a register of the CSR region (R78) -/
  | csr (r : Csr)
  /-- LUT window entry i (R79) -/
  | lut (i : Nat)
  /-- pixel (x, y) (R80) -/
  | pixel (x y : Nat)
  /-- byte k of column x (R81) -/
  | column (x k : Nat)
deriving DecidableEq, Repr

/-- A bus cycle that issues no command. -/
inductive Access where
  /-- `bus_req = 0` -/
  | none
  /-- `MemRead` (R74) -/
  | read (t : BusTarget)
  /-- `MemWrite` (R74) of a target other than CMD -/
  | write (t : BusTarget) (v : Word)
deriving DecidableEq, Repr

/-- What the host presents in a cycle (R73, R47 step 2). -/
inductive Presented where
  /-- a write of word `w` to CMD (R30) -/
  | command (w : Word)
  | access (a : Access)
deriving DecidableEq, Repr

/-- The bus write effect `Wb` of a cycle (R47, R48). -/
inductive BusWrite where
  | none
  /-- ERR: `BUS_ERR' <- 1` (20_memory.md R77) -/
  | busErr
  /-- a configuration register takes a word, masked to its field (R78) -/
  | config (r : ConfigReg) (v : Word)
  /-- pixel (x, y) takes the three channels of a PIX32 word (R80) -/
  | pixel (x y : Nat) (v : Word)
deriving DecidableEq, Repr

/-- A pixel triple (R24). -/
structure Pixel where
  r : Byte
  g : Byte
  b : Byte
deriving DecidableEq, Repr

/-- A memory: bytes by bus byte address, addresses strictly rising, a byte listed exactly when something has written it. A byte
not listed is what power-up left, a free value (`Memory.read`, log entry 2). -/
abbrev Memory := List Host.Cell

/-- The canonical form: addresses strictly rising. An address that is not listed holds no known byte, so no listed byte can be
what an unlisted address holds (log entry 2). -/
abbrev Memory.wf (m : Memory) : Prop := m.Pairwise (fun c d => c.1 < d.1)

/-- The state of the block: the elements of R22, the instantiation's hardwired parameters (R5, R28, R29), and the model's own
record of the ports (`inputs`, `cycle`, `out`). -/
structure State where
  /-- the instantiation's parameters, hardwired (R5, R28, R29); no step changes them -/
  params : Params
  /-- `STATE` -/
  state : SeqState
  /-- `ENCODED` -/
  encoded : Bool
  /-- `ABORT_PEND` -/
  abortPend : Bool
  /-- `BUS_ERR` -/
  busErr : Bool
  /-- `EXIT` -/
  exitFlag : Bool
  /-- `ERR_CODE` -/
  errCode : ErrCode
  /-- `SIGNAL` -/
  signal : AbortCause
  /-- `RUN_AFTER_ENC` -/
  runAfterEnc : Bool
  /-- `ITER` -/
  iter : BitVec 32
  /-- `CUR_COL` -/
  curCol : BitVec 16
  /-- `TX_IDX` -/
  txIdx : BitVec 32
  /-- `ENC_W` -/
  encW : BitVec 16
  /-- `ENC_H` -/
  encH : BitVec 16
  /-- `ENC_X` -/
  encX : BitVec 16
  /-- `ENC_Y` -/
  encY : BitVec 16
  /-- `WAIT_LEFT` (R44) -/
  waitLeft : BitVec 64
  /-- `WIDTH` -/
  width : BitVec 16
  /-- `HEIGHT` -/
  height : BitVec 16
  /-- `MAX_LEDS` -/
  maxLeds : BitVec 16
  /-- `REPEAT` -/
  repeatCount : BitVec 32
  /-- `COLDELAY` -/
  colDelay : BitVec 32
  /-- `LOOPDELAY` -/
  loopDelay : BitVec 32
  /-- `BLANK` (CTRL[0]) -/
  blank : Bool
  /-- `PIX`, by bus byte address (R24, R80) -/
  pix : Memory
  /-- `CBM`, by bus byte address (R25, R81) -/
  cbm : Memory
  /-- the input ports of the cycles to come, the current cycle's first (log entry 1) -/
  inputs : List PortIn
  /-- the number of the current cycle (log entry 1) -/
  cycle : Nat
  /-- the output ports as the last completed cycle drove them (log entry 9) -/
  out : PortOut
deriving DecidableEq, Repr

/-- Why the machine stops with a fault. No run of an admitted instantiation from reset meets one (Safety.lean). -/
inductive Fault where
  /-- The parameters break R5 or R6: such an instantiation is not admitted (93 I13). Raised by every step. Safe: the model stops. -/
  | illegalParameters
  /-- ENCODING would read a pixel outside PIX (R24). Raised by the encoding step in a state no run reaches. Safe: the model
  stops (log entry 5). -/
  | noSuchPixel
  /-- The engine would access a byte outside CBM (R25). Raised by the trailing step and by TX_COL in a state no run reaches. Safe:
  the model stops (log entry 5). -/
  | noSuchColumnByte
  /-- A delay cycle with WAIT_LEFT = 0, which the rules exclude (42_sequencer.md R165). Raised by the delay steps in a state no run
  reaches. Safe: the model stops (log entry 5). -/
  | delayUnderflow
deriving DecidableEq, Repr

/-- Why the machine has no meaning for an instruction. -/
inductive Refusal where
  /-- `exec` has no meaning for the instruction yet. No arm of this model raises it. Safe: the model stops. -/
  | notModelled (mnemonic : String)
deriving DecidableEq, Repr

/-- The reset state of an instantiation (R49), with nothing listed in PIX and CBM (power-up contents, 93 I1) and the model's own
fields empty (log entries 1 and 9). -/
def State.resetOf (p : Params) : State where
  params := p
  state := .idle
  encoded := false
  abortPend := false
  busErr := false
  exitFlag := false
  errCode := .none
  signal := .none
  runAfterEnc := false
  iter := 0
  curCol := 0
  txIdx := 0
  encW := 0
  encH := 0
  encX := 0
  encY := 0
  waitLeft := 0
  width := 0
  height := 0
  maxLeds := 0
  repeatCount := 0
  colDelay := 0
  loopDelay := 0
  blank := false
  pix := []
  cbm := []
  inputs := []
  cycle := 0
  out := { bus := { rdata := 0, err := false }, stream := { valid := false, data := 0, last := false } }

/-- The machine right after its first reset (R49, R252), instantiated as REF (R7, log entry 3). -/
def State.reset : State := State.resetOf Config.ref

end Sys2Proof.Machine
end

