-- ==== Sys2Proof/Machine/Gamma.lean ====
section
/-! DEFINITION. The gamma LUT (40_gamma_lut.md): a constant table of 256 bytes. -/

namespace Sys2Proof.Machine

/-- `LUT[0x00]` to `LUT[0x3F]` (R122). -/
def gammaRows0 : List Byte :=
  [0x80, 0x80, 0x80, 0x80, 0x80, 0x80, 0x80, 0x80, 0x80, 0x80, 0x80, 0x80, 0x80, 0x80, 0x80, 0x80] ++
  [0x80, 0x80, 0x80, 0x80, 0x80, 0x80, 0x80, 0x80, 0x80, 0x80, 0x80, 0x80, 0x81, 0x81, 0x81, 0x81] ++
  [0x81, 0x81, 0x81, 0x81, 0x81, 0x81, 0x81, 0x81, 0x81, 0x81, 0x81, 0x81, 0x82, 0x82, 0x82, 0x82] ++
  [0x82, 0x82, 0x82, 0x82, 0x82, 0x83, 0x83, 0x83, 0x83, 0x83, 0x83, 0x83, 0x83, 0x84, 0x84, 0x84]

/-- `LUT[0x40]` to `LUT[0x7F]` (R122). -/
def gammaRows1 : List Byte :=
  [0x84, 0x84, 0x84, 0x84, 0x85, 0x85, 0x85, 0x85, 0x85, 0x86, 0x86, 0x86, 0x86, 0x86, 0x87, 0x87] ++
  [0x87, 0x87, 0x87, 0x88, 0x88, 0x88, 0x88, 0x89, 0x89, 0x89, 0x89, 0x8A, 0x8A, 0x8A, 0x8A, 0x8B] ++
  [0x8B, 0x8B, 0x8C, 0x8C, 0x8C, 0x8D, 0x8D, 0x8D, 0x8D, 0x8E, 0x8E, 0x8E, 0x8F, 0x8F, 0x90, 0x90] ++
  [0x90, 0x91, 0x91, 0x91, 0x92, 0x92, 0x92, 0x93, 0x93, 0x94, 0x94, 0x95, 0x95, 0x95, 0x96, 0x96]

/-- `LUT[0x80]` to `LUT[0xBF]` (R122). -/
def gammaRows2 : List Byte :=
  [0x97, 0x97, 0x98, 0x98, 0x98, 0x99, 0x99, 0x9A, 0x9A, 0x9B, 0x9B, 0x9C, 0x9C, 0x9D, 0x9D, 0x9E] ++
  [0x9E, 0x9F, 0xA0, 0xA0, 0xA1, 0xA1, 0xA2, 0xA2, 0xA3, 0xA3, 0xA4, 0xA5, 0xA5, 0xA6, 0xA6, 0xA7] ++
  [0xA8, 0xA8, 0xA9, 0xA9, 0xAA, 0xAB, 0xAB, 0xAC, 0xAD, 0xAD, 0xAE, 0xAF, 0xAF, 0xB0, 0xB1, 0xB2] ++
  [0xB2, 0xB3, 0xB4, 0xB4, 0xB5, 0xB6, 0xB7, 0xB7, 0xB8, 0xB9, 0xBA, 0xBA, 0xBB, 0xBC, 0xBD, 0xBE]

/-- `LUT[0xC0]` to `LUT[0xFF]` (R122). -/
def gammaRows3 : List Byte :=
  [0xBE, 0xBF, 0xC0, 0xC1, 0xC2, 0xC3, 0xC3, 0xC4, 0xC5, 0xC6, 0xC7, 0xC8, 0xC9, 0xCA, 0xCA, 0xCB] ++
  [0xCC, 0xCD, 0xCE, 0xCF, 0xD0, 0xD1, 0xD2, 0xD3, 0xD4, 0xD5, 0xD6, 0xD7, 0xD8, 0xD9, 0xDA, 0xDB] ++
  [0xDC, 0xDD, 0xDE, 0xDF, 0xE0, 0xE1, 0xE2, 0xE3, 0xE4, 0xE5, 0xE6, 0xE8, 0xE9, 0xEA, 0xEB, 0xEC] ++
  [0xED, 0xEE, 0xEF, 0xF1, 0xF2, 0xF3, 0xF4, 0xF5, 0xF6, 0xF8, 0xF9, 0xFA, 0xFB, 0xFD, 0xFE, 0xFF]

/-- The complete table (R122). -/
def gammaTable : List Byte := gammaRows0 ++ gammaRows1 ++ gammaRows2 ++ gammaRows3

/-- `GAMMA(v) = LUT[v]` (R120, R126). The table has an entry for every byte, so the default is never read. -/
def gamma (v : Byte) : Byte := gammaTable.getD v.toNat 0

/-- `k(i)` by the exact integer form: the number of m in 1 to 127 with `(2m-1)^2 * 255^5 <= 254^2 * i^5` (R121). -/
def gammaCount (i : Nat) : Nat :=
  ((List.range 127).filter (fun m => decide ((2 * (m + 1) - 1) ^ 2 * 255 ^ 5 ≤ 254 ^ 2 * i ^ 5))).length

end Sys2Proof.Machine
end

