-- ==== Sys2Proof/Machine/Operands.lean ====
section
/-! DEFINITION. What the commands and the bus read: the input ports of the current cycle, the memories' addresses and reads, the
words of the registers (10_state.md R26 to R43) and of the windows (30_encoding.md R104, R105). Commands have no operands of
their own (R109): every quantity comes from here. -/

namespace Sys2Proof.Machine

/-- The input ports of the current cycle: the first listed ones, or a free value when none is listed (93 I5, I6; log entry 1). -/
def State.now (s : State) : PortIn :=
  match s.inputs with
  | [] => Config.envInput s.cycle
  | i :: _ => i

/-- The code of `STATE` (R23). -/
def SeqState.code : SeqState → BitVec 3
  | .idle => 0
  | .encoding => 1
  | .txCol => 2
  | .waitCol => 3
  | .waitLoop => 4
  | .txOff => 5
  | .done => 6
  | .error => 7

/-- The code of `ERR_CODE` (R210). -/
def ErrCode.code : ErrCode → BitVec 3
  | .none => 0
  | .deviceUnavailable => 1
  | .imageTooTall => 2
  | .badConfig => 3
  | .deviceWriteFailure => 4

/-- The code of `SIGNAL` (R217). -/
def AbortCause.code : AbortCause → BitVec 3
  | .none => 0
  | .int => 1
  | .term => 2
  | .hup => 3
  | .segv => 4
  | .host => 5

/-! ### Memories -/

/-- The byte listed at an address, if any. -/
def Memory.cell? : Memory → Nat → Option Byte
  | [], _ => none
  | (k, b) :: m, a => if k = a then some b else Memory.cell? m a

/-- The byte at an address: the listed one, or what power-up left there, a free value (R49, 93 I1; log entry 2). -/
def Memory.read (m : Memory) (a : Nat) : Byte := (Memory.cell? m a).getD (Config.powerUpByte a)

/-- Writes one byte and keeps the canonical form. -/
def Memory.write : Memory → Nat → Byte → Memory
  | [], a, b => [(a, b)]
  | (k, c) :: m, a, b =>
    if a < k then (a, b) :: (k, c) :: m
    else if a = k then (a, b) :: m
    else (k, c) :: Memory.write m a b

/-- The first bus byte address of pixel (x, y) (R80). -/
def pixelAddr (p : Params) (x y : Nat) : Nat := 0x1000000 + 4 * (x * p.pMaxLeds + y)

/-- The bus byte address of byte k of column x (R81). -/
def columnAddr (p : Params) (x k : Nat) : Nat := 0x2000000 + 4 * (x * p.colStride + k)

/-- PIX has a pixel (x, y) (R24). -/
def pixelExists (p : Params) (x y : Nat) : Bool := decide (x < p.pMaxWidth ∧ y < p.pMaxLeds)

/-- CBM has a byte k of column x (R25). -/
def columnByteExists (p : Params) (x k : Nat) : Bool := decide (x < p.pMaxWidth ∧ k < p.colStride)

/-- `PIX[x][y]`: R in the lowest byte of its word, then G, then B (R24, R80, R82). -/
def readPixel (s : State) (x y : Nat) : Pixel :=
  { r := Memory.read s.pix (pixelAddr s.params x y)
    g := Memory.read s.pix (pixelAddr s.params x y + 1)
    b := Memory.read s.pix (pixelAddr s.params x y + 2) }

/-- `CBM[x][k]` (R25). -/
def readColumn (s : State) (x k : Nat) : Byte := Memory.read s.cbm (columnAddr s.params x k)

/-! ### Register and window words -/

/-- One flag as a bit. -/
def flagBit (b : Bool) : BitVec 1 := BitVec.ofBool b

/-- `ID` (R27). -/
def idWord : Word := 0x474C0001

/-- `CAP0`: P_MAX_WIDTH in [31:16], P_MAX_LEDS in [15:0] (R28). -/
def cap0Word (p : Params) : Word := BitVec.ofNat 16 p.pMaxWidth ++ BitVec.ofNat 16 p.pMaxLeds

/-- `CAP1`: P_TICK_CYCLES (R29). -/
def cap1Word (p : Params) : Word := BitVec.ofNat 32 p.pTickCycles

/-- `STATUS`, from bit 31 down: reserved [31:16], RUN_AFTER_ENC [15], SIGNAL [14:12], reserved [11], ERR_CODE [10:8], reserved
[7], EXIT [6], BUS_ERR [5], ABORT_PEND [4], ENCODED [3], STATE [2:0] (R31). -/
def statusWord (s : State) : Word :=
  (0 : BitVec 16) ++ flagBit s.runAfterEnc ++ s.signal.code ++ (0 : BitVec 1) ++ s.errCode.code ++ (0 : BitVec 1) ++
    flagBit s.exitFlag ++ flagBit s.busErr ++ flagBit s.abortPend ++ flagBit s.encoded ++ s.state.code

/-- A 16-bit field in bits [15:0], bits [31:16] reserved (R33, R37 to R39). -/
def halfWord (h : Half) : Word := (0 : BitVec 16) ++ h

/-- The PIX32 word of a pixel: `(0x00, B, G, R)` from bit 31 down (R80, R104). -/
def pixelWord (p : Pixel) : Word := (0 : BitVec 8) ++ p.b ++ p.g ++ p.r

/-- The pixel of a PIX32 word; bits [31:24] are ignored (R80, R104). -/
def pixelOfWord (w : Word) : Pixel :=
  { r := w.extractLsb' 0 8, g := w.extractLsb' 8 8, b := w.extractLsb' 16 8 }

/-- A BYTE32 word: one byte in [7:0] (R105). -/
def byteWord (b : Byte) : Word := (0 : BitVec 24) ++ b

/-- The word a read of a register returns (R26 to R43, 20_memory.md R78). CMD reads 0 (R30). -/
def csrWord (s : State) : Csr → Word
  | .id => idWord
  | .cap0 => cap0Word s.params
  | .cap1 => cap1Word s.params
  | .cmd => 0
  | .status => statusWord s
  | .iter => s.iter
  | .curCol => halfWord s.curCol
  | .txIdx => s.txIdx
  | .encGeom => s.encH ++ s.encW
  | .encPos => s.encY ++ s.encX
  | .width => halfWord s.width
  | .height => halfWord s.height
  | .maxLeds => halfWord s.maxLeds
  | .repeatCount => s.repeatCount
  | .colDelay => s.colDelay
  | .loopDelay => s.loopDelay
  | .ctrl => (0 : BitVec 31) ++ flagBit s.blank

end Sys2Proof.Machine
end

