-- ==== Sys2Proof/Machine/Flags.lean ====
section
/-! DEFINITION. The conditions a cycle computes: quiescence (10_state.md R23), the abort request, its cause and whether it is taken
(60_exceptions.md R216 to R219), and the acceptance of each command (43_control.md R204, R205). -/

namespace Sys2Proof.Machine

/-- IDLE, DONE and ERROR are the quiescent states (R23). -/
def SeqState.quiescent : SeqState → Bool
  | .idle => true
  | .encoding => false
  | .txCol => false
  | .waitCol => false
  | .waitLoop => false
  | .txOff => false
  | .done => true
  | .error => true

/-- The abortable states (R218). -/
def SeqState.abortable : SeqState → Bool
  | .idle => true
  | .encoding => true
  | .txCol => true
  | .waitCol => true
  | .waitLoop => true
  | .txOff => false
  | .done => false
  | .error => false

/-- `abort_req`: the four lines, or a SHUTDOWN command in this cycle (R216). -/
def abortReq (i : PortIn) (shutdownCmd : Bool) : Bool :=
  i.sigInt || i.sigTerm || i.sigHup || i.sigSegv || shutdownCmd

/-- `cause`: the active source of the highest priority (R217). -/
def abortCause (i : PortIn) (shutdownCmd : Bool) : AbortCause :=
  if i.sigInt then .int
  else if i.sigTerm then .term
  else if i.sigHup then .hup
  else if i.sigSegv then .segv
  else if shutdownCmd then .host
  else .none

/-- `abort_taken` (R219). -/
def abortTaken (s : State) (shutdownCmd : Bool) : Bool :=
  abortReq s.now shutdownCmd && s.state.abortable && !s.abortPend &&
    !(decide (s.state = .txCol) && s.now.sinkErr)

/-- ENCODE is accepted in IDLE when no abort is taken (R140, R204). -/
def acceptsEncode (s : State) : Bool := decide (s.state = .idle) && !abortTaken s false

/-- RUN is accepted in IDLE with ENCODED = 1 when no abort is taken (R160, R204). -/
def acceptsRun (s : State) : Bool := decide (s.state = .idle) && s.encoded && !abortTaken s false

/-- START is accepted in IDLE when no abort is taken (R161, R204). -/
def acceptsStart (s : State) : Bool := decide (s.state = .idle) && !abortTaken s false

/-- CLEAR is accepted in IDLE, DONE and ERROR when no abort is taken (R202, R204). -/
def acceptsClear (s : State) : Bool := s.state.quiescent && !abortTaken s false

end Sys2Proof.Machine
end

