-- ==== Sys2Proof/Machine/Ops.lean ====
section
/-! DEFINITION. The shared operations over memory and registers. Taking an exception on this block is one of two things: a run
error enters ERROR (`enterError`, 60_exceptions.md R211), and an abort saves its cause and goes to the off buffer (`latchAbort`,
`toOffBuffer`, R219 to R225). Leaving a terminal state is `clearTerminal` (43_control.md R202). -/

namespace Sys2Proof.Machine

/-! ### Memory -/

/-- `PIX[x][y]' <- p` (R80): the three channels at once (20_memory.md R84). -/
def writePixel (s : State) (x y : Nat) (p : Pixel) : State :=
  { s with
    pix := Memory.write (Memory.write (Memory.write s.pix (pixelAddr s.params x y) p.r)
      (pixelAddr s.params x y + 1) p.g) (pixelAddr s.params x y + 2) p.b }

/-- `CBM[x][k]' <- b` (R10, R25). -/
def writeColumn (s : State) (x k : Nat) (b : Byte) : State :=
  { s with cbm := Memory.write s.cbm (columnAddr s.params x k) b }

/-! ### Run errors and aborts -/

/-- `enter_error(code)`: every other element keeps its value (R211). -/
def enterError (s : State) (code : ErrCode) : State :=
  { s with state := .error, errCode := code, exitFlag := true }

/-- The record of an abort that is taken: `ABORT_PEND' <- 1 ; SIGNAL' <- cause` (R219). -/
def latchAbort (s : State) (cause : AbortCause) : State :=
  { s with abortPend := true, signal := cause }

/-- To the first byte of the off buffer: `STATE' <- TX_OFF ; TX_IDX' <- 0` (R167, R220, R221, R223). -/
def toOffBuffer (s : State) : State := { s with state := .txOff, txIdx := 0 }

/-- CLEAR's effect: to IDLE, with the five status flags cleared (R202). -/
def clearTerminal (s : State) : State :=
  { s with state := .idle, errCode := .none, exitFlag := false, signal := .none, abortPend := false, busErr := false }

/-! ### Bus writes -/

/-- `Wb` applied to the next state (R47, R48): an ERR response sets BUS_ERR (20_memory.md R77), a configuration write stores the
word masked to the register's field (R78), a pixel write stores the three channels (R80). -/
def applyBusWrite (s : State) : BusWrite → State
  | .none => s
  | .busErr => { s with busErr := true }
  | .config .width v => { s with width := v.extractLsb' 0 16 }
  | .config .height v => { s with height := v.extractLsb' 0 16 }
  | .config .maxLeds v => { s with maxLeds := v.extractLsb' 0 16 }
  | .config .repeatCount v => { s with repeatCount := v }
  | .config .colDelay v => { s with colDelay := v }
  | .config .loopDelay v => { s with loopDelay := v }
  | .config .ctrl v => { s with blank := v.getLsbD 0 }
  | .pixel x y v => writePixel s x y (pixelOfWord v)

/-! ### Stream outputs and the end of a cycle -/

/-- The stream outputs, a function of S alone (R162). The byte of index TX_IDX is the last of a column buffer at 3*ENC_H and of the
off buffer at 3*MAX_LEDS + 2. -/
def streamOut (s : State) : StreamOut :=
  match s.state with
  | .txCol =>
    { valid := true
      data := readColumn s s.curCol.toNat s.txIdx.toNat
      last := decide (s.txIdx.toNat = 3 * s.encH.toNat) }
  | .txOff =>
    { valid := true, data := 0x80, last := decide (s.txIdx.toNat = 3 * s.maxLeds.toNat + 2) }
  | .idle => { valid := false, data := 0, last := false }
  | .encoding => { valid := false, data := 0, last := false }
  | .waitCol => { valid := false, data := 0, last := false }
  | .waitLoop => { valid := false, data := 0, last := false }
  | .done => { valid := false, data := 0, last := false }
  | .error => { valid := false, data := 0, last := false }

/-- The stream outputs of a cycle with `rst = 1` (R250). -/
def silentStream : StreamOut := { valid := false, data := 0, last := false }

/-- A byte passes to the sink in this cycle: `out_valid = 1`, `out_ready = 1`, `sink_err = 0`, and no reset (R162, R250). -/
def handshake (s : State) : Bool :=
  (streamOut s).valid && s.now.outReady && !s.now.sinkErr && !s.now.rst

/-- The end of a cycle: its input ports are used up, and its output ports recorded (log entries 1 and 9). -/
def State.tick (s : State) (o : PortOut) : State :=
  { s with inputs := s.inputs.tail, cycle := s.cycle + 1, out := o }

/-- OKAY with read data (R73). -/
def okay (v : Word) : BusResp := { rdata := v, err := false }

/-- ERR: the read data is 0 (R73). -/
def errResp : BusResp := { rdata := 0, err := true }

end Sys2Proof.Machine
end

