-- ==== Sys2Proof/Machine/Bus.lean ====
section
/-! DEFINITION. The host bus (20_memory.md): address decoding, reads, writes, and what a cycle presents. -/

namespace Sys2Proof.Machine

/-- The register at a CSR offset, if one is mapped there (R26). -/
def csrAt (offset : Nat) : Option Csr :=
  match offset with
  | 0x000 => some .id
  | 0x004 => some .cap0
  | 0x008 => some .cap1
  | 0x010 => some .cmd
  | 0x014 => some .status
  | 0x018 => some .iter
  | 0x01C => some .curCol
  | 0x020 => some .txIdx
  | 0x024 => some .encGeom
  | 0x028 => some .encPos
  | 0x040 => some .width
  | 0x044 => some .height
  | 0x048 => some .maxLeds
  | 0x04C => some .repeatCount
  | 0x050 => some .colDelay
  | 0x054 => some .loopDelay
  | 0x058 => some .ctrl
  | _ => none

/-- The word of a window at a byte address: the windows hold one word for each element (R79 to R81). -/
def windowIndex (base a : Nat) : Nat := (a - base) / 4

/-- What a bus address selects (R72, R75, R76, R79 to R81). -/
def decodeAddress (p : Params) (addr : BitVec 26) : BusTarget :=
  let a := addr.toNat
  if a % 4 ≠ 0 then .misaligned
  else if a < 0x100 then
    match csrAt a with
    | some r => .csr r
    | none => .unmapped
  else if 0x1000 ≤ a ∧ a < 0x1400 then .lut (windowIndex 0x1000 a)
  else if 0x1000000 ≤ a ∧ a < 0x2000000 then
    let i := windowIndex 0x1000000 a
    if i < p.pMaxWidth * p.pMaxLeds then .pixel (i / p.pMaxLeds) (i % p.pMaxLeds) else .unmapped
  else if 0x2000000 ≤ a ∧ a < 0x3000000 then
    let j := windowIndex 0x2000000 a
    if j < p.pMaxWidth * p.colStride then .column (j / p.colStride) (j % p.colStride) else .unmapped
  else .unmapped

/-- What the host presents in a cycle (R73). A write to CMD is a command (R30, R78). -/
def presented (p : Params) (i : PortIn) : Presented :=
  if i.busReq then
    let t := decodeAddress p i.busAddr
    if i.busWe then
      if t = .csr .cmd then .command i.busWdata else .access (.write t i.busWdata)
    else .access (.read t)
  else .access .none

/-- The word a read returns, in S; none for ERR (R75, R76, R78 to R81). -/
def busRead (s : State) : BusTarget → Option Word
  | .misaligned => none
  | .unmapped => none
  | .csr r => some (csrWord s r)
  | .lut i => some (byteWord (gamma (BitVec.ofNat 8 i)))
  | .pixel x y => some (pixelWord (readPixel s x y))
  | .column x k => some (byteWord (readColumn s x k))

/-- The configuration register behind a CSR, if a host can write a value to it (R26, R78). Issuing a command through CMD is not a
write of a value: CMD holds no state (R30). -/
def configReg? : Csr → Option ConfigReg
  | .id => none
  | .cap0 => none
  | .cap1 => none
  | .cmd => none
  | .status => none
  | .iter => none
  | .curCol => none
  | .txIdx => none
  | .encGeom => none
  | .encPos => none
  | .width => some .width
  | .height => some .height
  | .maxLeds => some .maxLeds
  | .repeatCount => some .repeatCount
  | .colDelay => some .colDelay
  | .loopDelay => some .loopDelay
  | .ctrl => some .ctrl

/-- The effect of a write that is no command; `.busErr` for ERR (R75 to R81): configuration only in a quiescent state, pixels in
every state but ENCODING. -/
def busWrite (s : State) (t : BusTarget) (v : Word) : BusWrite :=
  match t with
  | .misaligned => .busErr
  | .unmapped => .busErr
  | .csr r =>
    match configReg? r with
    | some c => if s.state.quiescent then .config c v else .busErr
    | none => .busErr
  | .lut _ => .busErr
  | .pixel x y => if s.state = .encoding then .busErr else .pixel x y v
  | .column _ _ => .busErr

/-- The bus effect `Wb` of a cycle that issues no command (R47 step 2, R77). -/
def accessWrite (s : State) : Access → BusWrite
  | .none => .none
  | .read t => if (busRead s t).isSome then .none else .busErr
  | .write t v => busWrite s t v

/-- The bus response of a cycle that issues no command (R73). -/
def accessResp (s : State) : Access → BusResp
  | .none => okay 0
  | .read t =>
    match busRead s t with
    | some v => okay v
    | none => errResp
  | .write t v => if busWrite s t v = .busErr then errResp else okay 0

end Sys2Proof.Machine
end

