-- ==== Sys2Proof/Machine/Formatter.lean ====
section
/-! DEFINITION. The column buffer formatter (41_formatter.md): the geometry check, FORMAT_PIXEL, and the encoding step. -/

namespace Sys2Proof.Machine

/-- `check_geometry(S)`: the error code, `ErrCode.none` for NONE (R141). -/
def checkGeometry (s : State) : ErrCode :=
  if s.width.toNat = 0 ∨ s.width.toNat > s.params.pMaxWidth ∨ s.height.toNat = 0 ∨ s.maxLeds.toNat = 0 ∨
      s.maxLeds.toNat > s.params.pMaxLeds then .badConfig
  else if s.height.toNat > s.maxLeds.toNat then .imageTooTall
  else .none

/-- Lane 0 of FORMAT_PIXEL: GAMMA of blue (R143). -/
def formatLane0 (p : Pixel) : Byte := gamma p.b

/-- Lane 1 of FORMAT_PIXEL: GAMMA of red (R143). -/
def formatLane1 (p : Pixel) : Byte := gamma p.r

/-- Lane 2 of FORMAT_PIXEL: GAMMA of green (R143). -/
def formatLane2 (p : Pixel) : Byte := gamma p.g

/-- `FORMAT_PIXEL(p)`, its three lanes in stream order (R143). -/
def formatPixel (p : Pixel) : Byte × Byte × Byte := (formatLane0 p, formatLane1 p, formatLane2 p)

/-- The pixel step (R142). -/
def pixelStep (s : State) : State :=
  let x := s.encX.toNat
  let y := s.encY.toNat
  let p := readPixel s x y
  { writeColumn (writeColumn (writeColumn s x (3 * y) (formatLane0 p)) x (3 * y + 1) (formatLane1 p)) x (3 * y + 2)
      (formatLane2 p) with
    encY := s.encY + 1 }

/-- `complete_encoding` (R145). -/
def completeEncoding (s : State) : State :=
  if s.runAfterEnc then { s with encoded := true, state := .txCol, curCol := 0, txIdx := 0 }
  else { s with encoded := true, state := .idle }

/-- The trailing step: the framing byte 0x00, then the next column or the end (R144). -/
def trailingStep (s : State) : State :=
  let t := writeColumn s s.encX.toNat (3 * s.encH.toNat) 0
  if s.encX.toNat + 1 < s.encW.toNat then { t with encX := s.encX + 1, encY := 0 }
  else completeEncoding t

/-- An ENCODING cycle without an abort (R142, R144). No rule covers ENC_Y > ENC_H, which no run reaches: nothing changes (log
entry 6). -/
def encodingStep (s : State) : State :=
  if s.encY.toNat < s.encH.toNat then pixelStep s
  else if s.encY.toNat = s.encH.toNat then trailingStep s
  else s

/-- The element an ENCODING step would access and the memories do not have, if any (log entry 5). -/
def encodingFault (s : State) : Option Fault :=
  if s.encY.toNat < s.encH.toNat then
    if pixelExists s.params s.encX.toNat s.encY.toNat then none else some .noSuchPixel
  else if s.encY.toNat = s.encH.toNat then
    if columnByteExists s.params s.encX.toNat (3 * s.encH.toNat) then none else some .noSuchColumnByte
  else none

/-- What ENCODE and START latch when their checks pass (R140, R161): the geometry, the cursor at (0, 0), ENCODED cleared. -/
def beginEncoding (s : State) (runAfter : Bool) : State :=
  { s with
    encW := s.width, encH := s.height, encX := 0, encY := 0, encoded := false, runAfterEnc := runAfter,
    state := .encoding }

end Sys2Proof.Machine
end

