-- ==== Sys2Proof/Machine/Sequencer.lean ====
section
/-! DEFINITION. The timed serial output sequencer (42_sequencer.md): the TX_COL, WAIT_COL, WAIT_LOOP and TX_OFF cycles. -/

namespace Sys2Proof.Machine

/-- A delay of `ticks` ticks in cycles, without truncation (R44, R109). -/
def delayCycles (s : State) (ticks : Word) : BitVec 64 := BitVec.ofNat 64 (ticks.toNat * s.params.pTickCycles)

/-- To the first byte of column 0 of an iteration (R167, R168). -/
def toFirstColumn (s : State) : State := { s with curCol := 0, txIdx := 0, state := .txCol }

/-- `end_of_iteration` (R167). ITER + 1 is compared with REPEAT as a natural number (log entry 10). -/
def endOfIteration (s : State) : State :=
  let t := { s with iter := s.iter + 1 }
  if s.repeatCount.toNat ≠ 0 ∧ s.iter.toNat + 1 = s.repeatCount.toNat then toOffBuffer t
  else if s.blank = true ∧ s.loopDelay.toNat > 0 then
    { t with state := .waitLoop, waitLeft := delayCycles s s.loopDelay }
  else toFirstColumn t

/-- `advance`, after a column and its delay (R166). -/
def advanceColumn (s : State) : State :=
  if s.curCol.toNat + 1 < s.encW.toNat then { s with curCol := s.curCol + 1, txIdx := 0, state := .txCol }
  else endOfIteration s

/-- `column_done`, in the cycle of the last byte's handshake (R164). -/
def columnDone (s : State) (abort : Bool) : State :=
  let t := { s with txIdx := 0 }
  if s.abortPend || abort then { t with state := .txOff }
  else if s.colDelay.toNat > 0 then { t with state := .waitCol, waitLeft := delayCycles s s.colDelay }
  else advanceColumn t

/-- A TX_COL cycle (R163). -/
def txColStep (s : State) (abort : Bool) : State :=
  if s.now.sinkErr then enterError s .deviceWriteFailure
  else if s.now.outReady then
    if s.txIdx.toNat < 3 * s.encH.toNat then { s with txIdx := s.txIdx + 1 } else columnDone s abort
  else s

/-- A WAIT_COL cycle without an abort (R165). -/
def waitColStep (s : State) : State :=
  if s.waitLeft = 1 then advanceColumn { s with waitLeft := 0 } else { s with waitLeft := s.waitLeft - 1 }

/-- A WAIT_LOOP cycle without an abort (R168). -/
def waitLoopStep (s : State) : State :=
  if s.waitLeft = 1 then toFirstColumn { s with waitLeft := 0 } else { s with waitLeft := s.waitLeft - 1 }

/-- A TX_OFF cycle (R169). -/
def txOffStep (s : State) : State :=
  if s.now.sinkErr then enterError s .deviceWriteFailure
  else if s.now.outReady then
    if s.txIdx.toNat < 3 * s.maxLeds.toNat + 2 then { s with txIdx := s.txIdx + 1 }
    else { s with txIdx := 0, exitFlag := false, abortPend := false, state := .done }
  else s

/-- TX_COL offers a byte that CBM does not have (log entry 5). -/
def txColFault (s : State) : Option Fault :=
  if columnByteExists s.params s.curCol.toNat s.txIdx.toNat then none else some .noSuchColumnByte

/-- A delay cycle whose counter is already 0, which the rules exclude (R165; log entry 5). -/
def waitFault (s : State) : Option Fault := if s.waitLeft = 0 then some .delayUnderflow else none

end Sys2Proof.Machine
end

