-- ==== Sys2Proof/Machine/Engine.lean ====
section
/-! DEFINITION. The engine transition `We` of one cycle (10_state.md R47 step 4), with an abort in its place where one is taken
(60_exceptions.md R220 to R224). -/

namespace Sys2Proof.Machine

/-- The transition of the current STATE; `abort` is `abort_taken` (R220 to R223, R142 to R145, R163 to R169, R226). -/
def stateStep (s : State) (abort : Bool) : State :=
  match s.state with
  | .idle => if abort then toOffBuffer s else s
  | .encoding => if abort then toOffBuffer s else encodingStep s
  | .txCol => txColStep s abort
  | .waitCol => if abort then toOffBuffer s else waitColStep s
  | .waitLoop => if abort then toOffBuffer s else waitLoopStep s
  | .txOff => txOffStep s
  | .done => s
  | .error => s

/-- `We` of a cycle; `shutdownCmd` is 1 when the cycle's command is SHUTDOWN (R216, R219). -/
def engine (s : State) (shutdownCmd : Bool) : State :=
  if abortTaken s shutdownCmd then latchAbort (stateStep s true) (abortCause s.now shutdownCmd)
  else stateStep s false

/-- The element the engine would access in this cycle and the memories do not have, or a spent delay counter (log entry 5). -/
def engineFault (s : State) (abort : Bool) : Option Fault :=
  match s.state with
  | .idle => none
  | .encoding => if abort then none else encodingFault s
  | .txCol => txColFault s
  | .waitCol => if abort then none else waitFault s
  | .waitLoop => if abort then none else waitFault s
  | .txOff => none
  | .done => none
  | .error => none

end Sys2Proof.Machine
end

