-- ==== Sys2Proof/Machine/Cycle.lean ====
section
/-! DEFINITION. The shapes a clock cycle can take (10_state.md R47, 60_exceptions.md R229). Every meaning is one of them. -/

namespace Sys2Proof.Machine

/-- A cycle in which the engine takes its own transition beside the bus effect `w` (R47, R48). -/
def engineCycle (s : State) (shutdownCmd : Bool) (w : BusWrite) (resp : BusResp) : Host.Outcome State Fault Refusal :=
  if s.params.legal then
    match engineFault s (abortTaken s shutdownCmd) with
    | some f => .fault f
    | none => .next ((applyBusWrite (engine s shutdownCmd) w).tick { bus := resp, stream := streamOut s })
  else .fault .illegalParameters

/-- A cycle in which an accepted command's own effect `t` takes the engine's place (R47 step 4). It is answered OKAY (R204). -/
def commandCycle (s t : State) : Host.Outcome State Fault Refusal :=
  if s.params.legal then .next (t.tick { bus := okay 0, stream := streamOut s })
  else .fault .illegalParameters

/-- A rejected command: ERR, BUS_ERR set, and the engine goes on (R204, R77, R229). -/
def rejectCommand (s : State) : Host.Outcome State Fault Refusal := engineCycle s false .busErr errResp

/-- A CMD write of an illegal opcode is rejected in every state (R103, R203). -/
def illegalCommand (s : State) : Host.Outcome State Fault Refusal := rejectCommand s

/-- A cycle that issues no command (R47, R73). -/
def accessCycle (s : State) (a : Access) : Host.Outcome State Fault Refusal :=
  engineCycle s false (accessWrite s a) (accessResp s a)

/-- What `rst = 1` leaves: the reset state, PIX and CBM unchanged (R49, R250). -/
def resetState (s : State) : State :=
  { State.resetOf s.params with pix := s.pix, cbm := s.cbm, inputs := s.inputs, cycle := s.cycle }

/-- A cycle with `rst = 1`: no byte is offered, and a transaction presented gets ERR with no effect (R250). -/
def resetCycle (s : State) : Host.Outcome State Fault Refusal :=
  if s.params.legal then
    .next ((resetState s).tick
      { bus := if s.now.busReq then errResp else okay 0, stream := silentStream })
  else .fault .illegalParameters

end Sys2Proof.Machine
end

