-- ==== Sys2Proof/Machine/ControlCommands.lean ====
section
/-! DEFINITION. The control family (43_control.md): NOP (R200), SHUTDOWN (R201), CLEAR (R202). -/

namespace Sys2Proof.Machine

/-- NOP (R200): always accepted, no effect; the engine goes on. -/
def execNop (s : State) : Host.Outcome State Fault Refusal := engineCycle s false .none (okay 0)

/-- SHUTDOWN (R201): always accepted; it is an abort source of this cycle, and acts only through `abort_taken`. -/
def execShutdown (s : State) : Host.Outcome State Fault Refusal := engineCycle s true .none (okay 0)

/-- CLEAR (R202): the cycle in which a host writes it to CMD. -/
def execClear (s : State) : Host.Outcome State Fault Refusal :=
  if acceptsClear s then commandCycle s (clearTerminal s) else rejectCommand s

end Sys2Proof.Machine
end

