-- ==== Sys2Proof/Machine/EncodeCommand.lean ====
section
/-! DEFINITION. The encoding family: ENCODE (41_formatter.md R140). -/

namespace Sys2Proof.Machine

/-- ENCODE's effect when it is accepted (R140): on a failed check, ERROR; else the formatter starts. -/
def encodeEffect (s : State) : State :=
  if checkGeometry s = .none then beginEncoding s false else enterError s (checkGeometry s)

/-- ENCODE (R140): the cycle in which a host writes it to CMD. -/
def execEncode (s : State) : Host.Outcome State Fault Refusal :=
  if acceptsEncode s then commandCycle s (encodeEffect s) else rejectCommand s

end Sys2Proof.Machine
end

