-- ==== Sys2Proof/Machine/OutputCommands.lean ====
section
/-! DEFINITION. The output family: RUN (42_sequencer.md R160) and START (R161). -/

namespace Sys2Proof.Machine

/-- To the first byte of column 0 of a new run: `ITER' <- 0 ; CUR_COL' <- 0 ; TX_IDX' <- 0` (R160, R161). -/
def startOutput (s : State) : State := { s with iter := 0, curCol := 0, txIdx := 0 }

/-- RUN's effect when it is accepted (R160): its checks in order, then TX_COL. -/
def runEffect (s : State) : State :=
  if s.now.sinkAvail = false then enterError s .deviceUnavailable
  else if s.maxLeds.toNat = 0 ∨ s.maxLeds.toNat > s.params.pMaxLeds then enterError s .badConfig
  else if s.encH.toNat > s.maxLeds.toNat then enterError s .imageTooTall
  else { startOutput s with state := .txCol }

/-- RUN (R160): the cycle in which a host writes it to CMD. -/
def execRun (s : State) : Host.Outcome State Fault Refusal :=
  if acceptsRun s then commandCycle s (runEffect s) else rejectCommand s

/-- START's effect when it is accepted (R161): its checks in order, then ENCODING with output to follow. -/
def startEffect (s : State) : State :=
  if s.now.sinkAvail = false then enterError s .deviceUnavailable
  else if checkGeometry s = .none then startOutput (beginEncoding s true)
  else enterError s (checkGeometry s)

/-- START (R161): the cycle in which a host writes it to CMD. -/
def execStart (s : State) : Host.Outcome State Fault Refusal :=
  if acceptsStart s then commandCycle s (startEffect s) else rejectCommand s

end Sys2Proof.Machine
end

