-- ==== Sys2Proof/Machine/Dispatch.lean ====
section
/-! DEFINITION. One arm per command: the clock cycle in which a host writes it to CMD (`rst = 0`; the bus inputs are that write). -/

namespace Sys2Proof.Machine

def exec (i : Instr) (s : State) : Host.Outcome State Fault Refusal :=
  match i with
  | .nop => Sys2Proof.Machine.execNop s
  | .encode => Sys2Proof.Machine.execEncode s
  | .run => Sys2Proof.Machine.execRun s
  | .start => Sys2Proof.Machine.execStart s
  | .shutdown => Sys2Proof.Machine.execShutdown s
  | .clear => Sys2Proof.Machine.execClear s

end Sys2Proof.Machine
end

