-- ==== Sys2Proof/Machine/Step.lean ====
section
/-! DEFINITION. One step is one clock cycle (00_scope.md R11, 10_state.md R47). -/

namespace Sys2Proof.Machine

/-- One clock cycle with the input ports `s.now`: reset overrides everything (R229, R250); a write to CMD runs the command it
decodes to, or is rejected (R204, R203); any other cycle is a bus access, or none, beside the engine (R47). -/
def step (s : State) : Host.Outcome State Fault Refusal :=
  if s.now.rst then resetCycle s
  else
    match presented s.params s.now with
    | .command w =>
      match decode w with
      | .ok i => exec i s
      | .error _ => illegalCommand s
    | .access a => accessCycle s a

/-- The state whose current cycle presents a write of the table word to CMD (R30), and no reset. The other input ports of the cycle
are the listed ones, or the quiet environment of 95_test_vectors.md when none is listed (log entry 7). -/
def State.withFetchWord (s : State) (nbits w : Nat) : State :=
  { s with inputs := ((s.inputs.headD PortIn.quiet).withCommand (tableWord nbits w)) :: s.inputs.tail }

end Sys2Proof.Machine
end

