-- ==== Sys2Proof/Safety.lean ====
section
/-! DEFINITION. The terms in which claims about runs are stated: the invariant of the block, what the sink receives, and the
environments that a law of the spec assumes. -/

namespace Sys2Proof.Machine

/-- The states in which the sequencer is between the start of an output run and its off buffer, ENCODING for START included. -/
def State.running (s : State) : Bool :=
  match s.state with
  | .idle => false
  | .encoding => s.runAfterEnc
  | .txCol => true
  | .waitCol => true
  | .waitLoop => true
  | .txOff => false
  | .done => false
  | .error => false

/-- The invariant of the block: what the rules keep true of every state that a run reaches. -/
structure State.Inv (s : State) : Prop where
  /-- the instantiation is admitted (R5, R6) -/
  params_legal : s.params.legal = true
  /-- PIX is in canonical form -/
  pix_wf : Memory.wf s.pix
  /-- CBM is in canonical form -/
  cbm_wf : Memory.wf s.cbm
  /-- every listed byte of PIX is a channel of a pixel that exists (R24, R80) -/
  pix_exists : ∀ c ∈ s.pix,
    0x1000000 ≤ c.1 ∧ c.1 < 0x1000000 + 4 * (s.params.pMaxWidth * s.params.pMaxLeds) ∧ c.1 % 4 < 3
  /-- every listed byte of CBM exists (R25, R81) -/
  cbm_exists : ∀ c ∈ s.cbm,
    0x2000000 ≤ c.1 ∧ c.1 < 0x2000000 + 4 * (s.params.pMaxWidth * s.params.colStride) ∧ c.1 % 4 = 0
  /-- a complete encoding, or one in progress, has a geometry the memories hold (R141) -/
  geometry_fits : s.encoded = true ∨ s.state = .encoding →
    1 ≤ s.encW.toNat ∧ s.encW.toNat ≤ s.params.pMaxWidth ∧ 1 ≤ s.encH.toNat ∧ s.encH.toNat ≤ s.params.pMaxLeds
  /-- the formatter's cursor is inside the image, and nothing is encoded yet (R140, R142, R144) -/
  cursor_inside : s.state = .encoding →
    s.encoded = false ∧ s.encX.toNat < s.encW.toNat ∧ s.encY.toNat ≤ s.encH.toNat
  /-- output states have a complete encoding and a column of it (R160, R145, R166) -/
  column_inside : s.state = .txCol ∨ s.state = .waitCol ∨ s.state = .waitLoop →
    s.encoded = true ∧ s.curCol.toNat < s.encW.toNat
  /-- the byte offered in TX_COL is one of the column's 3*ENC_H + 1 (R163) -/
  column_byte : s.state = .txCol → s.txIdx.toNat ≤ 3 * s.encH.toNat
  /-- the byte offered in TX_OFF is one of the off buffer's 3*MAX_LEDS + 3 (R169) -/
  off_byte : s.state = .txOff → s.txIdx.toNat ≤ 3 * s.maxLeds.toNat + 2
  /-- the image fits the strip during encoding and output (R141, R160, R254) -/
  strip_fits : s.state = .encoding ∨ s.state = .txCol ∨ s.state = .waitCol ∨ s.state = .waitLoop →
    s.encH.toNat ≤ s.maxLeds.toNat ∧ s.maxLeds.toNat ≤ s.params.pMaxLeds
  /-- a delay in progress has at least one cycle left (R165) -/
  delay_left : s.state = .waitCol ∨ s.state = .waitLoop → 1 ≤ s.waitLeft.toNat
  /-- throughout WAIT_LOOP, CUR_COL holds ENC_W - 1 (R168) -/
  loop_column : s.state = .waitLoop → s.curCol.toNat + 1 = s.encW.toNat
  /-- ERR_CODE is not 0 exactly in ERROR (R45) -/
  error_code : s.errCode ≠ .none ↔ s.state = .error
  /-- EXIT is 1 exactly in ERROR (R227, R31) -/
  exit_flag : s.exitFlag = true ↔ s.state = .error
  /-- a pending abort is finishing its column, in its off buffer, or stopped in ERROR by a failed off buffer (R22, R219 to R223) -/
  abort_pending : s.abortPend = true →
    (s.state = .txCol ∨ s.state = .txOff ∨ s.state = .error) ∧ s.signal ≠ .none
  /-- in bounded mode, ITER is below REPEAT while another iteration is due (R167) -/
  iterations_left : s.running = true → s.repeatCount.toNat ≠ 0 → s.iter.toNat < s.repeatCount.toNat

/-! ### Runs -/

/-- The state after n cycles, if none of them stops. -/
def after : Nat → State → Option State
  | 0, s => some s
  | n + 1, s =>
    match step s with
    | .next t => after n t
    | .fault _ => none
    | .refused _ => none

/-- What the sink receives in n cycles: the bytes that had a handshake, each with its `out_last` (R162). -/
def received : Nat → State → List (Byte × Bool)
  | 0, _ => []
  | n + 1, s =>
    (if handshake s then [((streamOut s).data, (streamOut s).last)] else []) ++
      (match step s with
       | .next t => received n t
       | .fault _ => []
       | .refused _ => [])

/-- The cycle presents a SHUTDOWN command (R201). -/
def presentsShutdown (p : Params) (i : PortIn) : Bool :=
  match presented p i with
  | .command w =>
    match decode w with
    | .ok .shutdown => true
    | .ok _ => false
    | .error _ => false
  | .access _ => false

/-- Neither reset nor an abort request in the cycle. Every other bus transaction is allowed. -/
def undisturbed (p : Params) (i : PortIn) : Bool := !i.rst && !abortReq i (presentsShutdown p i)

/-- The sink takes every byte offered in the cycle. -/
def sinkReady (i : PortIn) : Bool := i.outReady && !i.sinkErr

/-- The column buffer of column x as the sink receives it (R146, R162). -/
def columnStream (s : State) (x : Nat) : List (Byte × Bool) :=
  (List.range (3 * s.encH.toNat + 1)).map (fun k => (readColumn s x k, decide (k = 3 * s.encH.toNat)))

/-- The columns from `first` up to ENC_W - 1, in ascending x (R175). -/
def columnsFrom (s : State) (first : Nat) : List (Byte × Bool) :=
  ((List.range (s.encW.toNat - first)).map (fun j => columnStream s (first + j))).flatten

/-- The off buffer as the sink receives it: 3*MAX_LEDS + 3 bytes of 0x80 (R170). -/
def offStream (maxLeds : Nat) : List (Byte × Bool) :=
  (List.range (3 * maxLeds + 3)).map (fun k => (0x80, decide (k = 3 * maxLeds + 2)))

/-- The cycles of a bounded run of n iterations (R174). -/
def boundedRunCycles (s : State) (n : Nat) : Nat :=
  n * s.encW.toNat * (3 * s.encH.toNat + 1) + n * s.encW.toNat * (s.colDelay.toNat * s.params.pTickCycles) +
    (n - 1) * (if s.blank then s.loopDelay.toNat * s.params.pTickCycles else 0) + (3 * s.maxLeds.toNat + 3)

/-! ### Terms for single cycles -/

/-- The same state with other input ports in the current cycle. -/
def State.withInput (s : State) (i : PortIn) : State := { s with inputs := i :: s.inputs.tail }

/-- The same state with no bus transaction in the current cycle (`bus_req = 0`, R73). -/
def State.withoutBus (s : State) : State := s.withInput { s.now with busReq := false }

/-- The same state with `MemRead(a, 4)` on the bus in the current cycle (R74). -/
def State.withRead (s : State) (a : Nat) : State :=
  s.withInput { s.now with busReq := true, busWe := false, busAddr := BitVec.ofNat 26 a }

/-- The same state with `MemWrite(a, 4, v)` on the bus in the current cycle (R74). -/
def State.withWrite (s : State) (a : Nat) (v : Word) : State :=
  s.withInput { s.now with busReq := true, busWe := true, busAddr := BitVec.ofNat 26 a, busWdata := v }

/-- What a cycle with an ERR response leaves, from what the same cycle without a transaction leaves (R77). -/
def State.withBusErr (u : State) : State := { u with busErr := true, out := { u.out with bus := errResp } }

/-- The offset of a register in the CSR region (R26). -/
def csrOffset : Csr → Nat
  | .id => 0x000
  | .cap0 => 0x004
  | .cap1 => 0x008
  | .cmd => 0x010
  | .status => 0x014
  | .iter => 0x018
  | .curCol => 0x01C
  | .txIdx => 0x020
  | .encGeom => 0x024
  | .encPos => 0x028
  | .width => 0x040
  | .height => 0x044
  | .maxLeds => 0x048
  | .repeatCount => 0x04C
  | .colDelay => 0x050
  | .loopDelay => 0x054
  | .ctrl => 0x058

/-- The CSR of a configuration register (R26). -/
def configCsr : ConfigReg → Csr
  | .width => .width
  | .height => .height
  | .maxLeds => .maxLeds
  | .repeatCount => .repeatCount
  | .colDelay => .colDelay
  | .loopDelay => .loopDelay
  | .ctrl => .ctrl

/-- The field bits of a configuration register (R37 to R43). -/
def configMask : ConfigReg → Word
  | .width => 0xFFFF
  | .height => 0xFFFF
  | .maxLeds => 0xFFFF
  | .repeatCount => 0xFFFFFFFF
  | .colDelay => 0xFFFFFFFF
  | .loopDelay => 0xFFFFFFFF
  | .ctrl => 1

/-- The acceptance condition of each command (R204). -/
def accepts (i : Instr) (s : State) : Bool :=
  match i with
  | .nop => true
  | .encode => acceptsEncode s
  | .run => acceptsRun s
  | .start => acceptsStart s
  | .shutdown => true
  | .clear => acceptsClear s

/-- The configuration and the hardwired parameters are the same (R254). -/
structure SameConfig (s t : State) : Prop where
  params : t.params = s.params
  width : t.width = s.width
  height : t.height = s.height
  maxLeds : t.maxLeds = s.maxLeds
  repeatCount : t.repeatCount = s.repeatCount
  colDelay : t.colDelay = s.colDelay
  loopDelay : t.loopDelay = s.loopDelay
  blank : t.blank = s.blank

/-- The encoding's registers are the same: ENCODED, RUN_AFTER_ENC, ENC_W, ENC_H, ENC_X, ENC_Y. -/
structure SameEncoding (s t : State) : Prop where
  encoded : t.encoded = s.encoded
  runAfterEnc : t.runAfterEnc = s.runAfterEnc
  encW : t.encW = s.encW
  encH : t.encH = s.encH
  encX : t.encX = s.encX
  encY : t.encY = s.encY

/-- The record of how a run stands or ended is the same: ABORT_PEND, EXIT, ERR_CODE, SIGNAL. -/
structure SameRecord (s t : State) : Prop where
  abortPend : t.abortPend = s.abortPend
  exitFlag : t.exitFlag = s.exitFlag
  errCode : t.errCode = s.errCode
  signal : t.signal = s.signal

/-- The output position's counters are the same: ITER, CUR_COL, WAIT_LEFT (TX_IDX apart). -/
structure SamePosition (s t : State) : Prop where
  iter : t.iter = s.iter
  curCol : t.curCol = s.curCol
  waitLeft : t.waitLeft = s.waitLeft

end Sys2Proof.Machine
end

