-- ==== Sys2Proof/Certificates/Slice0/Obligations.lean ====
section
/-! DEFINITION. The statements for the provers. Each says which rule of spec/ it formalises. In statements about one clock cycle,
`s.now` is the cycle's input ports; an equation `step s = .next { s with … }` says at once what the cycle writes and that it
writes nothing else (its frame). `exec i s` is the cycle in which a host writes command i to CMD. -/

open Sys2Proof Sys2Proof.Machine

/-! ### Encoding and decoding -/

/-- R101, R102, R107: for every command and every value of the ignored bits, decoding an encoded command gives it back, and a word
that decodes to a command is an encoding of it. -/
def Obligations.DecodeAndEncodeAgree : Prop :=
  ∀ i : Instr, i.wellFormed = true →
    (∀ ignored : BitVec 28, decode (encodeWith ignored i) = .ok i) ∧
      (∀ w : Word, decode w = .ok i → ∃ ignored : BitVec 28, w = encodeWith ignored i)

/-- R103, R107: every word decodes to exactly one command or is illegal, by `op = w[3:0]`; 0x6 to 0xF are the illegal opcodes. -/
def Obligations.DecodeIsTotalByOpcode : Prop :=
  ∀ w : Word,
    ((∃ i, decode w = .ok i ∧ w.toNat % 16 = (opcode i).toNat) ∧ w.toNat % 16 < 6) ∨
      (decode w = .error (.illegalOpcode (w.extractLsb' 0 4)) ∧ 6 ≤ w.toNat % 16)

/-- R102: words written out from the opcode map, with bits set in the ignored field, decode to the commands they stand for. -/
def Obligations.WrittenWordsDecode : Prop :=
  decode 0x00000000 = .ok .nop ∧ decode 0xFFFFFFF1 = .ok .encode ∧ decode 0x00000002 = .ok .run ∧
    decode 0x12345673 = .ok .start ∧ decode 0x80000004 = .ok .shutdown ∧ decode 0x00000015 = .ok .clear ∧
    decode 0x00000007 = .error (.illegalOpcode 7) ∧ decode 0x0000000F = .error (.illegalOpcode 15)

/-- R204, R47: in a cycle without reset, a write of a word to CMD runs the command the word decodes to; the step adds nothing
around `exec`. A word presented to CMD is read as that command whatever the parameters. -/
def Obligations.StepRunsTheDecodedCommand : Prop :=
  (∀ (s : State) (w : Word) (i : Instr), s.now.rst = false → presented s.params s.now = .command w → decode w = .ok i →
      step s = exec i s) ∧
    (∀ (s : State) (p : PortIn) (w : Word) (i : Instr), decode w = .ok i →
      step (s.withInput (p.withCommand w)) = exec i (s.withInput (p.withCommand w)))

/-! ### The gamma LUT -/

/-- R120: the LUT is `0x80 | k(i)` with `k(i) = floor((i/255)^2.5 * 127 + 0.5)`, which is 0 to 127 and is the one integer nearest to
`(i/255)^2.5 * 127`, so every rounding to nearest gives the same byte. -/
def Obligations.GammaIsTheTransferFunction : Prop :=
  ∀ i : Byte,
    (gamma i = 0x80 ||| BitVec.ofNat 8 ⌊((i.toNat : ℝ) / 255) ^ (5 / 2 : ℝ) * 127 + 1 / 2⌋₊) ∧
      ⌊((i.toNat : ℝ) / 255) ^ (5 / 2 : ℝ) * 127 + 1 / 2⌋₊ ≤ 127 ∧
      (∀ n : ℤ, |((i.toNat : ℝ) / 255) ^ (5 / 2 : ℝ) * 127 - n| ≤ 1 / 2 →
        n = ⌊((i.toNat : ℝ) / 255) ^ (5 / 2 : ℝ) * 127 + 1 / 2⌋₊) ∧
      0x80 ≤ (gamma i).toNat

/-- R121, R122, R123: the table is `0x80 | k(i)` with `k(i)` by the exact integer form; no index gives equality in its test. -/
def Obligations.GammaMatchesTheExactIntegerForm : Prop :=
  ∀ i : Byte,
    gamma i = 0x80 ||| BitVec.ofNat 8 (gammaCount i.toNat) ∧ gamma i &&& 0x80 = 0x80 ∧
      (gamma i &&& 0x7F).toNat = gammaCount i.toNat ∧
      ∀ m : Nat, 1 ≤ m → m ≤ 127 → (2 * m - 1) ^ 2 * 255 ^ 5 ≠ 254 ^ 2 * i.toNat ^ 5

/-- R124, R125: the LUT is monotonically non-decreasing, and not strictly increasing: exactly the entries 0 to 27 are 0x80. -/
def Obligations.GammaIsMonotone : Prop :=
  (∀ i j : Byte, i.toNat ≤ j.toNat → (gamma i).toNat ≤ (gamma j).toNat) ∧
    (∀ i : Byte, gamma i = 0x80 ↔ i.toNat ≤ 27)

/-! ### Reset -/

/-- R250, R49: a cycle with `rst = 1` leaves the reset state whatever the state and the other inputs are, PIX and CBM unchanged;
it offers no byte, and answers a transaction with ERR and no effect. That `bus_err` and `bus_rdata` are 0 in a reset cycle without a
transaction is the model's reading of R73 beside R250, log entry 15 (DEDUCED, unsafe for a claim about that response). -/
def Obligations.ResetCycleLeavesTheResetState : Prop :=
  ∀ s : State, s.params.legal = true → s.now.rst = true →
    step s = .next
      { params := s.params, state := .idle, encoded := false, abortPend := false, busErr := false, exitFlag := false,
        errCode := .none, signal := .none, runAfterEnc := false, iter := 0, curCol := 0, txIdx := 0, encW := 0, encH := 0,
        encX := 0, encY := 0, waitLeft := 0, width := 0, height := 0, maxLeds := 0, repeatCount := 0, colDelay := 0,
        loopDelay := 0, blank := false, pix := s.pix, cbm := s.cbm, inputs := s.inputs.tail, cycle := s.cycle + 1,
        out := { bus := { rdata := 0, err := s.now.busReq }, stream := { valid := false, data := 0, last := false } } }

/-- R251: in the first cycle after reset no byte is offered, STATUS reads 0, ID the constant, CAP0 and CAP1 the parameters. -/
def Obligations.OutputsAfterReset : Prop :=
  (∀ s t : State, s.now.rst = true → step s = .next t →
    t.state = .idle ∧ (streamOut t).valid = false ∧ busRead t (.csr .status) = some 0 ∧
      busRead t (.csr .id) = some 0x474C0001 ∧
      busRead t (.csr .cap0) = some (BitVec.ofNat 32 (s.params.pMaxWidth <<< 16 ||| s.params.pMaxLeds)) ∧
      busRead t (.csr .cap1) = some (BitVec.ofNat 32 s.params.pTickCycles)) ∧
    cap0Word Config.ref = 0x00400040 ∧ cap1Word Config.ref = 1

/-! ### The invariant -/

/-- Every admitted instantiation meets the invariant right after reset; so does the model's REF (log entry 3). -/
def Obligations.InvariantHoldsAtReset : Prop :=
  (∀ p : Params, p.legal = true → (State.resetOf p).Inv) ∧ State.reset.Inv

/-- Every step keeps the invariant: canonical memories that list only bytes that exist, cursors and indices in range, ERR_CODE
and EXIT exactly in ERROR (R45, R227), the abort latch only where an abort leaves it, ITER below REPEAT (R167). -/
def Obligations.StepKeepsTheInvariant : Prop :=
  ∀ s t : State, s.Inv → step s = .next t → t.Inv

/-- In a state with the invariant no step stops, whatever the environment presents (R73, R226, 93 I7, I9 to I11). -/
def Obligations.StepNeverStopsUnderTheInvariant : Prop :=
  ∀ s : State, s.Inv → ∃ t, step s = .next t

/-- 93 I13, R6 (log entry 4): an instantiation that breaks R5 or R6 is not admitted: every step and every command faults. -/
def Obligations.IllegalParametersFault : Prop :=
  ∀ s : State, s.params.legal = false →
    step s = .fault .illegalParameters ∧ ∀ i : Instr, exec i s = .fault .illegalParameters

/-! ### The host bus -/

/-- R77, R228: an ERR response, of any access or rejected command, sets BUS_ERR and changes nothing else: the next state is that of
the same cycle without the transaction, but for BUS_ERR and the response. -/
def Obligations.ErrResponseWritesOnlyBusErr : Prop :=
  ∀ s t : State, s.now.rst = false → step s = .next t → t.out.bus.err = true →
    ∃ u, step s.withoutBus = .next u ∧ t = u.withBusErr

/-- R75, R76, R72: a misaligned transaction, and an aligned one to an unmapped address, get ERR in every state, with the effects of
R77: the next state is that of the same cycle without the transaction, but for BUS_ERR and the response. -/
def Obligations.MisalignedAndUnmappedGetErr : Prop :=
  ∀ s : State, s.Inv → s.now.rst = false → s.now.busReq = true →
    (s.now.busAddr.toNat % 4 ≠ 0 ∨
        (s.now.busAddr.toNat < 0x100 ∧ ∀ r : Csr, csrOffset r ≠ s.now.busAddr.toNat) ∨
        (0x100 ≤ s.now.busAddr.toNat ∧ s.now.busAddr.toNat < 0x1000) ∨
        (0x1400 ≤ s.now.busAddr.toNat ∧ s.now.busAddr.toNat < 0x1000000) ∨
        (0x1000000 + 4 * (s.params.pMaxWidth * s.params.pMaxLeds) ≤ s.now.busAddr.toNat ∧
          s.now.busAddr.toNat < 0x2000000) ∨
        (0x2000000 + 4 * (s.params.pMaxWidth * s.params.colStride) ≤ s.now.busAddr.toNat ∧
          s.now.busAddr.toNat < 0x3000000) ∨
        0x3000000 ≤ s.now.busAddr.toNat) →
    ∃ t u, step s = .next t ∧ t.busErr = true ∧ t.out.bus = { rdata := 0, err := true } ∧
      step s.withoutBus = .next u ∧ t = u.withBusErr

/-- R79, R80, R81, R26: the windows' words decode to the elements they stand for, and each register's offset to the register. -/
def Obligations.WindowAddressesDecodeToElements : Prop :=
  ∀ p : Params, p.legal = true →
    (∀ x y : Nat, x < p.pMaxWidth → y < p.pMaxLeds →
        decodeAddress p (BitVec.ofNat 26 (0x1000000 + 4 * (x * p.pMaxLeds + y))) = .pixel x y) ∧
      (∀ x k : Nat, x < p.pMaxWidth → k < p.colStride →
        decodeAddress p (BitVec.ofNat 26 (0x2000000 + 4 * (x * p.colStride + k))) = .column x k) ∧
      (∀ i : Nat, i < 256 → decodeAddress p (BitVec.ofNat 26 (0x1000 + 4 * i)) = .lut i) ∧
      (∀ r : Csr, decodeAddress p (BitVec.ofNat 26 (csrOffset r)) = .csr r)

/-- R84, R73: a read has no side effect: the next state is that of the same cycle without the transaction, but for the response,
and for BUS_ERR where the response is ERR. -/
def Obligations.ReadsHaveNoSideEffect : Prop :=
  ∀ (s t : State), s.now.rst = false → s.now.busReq = true → s.now.busWe = false → step s = .next t →
    ∃ u, step s.withoutBus = .next u ∧
      t = { u with busErr := u.busErr || t.out.bus.err, out := { u.out with bus := t.out.bus } }

/-- R26 to R43, R78: a read of any register at its offset answers OKAY with the register's word, in every state. Each word is written
out from the fields of the state, but for STATUS, which `Obligations.StatusFieldsAreInPlace` writes out. -/
def Obligations.RegisterReadsReturnTheirWord : Prop :=
  ∀ (s : State) (r : Csr), s.Inv → s.now.rst = false →
    (csrWord s r =
        match r with
        | .id => 0x474C0001
        | .cap0 => BitVec.ofNat 32 (s.params.pMaxWidth * 65536 + s.params.pMaxLeds)
        | .cap1 => BitVec.ofNat 32 s.params.pTickCycles
        | .cmd => 0
        | .status => csrWord s .status
        | .iter => s.iter
        | .curCol => BitVec.ofNat 32 s.curCol.toNat
        | .txIdx => s.txIdx
        | .encGeom => BitVec.ofNat 32 (s.encH.toNat * 65536 + s.encW.toNat)
        | .encPos => BitVec.ofNat 32 (s.encY.toNat * 65536 + s.encX.toNat)
        | .width => BitVec.ofNat 32 s.width.toNat
        | .height => BitVec.ofNat 32 s.height.toNat
        | .maxLeds => BitVec.ofNat 32 s.maxLeds.toNat
        | .repeatCount => s.repeatCount
        | .colDelay => s.colDelay
        | .loopDelay => s.loopDelay
        | .ctrl => if s.blank then 1 else 0) ∧
      ∃ t, step (s.withRead (csrOffset r)) = .next t ∧ t.out.bus = { rdata := csrWord s r, err := false } ∧
        t.busErr = s.busErr

/-- R31, R23, R210, R217: the fields of the word that STATUS reads, the codes of STATE, ERR_CODE and SIGNAL written out, the reserved
bits 0. -/
def Obligations.StatusFieldsAreInPlace : Prop :=
  ∀ s : State,
    (csrWord s .status).extractLsb' 0 3 =
        (match s.state with
        | .idle => 0
        | .encoding => 1
        | .txCol => 2
        | .waitCol => 3
        | .waitLoop => 4
        | .txOff => 5
        | .done => 6
        | .error => 7) ∧
      (csrWord s .status).getLsbD 3 = s.encoded ∧ (csrWord s .status).getLsbD 4 = s.abortPend ∧
      (csrWord s .status).getLsbD 5 = s.busErr ∧ (csrWord s .status).getLsbD 6 = s.exitFlag ∧
      (csrWord s .status).getLsbD 7 = false ∧
      (csrWord s .status).extractLsb' 8 3 =
        (match s.errCode with
        | .none => 0
        | .deviceUnavailable => 1
        | .imageTooTall => 2
        | .badConfig => 3
        | .deviceWriteFailure => 4) ∧
      (csrWord s .status).getLsbD 11 = false ∧
      (csrWord s .status).extractLsb' 12 3 =
        (match s.signal with
        | .none => 0
        | .int => 1
        | .term => 2
        | .hup => 3
        | .segv => 4
        | .host => 5) ∧
      (csrWord s .status).getLsbD 15 = s.runAfterEnc ∧ (csrWord s .status).extractLsb' 16 16 = 0

/-- R79: in every state a read of LUT window word i returns LUT[i] zero-extended with OKAY, and a write gets ERR. -/
def Obligations.LutWindowReadsTheTable : Prop :=
  ∀ (s : State) (i : Nat), s.Inv → s.now.rst = false → i < 256 →
    (∃ t, step (s.withRead (0x1000 + 4 * i)) = .next t ∧
        t.out.bus = { rdata := (gamma (BitVec.ofNat 8 i)).setWidth 32, err := false }) ∧
      ∀ v : Word, ∃ t, step (s.withWrite (0x1000 + 4 * i) v) = .next t ∧ t.out.bus = { rdata := 0, err := true }

/-- R81: in every state a read of a column-buffer word returns the byte zero-extended with OKAY; a write gets ERR. -/
def Obligations.ColumnWindowReadsTheBuffers : Prop :=
  ∀ (s : State) (x k : Nat), s.Inv → s.now.rst = false → x < s.params.pMaxWidth → k < s.params.colStride →
    (∃ t, step (s.withRead (0x2000000 + 4 * (x * s.params.colStride + k))) = .next t ∧
        t.out.bus = { rdata := (readColumn s x k).setWidth 32, err := false }) ∧
      ∀ v : Word, ∃ t, step (s.withWrite (0x2000000 + 4 * (x * s.params.colStride + k)) v) = .next t ∧
        t.out.bus = { rdata := 0, err := true }

/-- R80, R255: a pixel write outside ENCODING gets OKAY, stores the three channels (R in [7:0], G in [15:8], B in [23:16]) and
leaves every other pixel alone; in ENCODING it gets ERR and stores nothing. A read returns the channels with bits [31:24] 0. -/
def Obligations.PixelWindowStoresAndReadsPixels : Prop :=
  ∀ (s : State) (x y : Nat) (v : Word), s.Inv → s.now.rst = false → x < s.params.pMaxWidth → y < s.params.pMaxLeds →
    (∃ t, step (s.withRead (0x1000000 + 4 * (x * s.params.pMaxLeds + y))) = .next t ∧
        t.out.bus.err = false ∧
        t.out.bus.rdata = ((readPixel s x y).r.setWidth 32 ||| (readPixel s x y).g.setWidth 32 <<< 8 |||
          (readPixel s x y).b.setWidth 32 <<< 16)) ∧
      ∃ t, step (s.withWrite (0x1000000 + 4 * (x * s.params.pMaxLeds + y)) v) = .next t ∧
        (s.state ≠ .encoding →
          t.out.bus = { rdata := 0, err := false } ∧
            readPixel t x y = { r := v.extractLsb' 0 8, g := v.extractLsb' 8 8, b := v.extractLsb' 16 8 } ∧
            ∀ x' y' : Nat, y' < s.params.pMaxLeds → (x', y') ≠ (x, y) → readPixel t x' y' = readPixel s x' y') ∧
        (s.state = .encoding → t.out.bus = { rdata := 0, err := true } ∧ t.pix = s.pix)

/-- R78: in IDLE, DONE and ERROR a write to a configuration register gets OKAY and stores the word masked to the register's field,
and no other configuration register changes. -/
def Obligations.QuiescentConfigurationWritesStore : Prop :=
  ∀ (s : State) (r : ConfigReg) (v : Word), s.Inv → s.now.rst = false →
    s.state = .idle ∨ s.state = .done ∨ s.state = .error →
    ∃ t, step (s.withWrite (csrOffset (configCsr r)) v) = .next t ∧ t.out.bus = { rdata := 0, err := false } ∧
      csrWord t (configCsr r) = v &&& configMask r ∧
      ∀ r' : ConfigReg, r' ≠ r → csrWord t (configCsr r') = csrWord s (configCsr r')

/-- R254: in every busy state a write to a configuration register gets ERR and stores nothing; no cycle without reset changes the
configuration in a busy state. -/
def Obligations.ConfigurationIsFrozenWhileBusy : Prop :=
  ∀ s : State, s.state = .encoding ∨ s.state = .txCol ∨ s.state = .waitCol ∨ s.state = .waitLoop ∨ s.state = .txOff →
    s.now.rst = false →
    (∀ t, step s = .next t → SameConfig s t) ∧
      ∀ (r : ConfigReg) (v : Word) (t : State), step (s.withWrite (csrOffset (configCsr r)) v) = .next t →
        t.out.bus = { rdata := 0, err := true }

/-- R48: the bus effect and the engine transition of one cycle write disjoint elements, so the next state is well defined: the
configuration, PIX and BUS_ERR are as the bus effect alone leaves them, everything else as the engine alone leaves it. -/
def Obligations.BusAndEngineWriteDisjointElements : Prop :=
  ∀ (s : State) (shutdownCmd : Bool) (w : BusWrite),
    applyBusWrite (engine s shutdownCmd) w =
      { engine s shutdownCmd with
        width := (applyBusWrite s w).width, height := (applyBusWrite s w).height,
        maxLeds := (applyBusWrite s w).maxLeds, repeatCount := (applyBusWrite s w).repeatCount,
        colDelay := (applyBusWrite s w).colDelay, loopDelay := (applyBusWrite s w).loopDelay,
        blank := (applyBusWrite s w).blank, pix := (applyBusWrite s w).pix, busErr := (applyBusWrite s w).busErr }

/-! ### Commands -/

/-- R200: NOP is accepted in every state and in any cycle and has no effect: the cycle is the one without a transaction. In a
quiescent state with no abort taken, nothing but the port record changes. -/
def Obligations.NopHasNoEffect : Prop :=
  (∀ s : State, s.Inv → s.now.rst = false →
      ∃ t, exec .nop s = .next t ∧ step s.withoutBus = .next t ∧ t.out.bus = { rdata := 0, err := false }) ∧
    (∀ s : State, s.params.legal = true → s.state = .idle ∨ s.state = .done ∨ s.state = .error →
      abortTaken s false = false →
      exec .nop s = .next
        { s with
          inputs := s.inputs.tail, cycle := s.cycle + 1,
          out := { bus := { rdata := 0, err := false }, stream := { valid := false, data := 0, last := false } } })

/-- R140, R141: ENCODE accepted with a legal geometry latches it and starts the formatter at (0, 0); a geometry out of range
enters ERROR with BAD_CONFIG, an image taller than the strip with IMAGE_TOO_TALL. Nothing else changes. That RUN_AFTER_ENC keeps its
value on a failed check is the model's reading, log entry 14 (DEDUCED: R211 and the pseudocode, where R45's table says "at
acceptance"; unsafe for a claim about STATUS[15] after a failed ENCODE). -/
def Obligations.EncodeLatchesTheGeometryOrFails : Prop :=
  ∀ s : State, s.params.legal = true → s.state = .idle → abortTaken s false = false →
    (1 ≤ s.width.toNat → s.width.toNat ≤ s.params.pMaxWidth → 1 ≤ s.height.toNat → 1 ≤ s.maxLeds.toNat →
        s.maxLeds.toNat ≤ s.params.pMaxLeds → s.height.toNat ≤ s.maxLeds.toNat →
        exec .encode s = .next
          { s with
            encW := s.width, encH := s.height, encX := 0, encY := 0, encoded := false, runAfterEnc := false,
            state := .encoding, inputs := s.inputs.tail, cycle := s.cycle + 1,
            out := { bus := { rdata := 0, err := false }, stream := { valid := false, data := 0, last := false } } }) ∧
      (s.width.toNat = 0 ∨ s.params.pMaxWidth < s.width.toNat ∨ s.height.toNat = 0 ∨ s.maxLeds.toNat = 0 ∨
          s.params.pMaxLeds < s.maxLeds.toNat →
        exec .encode s = .next
          { s with
            state := .error, errCode := .badConfig, exitFlag := true, inputs := s.inputs.tail, cycle := s.cycle + 1,
            out := { bus := { rdata := 0, err := false }, stream := { valid := false, data := 0, last := false } } }) ∧
      (1 ≤ s.width.toNat → s.width.toNat ≤ s.params.pMaxWidth → 1 ≤ s.height.toNat → 1 ≤ s.maxLeds.toNat →
        s.maxLeds.toNat ≤ s.params.pMaxLeds → s.maxLeds.toNat < s.height.toNat →
        exec .encode s = .next
          { s with
            state := .error, errCode := .imageTooTall, exitFlag := true, inputs := s.inputs.tail, cycle := s.cycle + 1,
            out := { bus := { rdata := 0, err := false }, stream := { valid := false, data := 0, last := false } } })

/-- R160: RUN accepted goes to the first byte of column 0 with ITER, CUR_COL and TX_IDX 0; its checks fail in the order
DEVICE_UNAVAILABLE, BAD_CONFIG, IMAGE_TOO_TALL, each entering ERROR. Nothing else changes. -/
def Obligations.RunStartsOutputOrFails : Prop :=
  ∀ s : State, s.params.legal = true → s.state = .idle → s.encoded = true → abortTaken s false = false →
    (s.now.sinkAvail = true → 1 ≤ s.maxLeds.toNat → s.maxLeds.toNat ≤ s.params.pMaxLeds →
        s.encH.toNat ≤ s.maxLeds.toNat →
        exec .run s = .next
          { s with
            iter := 0, curCol := 0, txIdx := 0, state := .txCol, inputs := s.inputs.tail, cycle := s.cycle + 1,
            out := { bus := { rdata := 0, err := false }, stream := { valid := false, data := 0, last := false } } }) ∧
      (s.now.sinkAvail = false →
        exec .run s = .next
          { s with
            state := .error, errCode := .deviceUnavailable, exitFlag := true, inputs := s.inputs.tail,
            cycle := s.cycle + 1,
            out := { bus := { rdata := 0, err := false }, stream := { valid := false, data := 0, last := false } } }) ∧
      (s.now.sinkAvail = true → s.maxLeds.toNat = 0 ∨ s.params.pMaxLeds < s.maxLeds.toNat →
        exec .run s = .next
          { s with
            state := .error, errCode := .badConfig, exitFlag := true, inputs := s.inputs.tail, cycle := s.cycle + 1,
            out := { bus := { rdata := 0, err := false }, stream := { valid := false, data := 0, last := false } } }) ∧
      (s.now.sinkAvail = true → 1 ≤ s.maxLeds.toNat → s.maxLeds.toNat ≤ s.params.pMaxLeds →
        s.maxLeds.toNat < s.encH.toNat →
        exec .run s = .next
          { s with
            state := .error, errCode := .imageTooTall, exitFlag := true, inputs := s.inputs.tail, cycle := s.cycle + 1,
            out := { bus := { rdata := 0, err := false }, stream := { valid := false, data := 0, last := false } } })

/-- R161: START accepted with the sink present and a legal geometry starts the formatter, with output to follow and ITER, CUR_COL,
TX_IDX 0; its checks fail in the order DEVICE_UNAVAILABLE, BAD_CONFIG, IMAGE_TOO_TALL. Nothing else changes. That RUN_AFTER_ENC keeps its value on a failed check is the
model's reading, log entry 14 (DEDUCED: R211 and the pseudocode, where R45's table says "at acceptance"; unsafe for a claim about
STATUS[15] after a failed START). -/
def Obligations.StartStartsTheWholeRunOrFails : Prop :=
  ∀ s : State, s.params.legal = true → s.state = .idle → abortTaken s false = false →
    (s.now.sinkAvail = true → 1 ≤ s.width.toNat → s.width.toNat ≤ s.params.pMaxWidth → 1 ≤ s.height.toNat →
        1 ≤ s.maxLeds.toNat → s.maxLeds.toNat ≤ s.params.pMaxLeds → s.height.toNat ≤ s.maxLeds.toNat →
        exec .start s = .next
          { s with
            encW := s.width, encH := s.height, encX := 0, encY := 0, encoded := false, runAfterEnc := true,
            iter := 0, curCol := 0, txIdx := 0, state := .encoding, inputs := s.inputs.tail, cycle := s.cycle + 1,
            out := { bus := { rdata := 0, err := false }, stream := { valid := false, data := 0, last := false } } }) ∧
      (s.now.sinkAvail = false →
        exec .start s = .next
          { s with
            state := .error, errCode := .deviceUnavailable, exitFlag := true, inputs := s.inputs.tail,
            cycle := s.cycle + 1,
            out := { bus := { rdata := 0, err := false }, stream := { valid := false, data := 0, last := false } } }) ∧
      (s.now.sinkAvail = true →
        s.width.toNat = 0 ∨ s.params.pMaxWidth < s.width.toNat ∨ s.height.toNat = 0 ∨ s.maxLeds.toNat = 0 ∨
          s.params.pMaxLeds < s.maxLeds.toNat →
        exec .start s = .next
          { s with
            state := .error, errCode := .badConfig, exitFlag := true, inputs := s.inputs.tail, cycle := s.cycle + 1,
            out := { bus := { rdata := 0, err := false }, stream := { valid := false, data := 0, last := false } } }) ∧
      (s.now.sinkAvail = true → 1 ≤ s.width.toNat → s.width.toNat ≤ s.params.pMaxWidth → 1 ≤ s.height.toNat →
        1 ≤ s.maxLeds.toNat → s.maxLeds.toNat ≤ s.params.pMaxLeds → s.maxLeds.toNat < s.height.toNat →
        exec .start s = .next
          { s with
            state := .error, errCode := .imageTooTall, exitFlag := true, inputs := s.inputs.tail, cycle := s.cycle + 1,
            out := { bus := { rdata := 0, err := false }, stream := { valid := false, data := 0, last := false } } })

/-- R201, R216 to R221, R223: SHUTDOWN in IDLE, ENCODING, WAIT_COL or WAIT_LOOP with no abort pending goes to the off buffer, with
ABORT_PEND set and the cause recorded: HOST, or the cause of a line that is also high. Nothing else changes. -/
def Obligations.ShutdownGoesToTheOffBuffer : Prop :=
  ∀ s : State, s.params.legal = true →
    s.state = .idle ∨ s.state = .encoding ∨ s.state = .waitCol ∨ s.state = .waitLoop → s.abortPend = false →
    exec .shutdown s = .next
      { s with
        state := .txOff, txIdx := 0, abortPend := true,
        signal :=
          (if s.now.sigInt then .int else if s.now.sigTerm then .term else if s.now.sigHup then .hup
            else if s.now.sigSegv then .segv else .host),
        inputs := s.inputs.tail, cycle := s.cycle + 1,
        out := { bus := { rdata := 0, err := false }, stream := { valid := false, data := 0, last := false } } }

/-- R201, R222, R224: in every state SHUTDOWN is answered OKAY. Where no abort is taken (TX_OFF, DONE, ERROR, an abort already
pending, or a sink failure in TX_COL) it has no effect: the cycle is the one without a transaction. In TX_COL without a sink
failure or a pending abort it latches the abort, the cycle stays in the column or, at its last byte's handshake, goes to TX_OFF. -/
def Obligations.ShutdownElsewhere : Prop :=
  (∀ s : State, s.Inv → s.now.rst = false →
      s.state = .txOff ∨ s.state = .done ∨ s.state = .error ∨ s.abortPend = true ∨
        (s.state = .txCol ∧ s.now.sinkErr = true) →
      ∃ t, exec .shutdown s = .next t ∧ step s.withoutBus = .next t) ∧
    (∀ s : State, s.Inv → s.state = .txCol → s.abortPend = false → s.now.sinkErr = false →
      exec .shutdown s = .next
        { s with
          abortPend := true
          signal :=
            (if s.now.sigInt then .int else if s.now.sigTerm then .term else if s.now.sigHup then .hup
              else if s.now.sigSegv then .segv else .host)
          state := (if s.now.outReady = true ∧ s.txIdx.toNat = 3 * s.encH.toNat then .txOff else .txCol)
          txIdx := (if s.now.outReady = false then s.txIdx
            else if s.txIdx.toNat = 3 * s.encH.toNat then 0 else s.txIdx + 1)
          inputs := s.inputs.tail
          cycle := s.cycle + 1
          out := { bus := { rdata := 0, err := false }, stream := streamOut s } })

/-- R202: CLEAR accepted (in IDLE, DONE or ERROR with no abort taken) goes to IDLE and clears ERR_CODE, EXIT, SIGNAL, ABORT_PEND
and BUS_ERR; everything else is unchanged. -/
def Obligations.ClearLeavesTheTerminalState : Prop :=
  ∀ s : State, s.params.legal = true → s.state = .idle ∨ s.state = .done ∨ s.state = .error →
    abortTaken s false = false →
    exec .clear s = .next
      { s with
        state := .idle, errCode := .none, exitFlag := false, signal := .none, abortPend := false, busErr := false,
        inputs := s.inputs.tail, cycle := s.cycle + 1,
        out := { bus := { rdata := 0, err := false }, stream := { valid := false, data := 0, last := false } } }

/-- R204, R205: a command is answered OKAY exactly when its acceptance condition holds; otherwise it is rejected with ERR, and the
only effect beside the engine's own transition is `BUS_ERR' <- 1`. -/
def Obligations.CommandsAreAcceptedAsTheTableSays : Prop :=
  ∀ s : State, s.Inv → s.now.rst = false → ∀ i : Instr,
    let accepted : Prop :=
      match i with
      | .nop => True
      | .encode => s.state = .idle ∧ abortTaken s false = false
      | .run => s.state = .idle ∧ s.encoded = true ∧ abortTaken s false = false
      | .start => s.state = .idle ∧ abortTaken s false = false
      | .shutdown => True
      | .clear => (s.state = .idle ∨ s.state = .done ∨ s.state = .error) ∧ abortTaken s false = false
    (accepted → ∃ t, exec i s = .next t ∧ t.out.bus = { rdata := 0, err := false }) ∧
      (¬accepted → ∃ u, step s.withoutBus = .next u ∧ exec i s = .next u.withBusErr)

/-- R203: a CMD write of an illegal opcode is always rejected: ERR, `BUS_ERR' <- 1`, and nothing else changes. -/
def Obligations.IllegalOpcodesAreRejected : Prop :=
  ∀ (s : State) (w : Word), s.Inv → s.now.rst = false → 6 ≤ w.toNat % 16 →
    ∃ u, step s.withoutBus = .next u ∧ step (s.withWrite 0x10 w) = .next u.withBusErr

/-! ### Encoding -/

/-- R143: FORMAT_PIXEL gives GAMMA of blue, red, green in that order, every byte with bit 7 set. -/
def Obligations.FormatPixelIsBlueRedGreen : Prop :=
  (∀ r g b : Byte, formatPixel { r := r, g := g, b := b } = (gamma b, gamma r, gamma g)) ∧
    (∀ v : Byte, (gamma v).getLsbD 7 = true) ∧
    formatPixel { r := 255, g := 0, b := 0 } = (0x80, 0xFF, 0x80) ∧
    formatPixel { r := 128, g := 64, b := 32 } = (0x81, 0x97, 0x84)

/-- R142: the pixel step writes FORMAT_PIXEL of the pixel at the cursor to the three bytes of its row and moves the cursor down;
every other byte of CBM, and everything else, is unchanged. -/
def Obligations.PixelStepWritesTheFormattedPixel : Prop :=
  ∀ s : State, s.params.legal = true → s.state = .encoding → s.encY.toNat < s.encH.toNat →
    s.encX.toNat < s.params.pMaxWidth → s.encY.toNat < s.params.pMaxLeds →
    s.now.rst = false → s.now.busReq = false → abortTaken s false = false →
    ∃ t, step s = .next t ∧
      t = { s with
            cbm := t.cbm, encY := s.encY + 1, inputs := s.inputs.tail, cycle := s.cycle + 1,
            out := { bus := { rdata := 0, err := false }, stream := { valid := false, data := 0, last := false } } } ∧
      readColumn t s.encX.toNat (3 * s.encY.toNat) = gamma (readPixel s s.encX.toNat s.encY.toNat).b ∧
      readColumn t s.encX.toNat (3 * s.encY.toNat + 1) = gamma (readPixel s s.encX.toNat s.encY.toNat).r ∧
      readColumn t s.encX.toNat (3 * s.encY.toNat + 2) = gamma (readPixel s s.encX.toNat s.encY.toNat).g ∧
      ∀ a : Nat, a ≠ columnAddr s.params s.encX.toNat (3 * s.encY.toNat) →
        a ≠ columnAddr s.params s.encX.toNat (3 * s.encY.toNat + 1) →
        a ≠ columnAddr s.params s.encX.toNat (3 * s.encY.toNat + 2) → Memory.read t.cbm a = Memory.read s.cbm a

/-- R144, R145: the trailing step writes 0x00 behind the column, then goes to the next column, or completes the encoding: IDLE after
ENCODE, the first byte of column 0 after START. Every other byte of CBM, and everything else, is unchanged. -/
def Obligations.TrailingStepEndsTheColumn : Prop :=
  ∀ s : State, s.params.legal = true → s.state = .encoding → s.encY.toNat = s.encH.toNat →
    s.encX.toNat < s.params.pMaxWidth → s.encH.toNat ≤ s.params.pMaxLeds →
    s.now.rst = false → s.now.busReq = false → abortTaken s false = false →
    ∃ t, step s = .next t ∧ readColumn t s.encX.toNat (3 * s.encH.toNat) = 0 ∧
      (∀ a : Nat, a ≠ columnAddr s.params s.encX.toNat (3 * s.encH.toNat) → Memory.read t.cbm a = Memory.read s.cbm a) ∧
      (s.encX.toNat + 1 < s.encW.toNat →
        t = { s with
              cbm := t.cbm, encX := s.encX + 1, encY := 0, inputs := s.inputs.tail, cycle := s.cycle + 1,
              out := { bus := { rdata := 0, err := false }, stream := { valid := false, data := 0, last := false } } }) ∧
      (s.encW.toNat ≤ s.encX.toNat + 1 → s.runAfterEnc = false →
        t = { s with
              cbm := t.cbm, encoded := true, state := .idle, inputs := s.inputs.tail, cycle := s.cycle + 1,
              out := { bus := { rdata := 0, err := false }, stream := { valid := false, data := 0, last := false } } }) ∧
      (s.encW.toNat ≤ s.encX.toNat + 1 → s.runAfterEnc = true →
        t = { s with
              cbm := t.cbm, encoded := true, state := .txCol, curCol := 0, txIdx := 0, inputs := s.inputs.tail,
              cycle := s.cycle + 1,
              out := { bus := { rdata := 0, err := false }, stream := { valid := false, data := 0, last := false } } })

/-- R146, R147, R148: from the start of an encoding, undisturbed for W*(H+1) cycles: ENCODING lasts exactly those cycles and offers
no byte; then every column buffer holds FORMAT_PIXEL of its pixels and the framing byte 0x00, every other byte of CBM and all of
PIX is unchanged, ENCODED is 1, and the state is IDLE (ENCODE) or TX_COL (START). -/
def Obligations.EncodingBuildsEveryColumnBuffer : Prop :=
  ∀ s : State, s.Inv → s.state = .encoding → s.encX = 0 → s.encY = 0 →
    s.encW.toNat * (s.encH.toNat + 1) ≤ s.inputs.length →
    (∀ i ∈ s.inputs.take (s.encW.toNat * (s.encH.toNat + 1)), undisturbed s.params i = true) →
    ∃ t, after (s.encW.toNat * (s.encH.toNat + 1)) s = some t ∧
      received (s.encW.toNat * (s.encH.toNat + 1)) s = [] ∧
      (∀ n, n < s.encW.toNat * (s.encH.toNat + 1) → ∃ u, after n s = some u ∧ u.state = .encoding) ∧
      t.state = (if s.runAfterEnc then .txCol else .idle) ∧ t.encoded = true ∧ t.encW = s.encW ∧ t.encH = s.encH ∧
      t.pix = s.pix ∧
      (∀ x y, x < s.encW.toNat → y < s.encH.toNat →
        (readColumn t x (3 * y), readColumn t x (3 * y + 1), readColumn t x (3 * y + 2)) = formatPixel (readPixel s x y)) ∧
      (∀ x, x < s.encW.toNat → readColumn t x (3 * s.encH.toNat) = 0) ∧
      (∀ x k, x < s.params.pMaxWidth → k < s.params.colStride → s.encW.toNat ≤ x ∨ 3 * s.encH.toNat < k →
        readColumn t x k = readColumn s x k)

/-! ### Output -/

/-- R163, R222, R258: a TX_COL cycle before the column's last handshake. A sink failure enters ERROR, a handshake moves to the next
byte, and without a handshake the same byte stays offered; an abort taken from a line is latched with its cause and changes nothing
else of the cycle. -/
def Obligations.ColumnByteCycle : Prop :=
  ∀ s : State, s.params.legal = true → s.state = .txCol → s.curCol.toNat < s.params.pMaxWidth →
    s.txIdx.toNat < s.params.colStride → s.now.rst = false → s.now.busReq = false →
    (s.now.sinkErr = true →
        step s = .next
          { s with
            state := .error, errCode := .deviceWriteFailure, exitFlag := true, inputs := s.inputs.tail,
            cycle := s.cycle + 1, out := { bus := { rdata := 0, err := false }, stream := streamOut s } }) ∧
      (abortTaken s false = false → s.now.sinkErr = false → s.now.outReady = true → s.txIdx.toNat < 3 * s.encH.toNat →
        step s = .next
          { s with
            txIdx := s.txIdx + 1, inputs := s.inputs.tail, cycle := s.cycle + 1,
            out := { bus := { rdata := 0, err := false }, stream := streamOut s } }) ∧
      (abortTaken s false = false → s.now.sinkErr = false → s.now.outReady = false →
        step s = .next
          { s with
            inputs := s.inputs.tail, cycle := s.cycle + 1,
            out := { bus := { rdata := 0, err := false }, stream := streamOut s } }) ∧
      (s.abortPend = false → s.now.sinkErr = false →
        s.now.sigInt = true ∨ s.now.sigTerm = true ∨ s.now.sigHup = true ∨ s.now.sigSegv = true →
        s.now.outReady = false ∨ s.txIdx.toNat < 3 * s.encH.toNat →
        step s = .next
          { s with
            abortPend := true
            signal :=
              (if s.now.sigInt then .int else if s.now.sigTerm then .term else if s.now.sigHup then .hup else .segv)
            txIdx := (if s.now.outReady then s.txIdx + 1 else s.txIdx)
            inputs := s.inputs.tail
            cycle := s.cycle + 1
            out := { bus := { rdata := 0, err := false }, stream := streamOut s } })

/-- R164, R222: the handshake of a column's last byte: with an abort pending or taken the off buffer follows without the column
delay; else the delay of COLDELAY ticks, or the next column at once when COLDELAY is 0 and there is one. (With COLDELAY 0 and no
next column the iteration ends: `Obligations.EndOfIterationCycle`.) -/
def Obligations.ColumnEndCycle : Prop :=
  ∀ s : State, s.Inv → s.state = .txCol → s.txIdx.toNat = 3 * s.encH.toNat → s.now.rst = false → s.now.busReq = false →
    s.now.sinkErr = false → s.now.outReady = true →
    (s.abortPend = true →
        step s = .next
          { s with
            txIdx := 0, state := .txOff, inputs := s.inputs.tail, cycle := s.cycle + 1,
            out := { bus := { rdata := 0, err := false }, stream := streamOut s } }) ∧
      (abortTaken s false = true →
        step s = .next
          { s with
            txIdx := 0, state := .txOff, abortPend := true, signal := abortCause s.now false, inputs := s.inputs.tail,
            cycle := s.cycle + 1, out := { bus := { rdata := 0, err := false }, stream := streamOut s } }) ∧
      (s.abortPend = false → abortTaken s false = false → 0 < s.colDelay.toNat →
        ∃ t, step s = .next t ∧ t.waitLeft.toNat = s.colDelay.toNat * s.params.pTickCycles ∧
          t = { s with
                txIdx := 0, state := .waitCol, waitLeft := t.waitLeft, inputs := s.inputs.tail, cycle := s.cycle + 1,
                out := { bus := { rdata := 0, err := false }, stream := streamOut s } }) ∧
      (s.abortPend = false → abortTaken s false = false → s.colDelay.toNat = 0 →
        s.curCol.toNat + 1 < s.encW.toNat →
        step s = .next
          { s with
            txIdx := 0, curCol := s.curCol + 1, inputs := s.inputs.tail, cycle := s.cycle + 1,
            out := { bus := { rdata := 0, err := false }, stream := streamOut s } })

/-- R165, R166: a WAIT_COL cycle without an abort counts down; its last cycle offers the next column, if there is one, next. -/
def Obligations.ColumnDelayCycle : Prop :=
  ∀ s : State, s.params.legal = true → s.state = .waitCol → s.now.rst = false → s.now.busReq = false →
    abortTaken s false = false →
    (1 < s.waitLeft.toNat →
        step s = .next
          { s with
            waitLeft := s.waitLeft - 1, inputs := s.inputs.tail, cycle := s.cycle + 1,
            out := { bus := { rdata := 0, err := false }, stream := { valid := false, data := 0, last := false } } }) ∧
      (s.waitLeft.toNat = 1 → s.curCol.toNat + 1 < s.encW.toNat →
        step s = .next
          { s with
            waitLeft := 0, curCol := s.curCol + 1, txIdx := 0, state := .txCol, inputs := s.inputs.tail,
            cycle := s.cycle + 1,
            out := { bus := { rdata := 0, err := false }, stream := { valid := false, data := 0, last := false } } })

/-- R164, R166, R167: the end of an iteration, in the last cycle of the last column's delay, or at the last handshake of the last
column when COLDELAY is 0: ITER counts modulo 2^32; after REPEAT iterations the off buffer follows; else the loop delay if BLANK is
set and LOOPDELAY is not 0; else column 0. -/
def Obligations.EndOfIterationCycle : Prop :=
  (∀ s : State, s.params.legal = true → s.state = .waitCol → s.now.rst = false → s.now.busReq = false →
      abortTaken s false = false → s.waitLeft.toNat = 1 → s.encW.toNat ≤ s.curCol.toNat + 1 →
      (s.repeatCount.toNat ≠ 0 → s.iter.toNat + 1 = s.repeatCount.toNat →
          step s = .next
            { s with
              iter := s.iter + 1, waitLeft := 0, state := .txOff, txIdx := 0, inputs := s.inputs.tail,
              cycle := s.cycle + 1,
              out := { bus := { rdata := 0, err := false }, stream := { valid := false, data := 0, last := false } } }) ∧
        (s.repeatCount.toNat = 0 ∨ s.iter.toNat + 1 ≠ s.repeatCount.toNat → s.blank = true → 0 < s.loopDelay.toNat →
          ∃ t, step s = .next t ∧ t.waitLeft.toNat = s.loopDelay.toNat * s.params.pTickCycles ∧
            t = { s with
                  iter := s.iter + 1, state := .waitLoop, waitLeft := t.waitLeft, inputs := s.inputs.tail,
                  cycle := s.cycle + 1,
                  out := { bus := { rdata := 0, err := false },
                           stream := { valid := false, data := 0, last := false } } }) ∧
        (s.repeatCount.toNat = 0 ∨ s.iter.toNat + 1 ≠ s.repeatCount.toNat → s.blank = false ∨ s.loopDelay.toNat = 0 →
          step s = .next
            { s with
              iter := s.iter + 1, waitLeft := 0, state := .txCol, curCol := 0, txIdx := 0, inputs := s.inputs.tail,
              cycle := s.cycle + 1,
              out := { bus := { rdata := 0, err := false }, stream := { valid := false, data := 0, last := false } } })) ∧
    (∀ s : State, s.Inv → s.state = .txCol → s.txIdx.toNat = 3 * s.encH.toNat → s.now.rst = false → s.now.busReq = false →
      s.now.sinkErr = false → s.now.outReady = true → s.abortPend = false → abortTaken s false = false →
      s.colDelay.toNat = 0 → s.encW.toNat ≤ s.curCol.toNat + 1 →
      (s.repeatCount.toNat ≠ 0 → s.iter.toNat + 1 = s.repeatCount.toNat →
          step s = .next
            { s with
              iter := s.iter + 1, state := .txOff, txIdx := 0, inputs := s.inputs.tail, cycle := s.cycle + 1,
              out := { bus := { rdata := 0, err := false }, stream := streamOut s } }) ∧
        (s.repeatCount.toNat = 0 ∨ s.iter.toNat + 1 ≠ s.repeatCount.toNat → s.blank = true → 0 < s.loopDelay.toNat →
          ∃ t, step s = .next t ∧ t.waitLeft.toNat = s.loopDelay.toNat * s.params.pTickCycles ∧
            t = { s with
                  iter := s.iter + 1, state := .waitLoop, waitLeft := t.waitLeft, txIdx := 0, inputs := s.inputs.tail,
                  cycle := s.cycle + 1, out := { bus := { rdata := 0, err := false }, stream := streamOut s } }) ∧
        (s.repeatCount.toNat = 0 ∨ s.iter.toNat + 1 ≠ s.repeatCount.toNat → s.blank = false ∨ s.loopDelay.toNat = 0 →
          step s = .next
            { s with
              iter := s.iter + 1, curCol := 0, txIdx := 0, inputs := s.inputs.tail, cycle := s.cycle + 1,
              out := { bus := { rdata := 0, err := false }, stream := streamOut s } }))

/-- R168: a WAIT_LOOP cycle without an abort counts down; its last cycle offers column 0 next. -/
def Obligations.LoopDelayCycle : Prop :=
  ∀ s : State, s.params.legal = true → s.state = .waitLoop → s.now.rst = false → s.now.busReq = false →
    abortTaken s false = false →
    (1 < s.waitLeft.toNat →
        step s = .next
          { s with
            waitLeft := s.waitLeft - 1, inputs := s.inputs.tail, cycle := s.cycle + 1,
            out := { bus := { rdata := 0, err := false }, stream := { valid := false, data := 0, last := false } } }) ∧
      (s.waitLeft.toNat = 1 →
        step s = .next
          { s with
            waitLeft := 0, curCol := 0, txIdx := 0, state := .txCol, inputs := s.inputs.tail, cycle := s.cycle + 1,
            out := { bus := { rdata := 0, err := false }, stream := { valid := false, data := 0, last := false } } })

/-- R169: a TX_OFF cycle: a sink failure enters ERROR; a handshake moves to the next byte, or at the last byte ends the run in DONE
with EXIT and ABORT_PEND 0; without a handshake nothing changes. Abort lines have no effect (R224). -/
def Obligations.OffByteCycle : Prop :=
  ∀ s : State, s.params.legal = true → s.state = .txOff → s.now.rst = false → s.now.busReq = false →
    (s.now.sinkErr = true →
        step s = .next
          { s with
            state := .error, errCode := .deviceWriteFailure, exitFlag := true, inputs := s.inputs.tail,
            cycle := s.cycle + 1, out := { bus := { rdata := 0, err := false }, stream := streamOut s } }) ∧
      (s.now.sinkErr = false → s.now.outReady = true → s.txIdx.toNat < 3 * s.maxLeds.toNat + 2 →
        step s = .next
          { s with
            txIdx := s.txIdx + 1, inputs := s.inputs.tail, cycle := s.cycle + 1,
            out := { bus := { rdata := 0, err := false }, stream := streamOut s } }) ∧
      (s.now.sinkErr = false → s.now.outReady = true → 3 * s.maxLeds.toNat + 2 ≤ s.txIdx.toNat →
        step s = .next
          { s with
            txIdx := 0, exitFlag := false, abortPend := false, state := .done, inputs := s.inputs.tail,
            cycle := s.cycle + 1, out := { bus := { rdata := 0, err := false }, stream := streamOut s } }) ∧
      (s.now.sinkErr = false → s.now.outReady = false →
        step s = .next
          { s with
            inputs := s.inputs.tail, cycle := s.cycle + 1,
            out := { bus := { rdata := 0, err := false }, stream := streamOut s } })

/-- R169, R170: with a sink that takes every byte, TX_OFF sends exactly 3*MAX_LEDS + 3 bytes of 0x80, the last one marked, then DONE
with EXIT 0 and no pending abort, whatever abort lines and bus transactions come meanwhile. -/
def Obligations.OffBufferIsSentWhole : Prop :=
  ∀ s : State, s.Inv → s.state = .txOff → s.txIdx = 0 → 3 * s.maxLeds.toNat + 3 ≤ s.inputs.length →
    (∀ i ∈ s.inputs.take (3 * s.maxLeds.toNat + 3), i.rst = false ∧ sinkReady i = true) →
    received (3 * s.maxLeds.toNat + 3) s = offStream s.maxLeds.toNat ∧
      ∃ t, after (3 * s.maxLeds.toNat + 3) s = some t ∧ t.state = .done ∧ t.exitFlag = false ∧ t.abortPend = false ∧
        t.iter = s.iter ∧ t.curCol = s.curCol ∧ t.signal = s.signal ∧ t.cbm = s.cbm ∧ SameConfig s t ∧ SameEncoding s t

/-- R177: while a byte is offered and no handshake occurs, the offer keeps its values; the exceptions are a sink failure, which enters
ERROR and offers nothing, and reset. -/
def Obligations.OfferIsStable : Prop :=
  ∀ s t : State, (streamOut s).valid = true → handshake s = false → step s = .next t →
    (s.now.rst = false → s.now.sinkErr = false → streamOut t = streamOut s) ∧
      (s.now.rst = false → s.now.sinkErr = true → t.state = .error ∧ (streamOut t).valid = false) ∧
      (s.now.rst = true → (streamOut t).valid = false)

/-- R172, R174, R175: a bounded run with REPEAT = N, from its first byte, undisturbed and with a sink that takes every byte: the sink
receives N times the column buffers in ascending x, then one off buffer, and nothing else, in exactly the cycles of the law of
R174; then DONE with EXIT 0 and ITER = N. -/
def Obligations.BoundedRunSendsEveryIterationThenOneOffBuffer : Prop :=
  ∀ s : State, s.Inv → s.state = .txCol → s.curCol = 0 → s.txIdx = 0 → s.iter = 0 → s.abortPend = false →
    1 ≤ s.repeatCount.toNat → boundedRunCycles s s.repeatCount.toNat ≤ s.inputs.length →
    (∀ i ∈ s.inputs.take (boundedRunCycles s s.repeatCount.toNat), undisturbed s.params i = true ∧ sinkReady i = true) →
    received (boundedRunCycles s s.repeatCount.toNat) s =
        (List.replicate s.repeatCount.toNat (columnsFrom s 0)).flatten ++ offStream s.maxLeds.toNat ∧
      (∀ n, n < boundedRunCycles s s.repeatCount.toNat → ∃ u, after n s = some u ∧ u.state ≠ .done) ∧
      ∃ t, after (boundedRunCycles s s.repeatCount.toNat) s = some t ∧ t.state = .done ∧ t.exitFlag = false ∧
        t.iter = s.repeatCount

/-- R173: with REPEAT = 0 no cycle leads to TX_OFF except an abort, taken in it or pending. -/
def Obligations.InfiniteModeEndsOnlyByAbort : Prop :=
  ∀ s t : State, s.repeatCount = 0 → s.state ≠ .txOff → step s = .next t → t.state = .txOff →
    s.abortPend = true ∨ (t.abortPend = true ∧ t.signal ≠ .none)

/-- R176, R25, R24: outside ENCODING no cycle writes CBM; PIX changes only by a pixel write of the host outside ENCODING. -/
def Obligations.MemoriesAreWrittenOnlyWhereAllowed : Prop :=
  ∀ s t : State, step s = .next t →
    (s.state ≠ .encoding → t.cbm = s.cbm) ∧
      (t.pix ≠ s.pix →
        s.state ≠ .encoding ∧ s.now.rst = false ∧
          ∃ x y v, presented s.params s.now = .access (.write (.pixel x y) v) ∧ t.pix = (writePixel s x y (pixelOfWord v)).pix)

/-- R90, R257: outside ENCODING, what PIX holds reaches no stream output and no state element but PIX: with other contents of PIX
and any bus cycle that does not touch the pixel window, the next states differ in PIX alone. -/
def Obligations.PixelsDoNotReachTheStream : Prop :=
  ∀ (s t : State) (m : Memory), s.state ≠ .encoding →
    (∀ x y, presented s.params s.now ≠ .access (.read (.pixel x y))) →
    (∀ x y v, presented s.params s.now ≠ .access (.write (.pixel x y) v)) → step s = .next t →
    step { s with pix := m } = .next { t with pix := m } ∧ streamOut { s with pix := m } = streamOut s

/-- R179: in every state but TX_COL and TX_OFF, `sink_err` has no effect. -/
def Obligations.SinkErrActsOnlyInOutputStates : Prop :=
  ∀ (s : State) (e : Bool), s.state ≠ .txCol → s.state ≠ .txOff →
    step (s.withInput { s.now with sinkErr := e }) = step s

/-- R178: `sink_avail` has no effect but in a cycle in which RUN or START is accepted. -/
def Obligations.SinkAvailIsSampledOnlyByRunAndStart : Prop :=
  ∀ (s : State) (e : Bool),
    (∀ w, presented s.params s.now = .command w → decode w = .ok .run → acceptsRun s = false) →
    (∀ w, presented s.params s.now = .command w → decode w = .ok .start → acceptsStart s = false) →
    step (s.withInput { s.now with sinkAvail := e }) = step s

/-! ### Aborts and errors -/

/-- R216 to R221, R223, R225: an abort from the lines in IDLE, ENCODING, WAIT_COL or WAIT_LOOP goes to the off buffer, records the
cause of the highest priority, and keeps everything else. -/
def Obligations.AbortGoesToTheOffBuffer : Prop :=
  ∀ s : State, s.params.legal = true →
    s.state = .idle ∨ s.state = .encoding ∨ s.state = .waitCol ∨ s.state = .waitLoop → s.abortPend = false →
    s.now.rst = false → s.now.busReq = false →
    s.now.sigInt = true ∨ s.now.sigTerm = true ∨ s.now.sigHup = true ∨ s.now.sigSegv = true →
    step s = .next
      { s with
        state := .txOff, txIdx := 0, abortPend := true,
        signal :=
          (if s.now.sigInt then .int else if s.now.sigTerm then .term else if s.now.sigHup then .hup else .segv),
        inputs := s.inputs.tail, cycle := s.cycle + 1,
        out := { bus := { rdata := 0, err := false }, stream := { valid := false, data := 0, last := false } } }

/-- R163, R164, R222, R225, R169, R170: an abort in TX_COL, taken in this cycle from a line or from SHUTDOWN, or pending, waits for the
column: a sink that takes every byte receives the rest of the column, then one off buffer, and nothing else; then DONE with EXIT 0 and
the cause recorded, whatever abort lines and bus transactions come meanwhile. -/
def Obligations.AbortInAColumnFinishesItThenSendsOneOffBuffer : Prop :=
  ∀ s : State, s.Inv → s.state = .txCol →
    s.abortPend = true ∨ abortTaken s (presentsShutdown s.params s.now) = true →
    3 * s.encH.toNat + 1 - s.txIdx.toNat + (3 * s.maxLeds.toNat + 3) ≤ s.inputs.length →
    (∀ i ∈ s.inputs.take (3 * s.encH.toNat + 1 - s.txIdx.toNat + (3 * s.maxLeds.toNat + 3)),
      i.rst = false ∧ sinkReady i = true) →
    received (3 * s.encH.toNat + 1 - s.txIdx.toNat + (3 * s.maxLeds.toNat + 3)) s =
        (columnStream s s.curCol.toNat).drop s.txIdx.toNat ++ offStream s.maxLeds.toNat ∧
      ∃ t, after (3 * s.encH.toNat + 1 - s.txIdx.toNat + (3 * s.maxLeds.toNat + 3)) s = some t ∧ t.state = .done ∧
        t.exitFlag = false ∧ t.abortPend = false ∧ t.iter = s.iter ∧ t.curCol = s.curCol ∧
        t.signal = (if s.abortPend then s.signal else abortCause s.now (presentsShutdown s.params s.now))

/-- R224: in TX_OFF, DONE and ERROR, and while an abort is pending, the abort lines have no effect at all. -/
def Obligations.AbortRequestsAreIgnoredWhereNoneIsTaken : Prop :=
  ∀ (s : State) (int term hup segv : Bool),
    s.state = .txOff ∨ s.state = .done ∨ s.state = .error ∨ s.abortPend = true →
    step (s.withInput { s.now with sigInt := int, sigTerm := term, sigHup := hup, sigSegv := segv }) = step s

/-- R215: `sink_err` in TX_COL or TX_OFF enters ERROR with DEVICE_WRITE_FAILURE whatever else the cycle brings: no byte passes,
TX_IDX keeps its value, no abort is taken, and the block then stays in ERROR until CLEAR or reset. -/
def Obligations.SinkFailureEntersError : Prop :=
  (∀ s : State, s.Inv → s.state = .txCol ∨ s.state = .txOff → s.now.rst = false → s.now.sinkErr = true →
      handshake s = false ∧
        ∃ t, step s = .next t ∧ t.state = .error ∧ t.errCode = .deviceWriteFailure ∧ t.exitFlag = true ∧
          t.txIdx = s.txIdx ∧ t.abortPend = s.abortPend ∧ t.signal = s.signal ∧ t.cbm = s.cbm ∧ SameEncoding s t ∧
          SamePosition s t) ∧
    (∀ s t : State, s.state = .error → s.now.rst = false → step s = .next t → t.state ≠ .error →
      ∃ w, presented s.params s.now = .command w ∧ decode w = .ok .clear)

/-- R226: DONE and ERROR are left only by CLEAR and reset; until then nothing but the configuration, PIX, BUS_ERR and the port
record changes, and no byte is offered. -/
def Obligations.TerminalStatesAreLeftOnlyByClearOrReset : Prop :=
  ∀ s t : State, s.state = .done ∨ s.state = .error → step s = .next t →
    s.now.rst = true ∨
      (∃ w, presented s.params s.now = .command w ∧ decode w = .ok .clear ∧ t.state = .idle) ∨
      (t.state = s.state ∧ SameEncoding s t ∧ SameRecord s t ∧ SamePosition s t ∧ t.txIdx = s.txIdx ∧ t.cbm = s.cbm ∧
        t.out.stream.valid = false)

/-- R227: DONE is reached only by the handshake of the off buffer's last byte, and then EXIT is 0. -/
def Obligations.DoneIsReachedOnlyThroughTheOffBuffer : Prop :=
  ∀ s t : State, s.state ≠ .done → step s = .next t → t.state = .done →
    s.state = .txOff ∧ handshake s = true ∧ 3 * s.maxLeds.toNat + 2 ≤ s.txIdx.toNat ∧ t.exitFlag = false ∧
      t.abortPend = false

/-- R45: in a cycle without reset each flag of STATUS changes only by the events of the rule's table, an abort that is taken sets
ABORT_PEND and SIGNAL, and an ERR response sets BUS_ERR. The last clause, that RUN_AFTER_ENC changes only where START or ENCODE passes
its checks, is the model's reading, log entry 14 (DEDUCED: R211 and the pseudocode, where R45's table says "at acceptance"; unsafe
for a claim about STATUS[15] after a failed START or ENCODE). -/
def Obligations.StatusFlagsChangeOnlyByTheirEvents : Prop :=
  ∀ s t : State, s.now.rst = false → step s = .next t →
    let clear : Prop := ∃ w, presented s.params s.now = .command w ∧ decode w = .ok .clear ∧ acceptsClear s = true
    let abort : Prop := abortTaken s (presentsShutdown s.params s.now) = true
    (s.encoded = false → t.encoded = true →
        s.state = .encoding ∧ s.encY = s.encH ∧ s.encW.toNat ≤ s.encX.toNat + 1 ∧ (t.state = .idle ∨ t.state = .txCol)) ∧
      (s.encoded = true → t.encoded = false →
        t.state = .encoding ∧ checkGeometry s = .none ∧
          ∃ w, presented s.params s.now = .command w ∧
            (decode w = .ok .encode ∧ acceptsEncode s = true ∨ decode w = .ok .start ∧ acceptsStart s = true)) ∧
      (abort → s.state.abortable = true ∧ s.abortPend = false ∧ t.abortPend = true ∧
        t.signal = abortCause s.now (presentsShutdown s.params s.now) ∧ t.signal ≠ .none) ∧
      (s.abortPend = false → t.abortPend = true → abort) ∧
      (s.abortPend = true → t.abortPend = false → (s.state = .txOff ∧ t.state = .done) ∨ clear) ∧
      (t.signal ≠ s.signal → abort ∨ clear) ∧
      (t.out.bus.err = true → t.busErr = true) ∧
      (s.busErr = false → t.busErr = true → t.out.bus.err = true) ∧
      (s.busErr = true → t.busErr = false → clear) ∧
      (s.exitFlag = false → t.exitFlag = true → s.state ≠ .error ∧ t.state = .error) ∧
      (s.exitFlag = true → t.exitFlag = false → (s.state = .txOff ∧ t.state = .done) ∨ clear) ∧
      (t.errCode ≠ s.errCode → (s.state ≠ .error ∧ t.state = .error) ∨ clear) ∧
      (t.runAfterEnc ≠ s.runAfterEnc →
        t.state = .encoding ∧
          ∃ w, presented s.params s.now = .command w ∧
            (decode w = .ok .encode ∧ acceptsEncode s = true ∧ t.runAfterEnc = false ∨
              decode w = .ok .start ∧ acceptsStart s = true ∧ t.runAfterEnc = true))
end

