-- ==== Sys2Proof/Laws/State.lean ====
section
/-! SUPPORT. One lemma per field per update of State, each true by rfl, so that no later proof unfolds a record update. -/

namespace Sys2Proof.Machine

/-! ### the end of a cycle -/

@[simp] theorem tick_params (s : State) (o : PortOut) : (s.tick o).params = s.params := rfl
@[simp] theorem tick_state (s : State) (o : PortOut) : (s.tick o).state = s.state := rfl
@[simp] theorem tick_encoded (s : State) (o : PortOut) : (s.tick o).encoded = s.encoded := rfl
@[simp] theorem tick_abortPend (s : State) (o : PortOut) : (s.tick o).abortPend = s.abortPend := rfl
@[simp] theorem tick_busErr (s : State) (o : PortOut) : (s.tick o).busErr = s.busErr := rfl
@[simp] theorem tick_exitFlag (s : State) (o : PortOut) : (s.tick o).exitFlag = s.exitFlag := rfl
@[simp] theorem tick_errCode (s : State) (o : PortOut) : (s.tick o).errCode = s.errCode := rfl
@[simp] theorem tick_signal (s : State) (o : PortOut) : (s.tick o).signal = s.signal := rfl
@[simp] theorem tick_runAfterEnc (s : State) (o : PortOut) : (s.tick o).runAfterEnc = s.runAfterEnc := rfl
@[simp] theorem tick_iter (s : State) (o : PortOut) : (s.tick o).iter = s.iter := rfl
@[simp] theorem tick_curCol (s : State) (o : PortOut) : (s.tick o).curCol = s.curCol := rfl
@[simp] theorem tick_txIdx (s : State) (o : PortOut) : (s.tick o).txIdx = s.txIdx := rfl
@[simp] theorem tick_encW (s : State) (o : PortOut) : (s.tick o).encW = s.encW := rfl
@[simp] theorem tick_encH (s : State) (o : PortOut) : (s.tick o).encH = s.encH := rfl
@[simp] theorem tick_encX (s : State) (o : PortOut) : (s.tick o).encX = s.encX := rfl
@[simp] theorem tick_encY (s : State) (o : PortOut) : (s.tick o).encY = s.encY := rfl
@[simp] theorem tick_waitLeft (s : State) (o : PortOut) : (s.tick o).waitLeft = s.waitLeft := rfl
@[simp] theorem tick_width (s : State) (o : PortOut) : (s.tick o).width = s.width := rfl
@[simp] theorem tick_height (s : State) (o : PortOut) : (s.tick o).height = s.height := rfl
@[simp] theorem tick_maxLeds (s : State) (o : PortOut) : (s.tick o).maxLeds = s.maxLeds := rfl
@[simp] theorem tick_repeatCount (s : State) (o : PortOut) : (s.tick o).repeatCount = s.repeatCount := rfl
@[simp] theorem tick_colDelay (s : State) (o : PortOut) : (s.tick o).colDelay = s.colDelay := rfl
@[simp] theorem tick_loopDelay (s : State) (o : PortOut) : (s.tick o).loopDelay = s.loopDelay := rfl
@[simp] theorem tick_blank (s : State) (o : PortOut) : (s.tick o).blank = s.blank := rfl
@[simp] theorem tick_pix (s : State) (o : PortOut) : (s.tick o).pix = s.pix := rfl
@[simp] theorem tick_cbm (s : State) (o : PortOut) : (s.tick o).cbm = s.cbm := rfl
@[simp] theorem tick_inputs (s : State) (o : PortOut) : (s.tick o).inputs = s.inputs.tail := rfl
@[simp] theorem tick_cycle (s : State) (o : PortOut) : (s.tick o).cycle = s.cycle + 1 := rfl
@[simp] theorem tick_out (s : State) (o : PortOut) : (s.tick o).out = o := rfl

/-! ### `enter_error` (R211) -/

@[simp] theorem enterError_params (s : State) (c : ErrCode) : (enterError s c).params = s.params := rfl
@[simp] theorem enterError_state (s : State) (c : ErrCode) : (enterError s c).state = .error := rfl
@[simp] theorem enterError_encoded (s : State) (c : ErrCode) : (enterError s c).encoded = s.encoded := rfl
@[simp] theorem enterError_abortPend (s : State) (c : ErrCode) : (enterError s c).abortPend = s.abortPend := rfl
@[simp] theorem enterError_busErr (s : State) (c : ErrCode) : (enterError s c).busErr = s.busErr := rfl
@[simp] theorem enterError_exitFlag (s : State) (c : ErrCode) : (enterError s c).exitFlag = true := rfl
@[simp] theorem enterError_errCode (s : State) (c : ErrCode) : (enterError s c).errCode = c := rfl
@[simp] theorem enterError_signal (s : State) (c : ErrCode) : (enterError s c).signal = s.signal := rfl
@[simp] theorem enterError_runAfterEnc (s : State) (c : ErrCode) : (enterError s c).runAfterEnc = s.runAfterEnc := rfl
@[simp] theorem enterError_iter (s : State) (c : ErrCode) : (enterError s c).iter = s.iter := rfl
@[simp] theorem enterError_curCol (s : State) (c : ErrCode) : (enterError s c).curCol = s.curCol := rfl
@[simp] theorem enterError_txIdx (s : State) (c : ErrCode) : (enterError s c).txIdx = s.txIdx := rfl
@[simp] theorem enterError_encW (s : State) (c : ErrCode) : (enterError s c).encW = s.encW := rfl
@[simp] theorem enterError_encH (s : State) (c : ErrCode) : (enterError s c).encH = s.encH := rfl
@[simp] theorem enterError_encX (s : State) (c : ErrCode) : (enterError s c).encX = s.encX := rfl
@[simp] theorem enterError_encY (s : State) (c : ErrCode) : (enterError s c).encY = s.encY := rfl
@[simp] theorem enterError_waitLeft (s : State) (c : ErrCode) : (enterError s c).waitLeft = s.waitLeft := rfl
@[simp] theorem enterError_width (s : State) (c : ErrCode) : (enterError s c).width = s.width := rfl
@[simp] theorem enterError_height (s : State) (c : ErrCode) : (enterError s c).height = s.height := rfl
@[simp] theorem enterError_maxLeds (s : State) (c : ErrCode) : (enterError s c).maxLeds = s.maxLeds := rfl
@[simp] theorem enterError_repeatCount (s : State) (c : ErrCode) : (enterError s c).repeatCount = s.repeatCount := rfl
@[simp] theorem enterError_colDelay (s : State) (c : ErrCode) : (enterError s c).colDelay = s.colDelay := rfl
@[simp] theorem enterError_loopDelay (s : State) (c : ErrCode) : (enterError s c).loopDelay = s.loopDelay := rfl
@[simp] theorem enterError_blank (s : State) (c : ErrCode) : (enterError s c).blank = s.blank := rfl
@[simp] theorem enterError_pix (s : State) (c : ErrCode) : (enterError s c).pix = s.pix := rfl
@[simp] theorem enterError_cbm (s : State) (c : ErrCode) : (enterError s c).cbm = s.cbm := rfl
@[simp] theorem enterError_inputs (s : State) (c : ErrCode) : (enterError s c).inputs = s.inputs := rfl
@[simp] theorem enterError_cycle (s : State) (c : ErrCode) : (enterError s c).cycle = s.cycle := rfl
@[simp] theorem enterError_out (s : State) (c : ErrCode) : (enterError s c).out = s.out := rfl
@[simp] theorem enterError_now (s : State) (c : ErrCode) : (enterError s c).now = s.now := rfl

/-! ### an abort taken (R219) -/

@[simp] theorem latchAbort_params (s : State) (c : AbortCause) : (latchAbort s c).params = s.params := rfl
@[simp] theorem latchAbort_state (s : State) (c : AbortCause) : (latchAbort s c).state = s.state := rfl
@[simp] theorem latchAbort_encoded (s : State) (c : AbortCause) : (latchAbort s c).encoded = s.encoded := rfl
@[simp] theorem latchAbort_abortPend (s : State) (c : AbortCause) : (latchAbort s c).abortPend = true := rfl
@[simp] theorem latchAbort_busErr (s : State) (c : AbortCause) : (latchAbort s c).busErr = s.busErr := rfl
@[simp] theorem latchAbort_exitFlag (s : State) (c : AbortCause) : (latchAbort s c).exitFlag = s.exitFlag := rfl
@[simp] theorem latchAbort_errCode (s : State) (c : AbortCause) : (latchAbort s c).errCode = s.errCode := rfl
@[simp] theorem latchAbort_signal (s : State) (c : AbortCause) : (latchAbort s c).signal = c := rfl
@[simp] theorem latchAbort_runAfterEnc (s : State) (c : AbortCause) : (latchAbort s c).runAfterEnc = s.runAfterEnc := rfl
@[simp] theorem latchAbort_iter (s : State) (c : AbortCause) : (latchAbort s c).iter = s.iter := rfl
@[simp] theorem latchAbort_curCol (s : State) (c : AbortCause) : (latchAbort s c).curCol = s.curCol := rfl
@[simp] theorem latchAbort_txIdx (s : State) (c : AbortCause) : (latchAbort s c).txIdx = s.txIdx := rfl
@[simp] theorem latchAbort_encW (s : State) (c : AbortCause) : (latchAbort s c).encW = s.encW := rfl
@[simp] theorem latchAbort_encH (s : State) (c : AbortCause) : (latchAbort s c).encH = s.encH := rfl
@[simp] theorem latchAbort_encX (s : State) (c : AbortCause) : (latchAbort s c).encX = s.encX := rfl
@[simp] theorem latchAbort_encY (s : State) (c : AbortCause) : (latchAbort s c).encY = s.encY := rfl
@[simp] theorem latchAbort_waitLeft (s : State) (c : AbortCause) : (latchAbort s c).waitLeft = s.waitLeft := rfl
@[simp] theorem latchAbort_width (s : State) (c : AbortCause) : (latchAbort s c).width = s.width := rfl
@[simp] theorem latchAbort_height (s : State) (c : AbortCause) : (latchAbort s c).height = s.height := rfl
@[simp] theorem latchAbort_maxLeds (s : State) (c : AbortCause) : (latchAbort s c).maxLeds = s.maxLeds := rfl
@[simp] theorem latchAbort_repeatCount (s : State) (c : AbortCause) : (latchAbort s c).repeatCount = s.repeatCount := rfl
@[simp] theorem latchAbort_colDelay (s : State) (c : AbortCause) : (latchAbort s c).colDelay = s.colDelay := rfl
@[simp] theorem latchAbort_loopDelay (s : State) (c : AbortCause) : (latchAbort s c).loopDelay = s.loopDelay := rfl
@[simp] theorem latchAbort_blank (s : State) (c : AbortCause) : (latchAbort s c).blank = s.blank := rfl
@[simp] theorem latchAbort_pix (s : State) (c : AbortCause) : (latchAbort s c).pix = s.pix := rfl
@[simp] theorem latchAbort_cbm (s : State) (c : AbortCause) : (latchAbort s c).cbm = s.cbm := rfl
@[simp] theorem latchAbort_inputs (s : State) (c : AbortCause) : (latchAbort s c).inputs = s.inputs := rfl
@[simp] theorem latchAbort_cycle (s : State) (c : AbortCause) : (latchAbort s c).cycle = s.cycle := rfl
@[simp] theorem latchAbort_out (s : State) (c : AbortCause) : (latchAbort s c).out = s.out := rfl
@[simp] theorem latchAbort_now (s : State) (c : AbortCause) : (latchAbort s c).now = s.now := rfl

/-! ### to the off buffer (R167, R220) -/

@[simp] theorem toOffBuffer_params (s : State) : (toOffBuffer s).params = s.params := rfl
@[simp] theorem toOffBuffer_state (s : State) : (toOffBuffer s).state = .txOff := rfl
@[simp] theorem toOffBuffer_encoded (s : State) : (toOffBuffer s).encoded = s.encoded := rfl
@[simp] theorem toOffBuffer_abortPend (s : State) : (toOffBuffer s).abortPend = s.abortPend := rfl
@[simp] theorem toOffBuffer_busErr (s : State) : (toOffBuffer s).busErr = s.busErr := rfl
@[simp] theorem toOffBuffer_exitFlag (s : State) : (toOffBuffer s).exitFlag = s.exitFlag := rfl
@[simp] theorem toOffBuffer_errCode (s : State) : (toOffBuffer s).errCode = s.errCode := rfl
@[simp] theorem toOffBuffer_signal (s : State) : (toOffBuffer s).signal = s.signal := rfl
@[simp] theorem toOffBuffer_runAfterEnc (s : State) : (toOffBuffer s).runAfterEnc = s.runAfterEnc := rfl
@[simp] theorem toOffBuffer_iter (s : State) : (toOffBuffer s).iter = s.iter := rfl
@[simp] theorem toOffBuffer_curCol (s : State) : (toOffBuffer s).curCol = s.curCol := rfl
@[simp] theorem toOffBuffer_txIdx (s : State) : (toOffBuffer s).txIdx = 0 := rfl
@[simp] theorem toOffBuffer_encW (s : State) : (toOffBuffer s).encW = s.encW := rfl
@[simp] theorem toOffBuffer_encH (s : State) : (toOffBuffer s).encH = s.encH := rfl
@[simp] theorem toOffBuffer_encX (s : State) : (toOffBuffer s).encX = s.encX := rfl
@[simp] theorem toOffBuffer_encY (s : State) : (toOffBuffer s).encY = s.encY := rfl
@[simp] theorem toOffBuffer_waitLeft (s : State) : (toOffBuffer s).waitLeft = s.waitLeft := rfl
@[simp] theorem toOffBuffer_width (s : State) : (toOffBuffer s).width = s.width := rfl
@[simp] theorem toOffBuffer_height (s : State) : (toOffBuffer s).height = s.height := rfl
@[simp] theorem toOffBuffer_maxLeds (s : State) : (toOffBuffer s).maxLeds = s.maxLeds := rfl
@[simp] theorem toOffBuffer_repeatCount (s : State) : (toOffBuffer s).repeatCount = s.repeatCount := rfl
@[simp] theorem toOffBuffer_colDelay (s : State) : (toOffBuffer s).colDelay = s.colDelay := rfl
@[simp] theorem toOffBuffer_loopDelay (s : State) : (toOffBuffer s).loopDelay = s.loopDelay := rfl
@[simp] theorem toOffBuffer_blank (s : State) : (toOffBuffer s).blank = s.blank := rfl
@[simp] theorem toOffBuffer_pix (s : State) : (toOffBuffer s).pix = s.pix := rfl
@[simp] theorem toOffBuffer_cbm (s : State) : (toOffBuffer s).cbm = s.cbm := rfl
@[simp] theorem toOffBuffer_inputs (s : State) : (toOffBuffer s).inputs = s.inputs := rfl
@[simp] theorem toOffBuffer_cycle (s : State) : (toOffBuffer s).cycle = s.cycle := rfl
@[simp] theorem toOffBuffer_out (s : State) : (toOffBuffer s).out = s.out := rfl
@[simp] theorem toOffBuffer_now (s : State) : (toOffBuffer s).now = s.now := rfl

/-! ### CLEAR (R202) -/

@[simp] theorem clearTerminal_params (s : State) : (clearTerminal s).params = s.params := rfl
@[simp] theorem clearTerminal_state (s : State) : (clearTerminal s).state = .idle := rfl
@[simp] theorem clearTerminal_encoded (s : State) : (clearTerminal s).encoded = s.encoded := rfl
@[simp] theorem clearTerminal_abortPend (s : State) : (clearTerminal s).abortPend = false := rfl
@[simp] theorem clearTerminal_busErr (s : State) : (clearTerminal s).busErr = false := rfl
@[simp] theorem clearTerminal_exitFlag (s : State) : (clearTerminal s).exitFlag = false := rfl
@[simp] theorem clearTerminal_errCode (s : State) : (clearTerminal s).errCode = .none := rfl
@[simp] theorem clearTerminal_signal (s : State) : (clearTerminal s).signal = .none := rfl
@[simp] theorem clearTerminal_runAfterEnc (s : State) : (clearTerminal s).runAfterEnc = s.runAfterEnc := rfl
@[simp] theorem clearTerminal_iter (s : State) : (clearTerminal s).iter = s.iter := rfl
@[simp] theorem clearTerminal_curCol (s : State) : (clearTerminal s).curCol = s.curCol := rfl
@[simp] theorem clearTerminal_txIdx (s : State) : (clearTerminal s).txIdx = s.txIdx := rfl
@[simp] theorem clearTerminal_encW (s : State) : (clearTerminal s).encW = s.encW := rfl
@[simp] theorem clearTerminal_encH (s : State) : (clearTerminal s).encH = s.encH := rfl
@[simp] theorem clearTerminal_encX (s : State) : (clearTerminal s).encX = s.encX := rfl
@[simp] theorem clearTerminal_encY (s : State) : (clearTerminal s).encY = s.encY := rfl
@[simp] theorem clearTerminal_waitLeft (s : State) : (clearTerminal s).waitLeft = s.waitLeft := rfl
@[simp] theorem clearTerminal_width (s : State) : (clearTerminal s).width = s.width := rfl
@[simp] theorem clearTerminal_height (s : State) : (clearTerminal s).height = s.height := rfl
@[simp] theorem clearTerminal_maxLeds (s : State) : (clearTerminal s).maxLeds = s.maxLeds := rfl
@[simp] theorem clearTerminal_repeatCount (s : State) : (clearTerminal s).repeatCount = s.repeatCount := rfl
@[simp] theorem clearTerminal_colDelay (s : State) : (clearTerminal s).colDelay = s.colDelay := rfl
@[simp] theorem clearTerminal_loopDelay (s : State) : (clearTerminal s).loopDelay = s.loopDelay := rfl
@[simp] theorem clearTerminal_blank (s : State) : (clearTerminal s).blank = s.blank := rfl
@[simp] theorem clearTerminal_pix (s : State) : (clearTerminal s).pix = s.pix := rfl
@[simp] theorem clearTerminal_cbm (s : State) : (clearTerminal s).cbm = s.cbm := rfl
@[simp] theorem clearTerminal_inputs (s : State) : (clearTerminal s).inputs = s.inputs := rfl
@[simp] theorem clearTerminal_cycle (s : State) : (clearTerminal s).cycle = s.cycle := rfl
@[simp] theorem clearTerminal_out (s : State) : (clearTerminal s).out = s.out := rfl
@[simp] theorem clearTerminal_now (s : State) : (clearTerminal s).now = s.now := rfl

/-! ### a pixel write (R80) -/

@[simp] theorem writePixel_params (s : State) (x y : Nat) (p : Pixel) : (writePixel s x y p).params = s.params := rfl
@[simp] theorem writePixel_state (s : State) (x y : Nat) (p : Pixel) : (writePixel s x y p).state = s.state := rfl
@[simp] theorem writePixel_encoded (s : State) (x y : Nat) (p : Pixel) : (writePixel s x y p).encoded = s.encoded := rfl
@[simp] theorem writePixel_abortPend (s : State) (x y : Nat) (p : Pixel) : (writePixel s x y p).abortPend = s.abortPend := rfl
@[simp] theorem writePixel_busErr (s : State) (x y : Nat) (p : Pixel) : (writePixel s x y p).busErr = s.busErr := rfl
@[simp] theorem writePixel_exitFlag (s : State) (x y : Nat) (p : Pixel) : (writePixel s x y p).exitFlag = s.exitFlag := rfl
@[simp] theorem writePixel_errCode (s : State) (x y : Nat) (p : Pixel) : (writePixel s x y p).errCode = s.errCode := rfl
@[simp] theorem writePixel_signal (s : State) (x y : Nat) (p : Pixel) : (writePixel s x y p).signal = s.signal := rfl
@[simp] theorem writePixel_runAfterEnc (s : State) (x y : Nat) (p : Pixel) : (writePixel s x y p).runAfterEnc = s.runAfterEnc := rfl
@[simp] theorem writePixel_iter (s : State) (x y : Nat) (p : Pixel) : (writePixel s x y p).iter = s.iter := rfl
@[simp] theorem writePixel_curCol (s : State) (x y : Nat) (p : Pixel) : (writePixel s x y p).curCol = s.curCol := rfl
@[simp] theorem writePixel_txIdx (s : State) (x y : Nat) (p : Pixel) : (writePixel s x y p).txIdx = s.txIdx := rfl
@[simp] theorem writePixel_encW (s : State) (x y : Nat) (p : Pixel) : (writePixel s x y p).encW = s.encW := rfl
@[simp] theorem writePixel_encH (s : State) (x y : Nat) (p : Pixel) : (writePixel s x y p).encH = s.encH := rfl
@[simp] theorem writePixel_encX (s : State) (x y : Nat) (p : Pixel) : (writePixel s x y p).encX = s.encX := rfl
@[simp] theorem writePixel_encY (s : State) (x y : Nat) (p : Pixel) : (writePixel s x y p).encY = s.encY := rfl
@[simp] theorem writePixel_waitLeft (s : State) (x y : Nat) (p : Pixel) : (writePixel s x y p).waitLeft = s.waitLeft := rfl
@[simp] theorem writePixel_width (s : State) (x y : Nat) (p : Pixel) : (writePixel s x y p).width = s.width := rfl
@[simp] theorem writePixel_height (s : State) (x y : Nat) (p : Pixel) : (writePixel s x y p).height = s.height := rfl
@[simp] theorem writePixel_maxLeds (s : State) (x y : Nat) (p : Pixel) : (writePixel s x y p).maxLeds = s.maxLeds := rfl
@[simp] theorem writePixel_repeatCount (s : State) (x y : Nat) (p : Pixel) : (writePixel s x y p).repeatCount = s.repeatCount := rfl
@[simp] theorem writePixel_colDelay (s : State) (x y : Nat) (p : Pixel) : (writePixel s x y p).colDelay = s.colDelay := rfl
@[simp] theorem writePixel_loopDelay (s : State) (x y : Nat) (p : Pixel) : (writePixel s x y p).loopDelay = s.loopDelay := rfl
@[simp] theorem writePixel_blank (s : State) (x y : Nat) (p : Pixel) : (writePixel s x y p).blank = s.blank := rfl
@[simp] theorem writePixel_cbm (s : State) (x y : Nat) (p : Pixel) : (writePixel s x y p).cbm = s.cbm := rfl
@[simp] theorem writePixel_inputs (s : State) (x y : Nat) (p : Pixel) : (writePixel s x y p).inputs = s.inputs := rfl
@[simp] theorem writePixel_cycle (s : State) (x y : Nat) (p : Pixel) : (writePixel s x y p).cycle = s.cycle := rfl
@[simp] theorem writePixel_out (s : State) (x y : Nat) (p : Pixel) : (writePixel s x y p).out = s.out := rfl
@[simp] theorem writePixel_now (s : State) (x y : Nat) (p : Pixel) : (writePixel s x y p).now = s.now := rfl

/-! ### a formatter write (R142, R144) -/

@[simp] theorem writeColumn_params (s : State) (x k : Nat) (b : Byte) : (writeColumn s x k b).params = s.params := rfl
@[simp] theorem writeColumn_state (s : State) (x k : Nat) (b : Byte) : (writeColumn s x k b).state = s.state := rfl
@[simp] theorem writeColumn_encoded (s : State) (x k : Nat) (b : Byte) : (writeColumn s x k b).encoded = s.encoded := rfl
@[simp] theorem writeColumn_abortPend (s : State) (x k : Nat) (b : Byte) : (writeColumn s x k b).abortPend = s.abortPend := rfl
@[simp] theorem writeColumn_busErr (s : State) (x k : Nat) (b : Byte) : (writeColumn s x k b).busErr = s.busErr := rfl
@[simp] theorem writeColumn_exitFlag (s : State) (x k : Nat) (b : Byte) : (writeColumn s x k b).exitFlag = s.exitFlag := rfl
@[simp] theorem writeColumn_errCode (s : State) (x k : Nat) (b : Byte) : (writeColumn s x k b).errCode = s.errCode := rfl
@[simp] theorem writeColumn_signal (s : State) (x k : Nat) (b : Byte) : (writeColumn s x k b).signal = s.signal := rfl
@[simp] theorem writeColumn_runAfterEnc (s : State) (x k : Nat) (b : Byte) : (writeColumn s x k b).runAfterEnc = s.runAfterEnc := rfl
@[simp] theorem writeColumn_iter (s : State) (x k : Nat) (b : Byte) : (writeColumn s x k b).iter = s.iter := rfl
@[simp] theorem writeColumn_curCol (s : State) (x k : Nat) (b : Byte) : (writeColumn s x k b).curCol = s.curCol := rfl
@[simp] theorem writeColumn_txIdx (s : State) (x k : Nat) (b : Byte) : (writeColumn s x k b).txIdx = s.txIdx := rfl
@[simp] theorem writeColumn_encW (s : State) (x k : Nat) (b : Byte) : (writeColumn s x k b).encW = s.encW := rfl
@[simp] theorem writeColumn_encH (s : State) (x k : Nat) (b : Byte) : (writeColumn s x k b).encH = s.encH := rfl
@[simp] theorem writeColumn_encX (s : State) (x k : Nat) (b : Byte) : (writeColumn s x k b).encX = s.encX := rfl
@[simp] theorem writeColumn_encY (s : State) (x k : Nat) (b : Byte) : (writeColumn s x k b).encY = s.encY := rfl
@[simp] theorem writeColumn_waitLeft (s : State) (x k : Nat) (b : Byte) : (writeColumn s x k b).waitLeft = s.waitLeft := rfl
@[simp] theorem writeColumn_width (s : State) (x k : Nat) (b : Byte) : (writeColumn s x k b).width = s.width := rfl
@[simp] theorem writeColumn_height (s : State) (x k : Nat) (b : Byte) : (writeColumn s x k b).height = s.height := rfl
@[simp] theorem writeColumn_maxLeds (s : State) (x k : Nat) (b : Byte) : (writeColumn s x k b).maxLeds = s.maxLeds := rfl
@[simp] theorem writeColumn_repeatCount (s : State) (x k : Nat) (b : Byte) : (writeColumn s x k b).repeatCount = s.repeatCount := rfl
@[simp] theorem writeColumn_colDelay (s : State) (x k : Nat) (b : Byte) : (writeColumn s x k b).colDelay = s.colDelay := rfl
@[simp] theorem writeColumn_loopDelay (s : State) (x k : Nat) (b : Byte) : (writeColumn s x k b).loopDelay = s.loopDelay := rfl
@[simp] theorem writeColumn_blank (s : State) (x k : Nat) (b : Byte) : (writeColumn s x k b).blank = s.blank := rfl
@[simp] theorem writeColumn_pix (s : State) (x k : Nat) (b : Byte) : (writeColumn s x k b).pix = s.pix := rfl
@[simp] theorem writeColumn_cbm (s : State) (x k : Nat) (b : Byte) : (writeColumn s x k b).cbm = Memory.write s.cbm (columnAddr s.params x k) b := rfl
@[simp] theorem writeColumn_inputs (s : State) (x k : Nat) (b : Byte) : (writeColumn s x k b).inputs = s.inputs := rfl
@[simp] theorem writeColumn_cycle (s : State) (x k : Nat) (b : Byte) : (writeColumn s x k b).cycle = s.cycle := rfl
@[simp] theorem writeColumn_out (s : State) (x k : Nat) (b : Byte) : (writeColumn s x k b).out = s.out := rfl
@[simp] theorem writeColumn_now (s : State) (x k : Nat) (b : Byte) : (writeColumn s x k b).now = s.now := rfl

/-! ### the start of an encoding (R140, R161) -/

@[simp] theorem beginEncoding_params (s : State) (r : Bool) : (beginEncoding s r).params = s.params := rfl
@[simp] theorem beginEncoding_state (s : State) (r : Bool) : (beginEncoding s r).state = .encoding := rfl
@[simp] theorem beginEncoding_encoded (s : State) (r : Bool) : (beginEncoding s r).encoded = false := rfl
@[simp] theorem beginEncoding_abortPend (s : State) (r : Bool) : (beginEncoding s r).abortPend = s.abortPend := rfl
@[simp] theorem beginEncoding_busErr (s : State) (r : Bool) : (beginEncoding s r).busErr = s.busErr := rfl
@[simp] theorem beginEncoding_exitFlag (s : State) (r : Bool) : (beginEncoding s r).exitFlag = s.exitFlag := rfl
@[simp] theorem beginEncoding_errCode (s : State) (r : Bool) : (beginEncoding s r).errCode = s.errCode := rfl
@[simp] theorem beginEncoding_signal (s : State) (r : Bool) : (beginEncoding s r).signal = s.signal := rfl
@[simp] theorem beginEncoding_runAfterEnc (s : State) (r : Bool) : (beginEncoding s r).runAfterEnc = r := rfl
@[simp] theorem beginEncoding_iter (s : State) (r : Bool) : (beginEncoding s r).iter = s.iter := rfl
@[simp] theorem beginEncoding_curCol (s : State) (r : Bool) : (beginEncoding s r).curCol = s.curCol := rfl
@[simp] theorem beginEncoding_txIdx (s : State) (r : Bool) : (beginEncoding s r).txIdx = s.txIdx := rfl
@[simp] theorem beginEncoding_encW (s : State) (r : Bool) : (beginEncoding s r).encW = s.width := rfl
@[simp] theorem beginEncoding_encH (s : State) (r : Bool) : (beginEncoding s r).encH = s.height := rfl
@[simp] theorem beginEncoding_encX (s : State) (r : Bool) : (beginEncoding s r).encX = 0 := rfl
@[simp] theorem beginEncoding_encY (s : State) (r : Bool) : (beginEncoding s r).encY = 0 := rfl
@[simp] theorem beginEncoding_waitLeft (s : State) (r : Bool) : (beginEncoding s r).waitLeft = s.waitLeft := rfl
@[simp] theorem beginEncoding_width (s : State) (r : Bool) : (beginEncoding s r).width = s.width := rfl
@[simp] theorem beginEncoding_height (s : State) (r : Bool) : (beginEncoding s r).height = s.height := rfl
@[simp] theorem beginEncoding_maxLeds (s : State) (r : Bool) : (beginEncoding s r).maxLeds = s.maxLeds := rfl
@[simp] theorem beginEncoding_repeatCount (s : State) (r : Bool) : (beginEncoding s r).repeatCount = s.repeatCount := rfl
@[simp] theorem beginEncoding_colDelay (s : State) (r : Bool) : (beginEncoding s r).colDelay = s.colDelay := rfl
@[simp] theorem beginEncoding_loopDelay (s : State) (r : Bool) : (beginEncoding s r).loopDelay = s.loopDelay := rfl
@[simp] theorem beginEncoding_blank (s : State) (r : Bool) : (beginEncoding s r).blank = s.blank := rfl
@[simp] theorem beginEncoding_pix (s : State) (r : Bool) : (beginEncoding s r).pix = s.pix := rfl
@[simp] theorem beginEncoding_cbm (s : State) (r : Bool) : (beginEncoding s r).cbm = s.cbm := rfl
@[simp] theorem beginEncoding_inputs (s : State) (r : Bool) : (beginEncoding s r).inputs = s.inputs := rfl
@[simp] theorem beginEncoding_cycle (s : State) (r : Bool) : (beginEncoding s r).cycle = s.cycle := rfl
@[simp] theorem beginEncoding_out (s : State) (r : Bool) : (beginEncoding s r).out = s.out := rfl
@[simp] theorem beginEncoding_now (s : State) (r : Bool) : (beginEncoding s r).now = s.now := rfl

/-! ### the start of a run (R160, R161) -/

@[simp] theorem startOutput_params (s : State) : (startOutput s).params = s.params := rfl
@[simp] theorem startOutput_state (s : State) : (startOutput s).state = s.state := rfl
@[simp] theorem startOutput_encoded (s : State) : (startOutput s).encoded = s.encoded := rfl
@[simp] theorem startOutput_abortPend (s : State) : (startOutput s).abortPend = s.abortPend := rfl
@[simp] theorem startOutput_busErr (s : State) : (startOutput s).busErr = s.busErr := rfl
@[simp] theorem startOutput_exitFlag (s : State) : (startOutput s).exitFlag = s.exitFlag := rfl
@[simp] theorem startOutput_errCode (s : State) : (startOutput s).errCode = s.errCode := rfl
@[simp] theorem startOutput_signal (s : State) : (startOutput s).signal = s.signal := rfl
@[simp] theorem startOutput_runAfterEnc (s : State) : (startOutput s).runAfterEnc = s.runAfterEnc := rfl
@[simp] theorem startOutput_iter (s : State) : (startOutput s).iter = 0 := rfl
@[simp] theorem startOutput_curCol (s : State) : (startOutput s).curCol = 0 := rfl
@[simp] theorem startOutput_txIdx (s : State) : (startOutput s).txIdx = 0 := rfl
@[simp] theorem startOutput_encW (s : State) : (startOutput s).encW = s.encW := rfl
@[simp] theorem startOutput_encH (s : State) : (startOutput s).encH = s.encH := rfl
@[simp] theorem startOutput_encX (s : State) : (startOutput s).encX = s.encX := rfl
@[simp] theorem startOutput_encY (s : State) : (startOutput s).encY = s.encY := rfl
@[simp] theorem startOutput_waitLeft (s : State) : (startOutput s).waitLeft = s.waitLeft := rfl
@[simp] theorem startOutput_width (s : State) : (startOutput s).width = s.width := rfl
@[simp] theorem startOutput_height (s : State) : (startOutput s).height = s.height := rfl
@[simp] theorem startOutput_maxLeds (s : State) : (startOutput s).maxLeds = s.maxLeds := rfl
@[simp] theorem startOutput_repeatCount (s : State) : (startOutput s).repeatCount = s.repeatCount := rfl
@[simp] theorem startOutput_colDelay (s : State) : (startOutput s).colDelay = s.colDelay := rfl
@[simp] theorem startOutput_loopDelay (s : State) : (startOutput s).loopDelay = s.loopDelay := rfl
@[simp] theorem startOutput_blank (s : State) : (startOutput s).blank = s.blank := rfl
@[simp] theorem startOutput_pix (s : State) : (startOutput s).pix = s.pix := rfl
@[simp] theorem startOutput_cbm (s : State) : (startOutput s).cbm = s.cbm := rfl
@[simp] theorem startOutput_inputs (s : State) : (startOutput s).inputs = s.inputs := rfl
@[simp] theorem startOutput_cycle (s : State) : (startOutput s).cycle = s.cycle := rfl
@[simp] theorem startOutput_out (s : State) : (startOutput s).out = s.out := rfl
@[simp] theorem startOutput_now (s : State) : (startOutput s).now = s.now := rfl

/-! ### to column 0 (R167, R168) -/

@[simp] theorem toFirstColumn_params (s : State) : (toFirstColumn s).params = s.params := rfl
@[simp] theorem toFirstColumn_state (s : State) : (toFirstColumn s).state = .txCol := rfl
@[simp] theorem toFirstColumn_encoded (s : State) : (toFirstColumn s).encoded = s.encoded := rfl
@[simp] theorem toFirstColumn_abortPend (s : State) : (toFirstColumn s).abortPend = s.abortPend := rfl
@[simp] theorem toFirstColumn_busErr (s : State) : (toFirstColumn s).busErr = s.busErr := rfl
@[simp] theorem toFirstColumn_exitFlag (s : State) : (toFirstColumn s).exitFlag = s.exitFlag := rfl
@[simp] theorem toFirstColumn_errCode (s : State) : (toFirstColumn s).errCode = s.errCode := rfl
@[simp] theorem toFirstColumn_signal (s : State) : (toFirstColumn s).signal = s.signal := rfl
@[simp] theorem toFirstColumn_runAfterEnc (s : State) : (toFirstColumn s).runAfterEnc = s.runAfterEnc := rfl
@[simp] theorem toFirstColumn_iter (s : State) : (toFirstColumn s).iter = s.iter := rfl
@[simp] theorem toFirstColumn_curCol (s : State) : (toFirstColumn s).curCol = 0 := rfl
@[simp] theorem toFirstColumn_txIdx (s : State) : (toFirstColumn s).txIdx = 0 := rfl
@[simp] theorem toFirstColumn_encW (s : State) : (toFirstColumn s).encW = s.encW := rfl
@[simp] theorem toFirstColumn_encH (s : State) : (toFirstColumn s).encH = s.encH := rfl
@[simp] theorem toFirstColumn_encX (s : State) : (toFirstColumn s).encX = s.encX := rfl
@[simp] theorem toFirstColumn_encY (s : State) : (toFirstColumn s).encY = s.encY := rfl
@[simp] theorem toFirstColumn_waitLeft (s : State) : (toFirstColumn s).waitLeft = s.waitLeft := rfl
@[simp] theorem toFirstColumn_width (s : State) : (toFirstColumn s).width = s.width := rfl
@[simp] theorem toFirstColumn_height (s : State) : (toFirstColumn s).height = s.height := rfl
@[simp] theorem toFirstColumn_maxLeds (s : State) : (toFirstColumn s).maxLeds = s.maxLeds := rfl
@[simp] theorem toFirstColumn_repeatCount (s : State) : (toFirstColumn s).repeatCount = s.repeatCount := rfl
@[simp] theorem toFirstColumn_colDelay (s : State) : (toFirstColumn s).colDelay = s.colDelay := rfl
@[simp] theorem toFirstColumn_loopDelay (s : State) : (toFirstColumn s).loopDelay = s.loopDelay := rfl
@[simp] theorem toFirstColumn_blank (s : State) : (toFirstColumn s).blank = s.blank := rfl
@[simp] theorem toFirstColumn_pix (s : State) : (toFirstColumn s).pix = s.pix := rfl
@[simp] theorem toFirstColumn_cbm (s : State) : (toFirstColumn s).cbm = s.cbm := rfl
@[simp] theorem toFirstColumn_inputs (s : State) : (toFirstColumn s).inputs = s.inputs := rfl
@[simp] theorem toFirstColumn_cycle (s : State) : (toFirstColumn s).cycle = s.cycle := rfl
@[simp] theorem toFirstColumn_out (s : State) : (toFirstColumn s).out = s.out := rfl
@[simp] theorem toFirstColumn_now (s : State) : (toFirstColumn s).now = s.now := rfl

/-! ### reset (R49, R250) -/

@[simp] theorem resetState_params (s : State) : (resetState s).params = s.params := rfl
@[simp] theorem resetState_state (s : State) : (resetState s).state = .idle := rfl
@[simp] theorem resetState_encoded (s : State) : (resetState s).encoded = false := rfl
@[simp] theorem resetState_abortPend (s : State) : (resetState s).abortPend = false := rfl
@[simp] theorem resetState_busErr (s : State) : (resetState s).busErr = false := rfl
@[simp] theorem resetState_exitFlag (s : State) : (resetState s).exitFlag = false := rfl
@[simp] theorem resetState_errCode (s : State) : (resetState s).errCode = .none := rfl
@[simp] theorem resetState_signal (s : State) : (resetState s).signal = .none := rfl
@[simp] theorem resetState_runAfterEnc (s : State) : (resetState s).runAfterEnc = false := rfl
@[simp] theorem resetState_iter (s : State) : (resetState s).iter = 0 := rfl
@[simp] theorem resetState_curCol (s : State) : (resetState s).curCol = 0 := rfl
@[simp] theorem resetState_txIdx (s : State) : (resetState s).txIdx = 0 := rfl
@[simp] theorem resetState_encW (s : State) : (resetState s).encW = 0 := rfl
@[simp] theorem resetState_encH (s : State) : (resetState s).encH = 0 := rfl
@[simp] theorem resetState_encX (s : State) : (resetState s).encX = 0 := rfl
@[simp] theorem resetState_encY (s : State) : (resetState s).encY = 0 := rfl
@[simp] theorem resetState_waitLeft (s : State) : (resetState s).waitLeft = 0 := rfl
@[simp] theorem resetState_width (s : State) : (resetState s).width = 0 := rfl
@[simp] theorem resetState_height (s : State) : (resetState s).height = 0 := rfl
@[simp] theorem resetState_maxLeds (s : State) : (resetState s).maxLeds = 0 := rfl
@[simp] theorem resetState_repeatCount (s : State) : (resetState s).repeatCount = 0 := rfl
@[simp] theorem resetState_colDelay (s : State) : (resetState s).colDelay = 0 := rfl
@[simp] theorem resetState_loopDelay (s : State) : (resetState s).loopDelay = 0 := rfl
@[simp] theorem resetState_blank (s : State) : (resetState s).blank = false := rfl
@[simp] theorem resetState_pix (s : State) : (resetState s).pix = s.pix := rfl
@[simp] theorem resetState_cbm (s : State) : (resetState s).cbm = s.cbm := rfl
@[simp] theorem resetState_inputs (s : State) : (resetState s).inputs = s.inputs := rfl
@[simp] theorem resetState_cycle (s : State) : (resetState s).cycle = s.cycle := rfl
@[simp] theorem resetState_now (s : State) : (resetState s).now = s.now := rfl

end Sys2Proof.Machine
end

