-- ==== Sys2Proof/Laws/Memory.lean ====
section
/-! SUPPORT. The laws of a memory in canonical form: read after write, what a write lists, that every write keeps the form, and
that the form makes equal memories equal data. -/

namespace Sys2Proof.Machine

/-! ### Read after write -/

theorem cell_write_same (m : Memory) (a : Nat) (b : Byte) : Memory.cell? (Memory.write m a b) a = some b := by
  induction m with
  | nil => simp [Memory.write, Memory.cell?]
  | cons c m ih =>
    obtain ⟨k, v⟩ := c
    by_cases h1 : a < k
    · simp [Memory.write, Memory.cell?, h1]
    · by_cases h2 : a = k
      · simp [Memory.write, Memory.cell?, h2]
      · have h3 : k ≠ a := fun h => h2 h.symm
        simp [Memory.write, Memory.cell?, h1, h2, h3, ih]

theorem cell_write_other (m : Memory) {a a' : Nat} (b : Byte) (h : a' ≠ a) :
    Memory.cell? (Memory.write m a b) a' = Memory.cell? m a' := by
  have hne : a ≠ a' := fun e => h e.symm
  induction m with
  | nil => simp [Memory.write, Memory.cell?, hne]
  | cons c m ih =>
    obtain ⟨k, v⟩ := c
    by_cases h1 : a < k
    · simp [Memory.write, Memory.cell?, h1, hne]
    · by_cases h2 : a = k
      · subst h2
        simp [Memory.write, Memory.cell?, hne]
      · simp only [Memory.write, h1, h2, if_false, Memory.cell?, ih]

@[simp] theorem read_write_same (m : Memory) (a : Nat) (b : Byte) : Memory.read (Memory.write m a b) a = b := by
  simp [Memory.read, cell_write_same]

theorem read_write_other (m : Memory) {a a' : Nat} (b : Byte) (h : a' ≠ a) :
    Memory.read (Memory.write m a b) a' = Memory.read m a' := by
  simp [Memory.read, cell_write_other m b h]

/-! ### What a write lists, and the canonical form -/

/-- A write lists the written byte and otherwise only what was listed before. -/
theorem mem_of_mem_write {m : Memory} {a : Nat} {b : Byte} {c : Host.Cell} (h : c ∈ Memory.write m a b) :
    c = (a, b) ∨ c ∈ m := by
  induction m with
  | nil => simpa [Memory.write] using h
  | cons d m ih =>
    obtain ⟨k, v⟩ := d
    simp only [Memory.write] at h
    split at h
    · simpa using h
    · split at h
      · rcases List.mem_cons.mp h with h | h
        · exact .inl h
        · exact .inr (List.mem_cons_of_mem _ h)
      · rcases List.mem_cons.mp h with h | h
        · exact .inr (by simp [h])
        · exact (ih h).imp_right (List.mem_cons_of_mem _)

/-- Every write keeps the canonical form. -/
theorem write_wf {m : Memory} (a : Nat) (b : Byte) (h : Memory.wf m) : Memory.wf (Memory.write m a b) := by
  induction m with
  | nil => simp [Memory.write]
  | cons d m ih =>
    obtain ⟨k, v⟩ := d
    obtain ⟨hk, hm⟩ := List.pairwise_cons.mp h
    simp only [Memory.write]
    split
    · next h1 =>
      refine List.pairwise_cons.mpr ⟨fun c hc => ?_, h⟩
      rcases List.mem_cons.mp hc with rfl | hc
      · exact h1
      · exact Nat.lt_trans h1 (hk c hc)
    · next h1 =>
      split
      · next h2 =>
        subst h2
        exact List.pairwise_cons.mpr ⟨hk, hm⟩
      · next h2 =>
        refine List.pairwise_cons.mpr ⟨fun c hc => ?_, ih hm⟩
        rcases mem_of_mem_write hc with rfl | hc
        · simpa using Nat.lt_of_le_of_ne (Nat.le_of_not_lt h1) (fun e => h2 e.symm)
        · exact hk c hc

/-- A writePixel keeps PIX in canonical form. -/
theorem writePixel_wf {s : State} (x y : Nat) (p : Pixel) (h : Memory.wf s.pix) : Memory.wf (writePixel s x y p).pix :=
  write_wf _ _ (write_wf _ _ (write_wf _ _ h))

/-- A writeColumn keeps CBM in canonical form. -/
theorem writeColumn_wf {s : State} (x k : Nat) (b : Byte) (h : Memory.wf s.cbm) : Memory.wf (writeColumn s x k b).cbm :=
  write_wf _ _ h

/-- Nothing is listed below the first address of a memory in canonical form. -/
theorem cell_none_of_lt {m : Memory} {a : Nat} (h : ∀ c ∈ m, a < c.1) : Memory.cell? m a = none := by
  induction m with
  | nil => rfl
  | cons d m ih =>
    obtain ⟨k, v⟩ := d
    have hk : k ≠ a := fun e => absurd (h (k, v) (by simp)) (by simp [e])
    simp [Memory.cell?, hk, ih (fun c hc => h c (List.mem_cons_of_mem _ hc))]

/-- The canonical form makes equal memories equal data. -/
theorem memory_ext {m n : Memory} (hm : Memory.wf m) (hn : Memory.wf n)
    (h : ∀ a, Memory.cell? m a = Memory.cell? n a) : m = n := by
  induction m generalizing n with
  | nil =>
    cases n with
    | nil => rfl
    | cons d n => simpa [Memory.cell?] using h d.1
  | cons c m ih =>
    obtain ⟨k, v⟩ := c
    obtain ⟨hk, hm'⟩ := List.pairwise_cons.mp hm
    cases n with
    | nil => simpa [Memory.cell?] using h k
    | cons d n =>
      obtain ⟨l, w⟩ := d
      obtain ⟨hl, hn'⟩ := List.pairwise_cons.mp hn
      have hkl : k = l := by
        rcases Nat.lt_trichotomy k l with hlt | heq | hgt
        · have hnone : Memory.cell? ((l, w) :: n) k = none :=
            cell_none_of_lt (fun c hc => by
              rcases List.mem_cons.mp hc with rfl | hc
              · exact hlt
              · exact Nat.lt_trans hlt (hl c hc))
          have := h k
          rw [hnone] at this
          simp [Memory.cell?] at this
        · exact heq
        · have hnone : Memory.cell? ((k, v) :: m) l = none :=
            cell_none_of_lt (fun c hc => by
              rcases List.mem_cons.mp hc with rfl | hc
              · exact hgt
              · exact Nat.lt_trans hgt (hk c hc))
          have := h l
          rw [hnone] at this
          simp [Memory.cell?] at this
      subst hkl
      have hv : v = w := by simpa [Memory.cell?] using h k
      subst hv
      have : m = n := ih hm' hn' (fun a => by
        by_cases ha : k = a
        · subst ha
          rw [cell_none_of_lt hk, cell_none_of_lt hl]
        · simpa [Memory.cell?, ha] using h a)
      rw [this]

/-! ### Addresses of elements -/

/-- Distinct bytes of CBM have distinct addresses (R81). -/
theorem columnAddr_inj {p : Params} {x k x' k' : Nat} (hk : k < p.colStride) (hk' : k' < p.colStride)
    (h : columnAddr p x k = columnAddr p x' k') : x = x' ∧ k = k' := by
  have h1 : x * p.colStride + k = x' * p.colStride + k' := by
    simp only [columnAddr] at h
    omega
  have hx : x = x' := by
    have e1 : (x * p.colStride + k) / p.colStride = x := by
      rw [Nat.add_comm, Nat.add_mul_div_right _ _ (by omega), Nat.div_eq_of_lt hk, Nat.zero_add]
    have e2 : (x' * p.colStride + k') / p.colStride = x' := by
      rw [Nat.add_comm, Nat.add_mul_div_right _ _ (by omega), Nat.div_eq_of_lt hk', Nat.zero_add]
    rw [← e1, ← e2, h1]
  subst hx
  exact ⟨rfl, by omega⟩

/-- Distinct pixels have distinct words (R80). -/
theorem pixelAddr_inj {p : Params} {x y x' y' : Nat} (hy : y < p.pMaxLeds) (hy' : y' < p.pMaxLeds)
    (h : pixelAddr p x y = pixelAddr p x' y') : x = x' ∧ y = y' := by
  have h1 : x * p.pMaxLeds + y = x' * p.pMaxLeds + y' := by
    simp only [pixelAddr] at h
    omega
  have hx : x = x' := by
    have e1 : (x * p.pMaxLeds + y) / p.pMaxLeds = x := by
      rw [Nat.add_comm, Nat.add_mul_div_right _ _ (by omega), Nat.div_eq_of_lt hy, Nat.zero_add]
    have e2 : (x' * p.pMaxLeds + y') / p.pMaxLeds = x' := by
      rw [Nat.add_comm, Nat.add_mul_div_right _ _ (by omega), Nat.div_eq_of_lt hy', Nat.zero_add]
    rw [← e1, ← e2, h1]
  subst hx
  exact ⟨rfl, by omega⟩

/-- An element index inside a `w` by `n` memory is below its size. -/
theorem index_lt {x k w n : Nat} (hx : x < w) (hk : k < n) : x * n + k < w * n := by
  calc x * n + k < x * n + n := by omega
    _ = (x + 1) * n := by rw [Nat.add_mul, Nat.one_mul]
    _ ≤ w * n := Nat.mul_le_mul_right _ hx

/-! ### Element reads after element writes -/

/-- Writing a pixel and reading it gives the pixel written (R80). -/
theorem readPixel_writePixel_same (s : State) (x y : Nat) (p : Pixel) : readPixel (writePixel s x y p) x y = p := by
  obtain ⟨r, g, b⟩ := p
  have h0 : pixelAddr s.params x y ≠ pixelAddr s.params x y + 1 := by omega
  have h1 : pixelAddr s.params x y ≠ pixelAddr s.params x y + 2 := by omega
  have h2 : pixelAddr s.params x y + 1 ≠ pixelAddr s.params x y + 2 := by omega
  simp [readPixel, writePixel, read_write_other _ _ h0, read_write_other _ _ h1, read_write_other _ _ h2]

/-- Writing a pixel leaves every other pixel alone (R80, R84). -/
theorem readPixel_writePixel_other (s : State) {x y x' y' : Nat} (p : Pixel) (hy : y < s.params.pMaxLeds)
    (hy' : y' < s.params.pMaxLeds) (h : (x', y') ≠ (x, y)) : readPixel (writePixel s x y p) x' y' = readPixel s x' y' := by
  have hne : pixelAddr s.params x' y' ≠ pixelAddr s.params x y := fun e =>
    h (by obtain ⟨rfl, rfl⟩ := pixelAddr_inj hy' hy e; rfl)
  have hfar : ∀ i j, i < 3 → j < 3 → pixelAddr s.params x' y' + i ≠ pixelAddr s.params x y + j := by
    intro i j hi hj
    simp only [pixelAddr] at hne ⊢
    omega
  have rd : ∀ i, i < 3 →
      Memory.read (writePixel s x y p).pix (pixelAddr s.params x' y' + i) =
        Memory.read s.pix (pixelAddr s.params x' y' + i) := fun i hi => by
    simp only [writePixel]
    rw [read_write_other _ _ (hfar i 2 hi (by omega)), read_write_other _ _ (hfar i 1 hi (by omega)),
      read_write_other (a := pixelAddr s.params x y) _ _ (hfar i 0 hi (by omega))]
  have r0 := rd 0 (by omega)
  have r1 := rd 1 (by omega)
  have r2 := rd 2 (by omega)
  simp only [Nat.add_zero] at r0
  simp only [readPixel, writePixel_params, r0, r1, r2]

/-- Writing a byte of CBM and reading it gives the byte written (R25). -/
@[simp] theorem readColumn_writeColumn_same (s : State) (x k : Nat) (b : Byte) :
    readColumn (writeColumn s x k b) x k = b := by
  simp [readColumn, writeColumn]

/-- Writing a byte of CBM leaves every other byte alone (R25). -/
theorem readColumn_writeColumn_other (s : State) {x k x' k' : Nat} (b : Byte) (hk : k < s.params.colStride)
    (hk' : k' < s.params.colStride) (h : (x', k') ≠ (x, k)) :
    readColumn (writeColumn s x k b) x' k' = readColumn s x' k' := by
  have hne : columnAddr s.params x' k' ≠ columnAddr s.params x k := fun e =>
    h (by obtain ⟨rfl, rfl⟩ := columnAddr_inj hk' hk e; rfl)
  simp only [readColumn, writeColumn]
  exact read_write_other _ _ hne

end Sys2Proof.Machine
end

