-- ==== Sys2Proof/Laws/Engine.lean ====
section
/-! SUPPORT. What the engine transition of one cycle can do: it never writes the configuration, PIX, BUS_ERR or the parameters
(10_state.md R48), and only the formatter writes CBM and the encoding's registers. Provers cite these and the case lemmas instead
of unfolding the engine. -/

namespace Sys2Proof.Machine

/-- What no engine transition writes: the parameters, BUS_ERR, the configuration, PIX, and the model's record of the ports. -/
structure EngineFrame (s t : State) : Prop where
  params : t.params = s.params
  busErr : t.busErr = s.busErr
  width : t.width = s.width
  height : t.height = s.height
  maxLeds : t.maxLeds = s.maxLeds
  repeatCount : t.repeatCount = s.repeatCount
  colDelay : t.colDelay = s.colDelay
  loopDelay : t.loopDelay = s.loopDelay
  blank : t.blank = s.blank
  pix : t.pix = s.pix
  inputs : t.inputs = s.inputs
  cycle : t.cycle = s.cycle
  out : t.out = s.out

theorem EngineFrame.refl (s : State) : EngineFrame s s := ⟨rfl, rfl, rfl, rfl, rfl, rfl, rfl, rfl, rfl, rfl, rfl, rfl, rfl⟩

theorem EngineFrame.trans {s t u : State} (h : EngineFrame s t) (k : EngineFrame t u) : EngineFrame s u :=
  ⟨k.params.trans h.params, k.busErr.trans h.busErr, k.width.trans h.width, k.height.trans h.height,
    k.maxLeds.trans h.maxLeds, k.repeatCount.trans h.repeatCount, k.colDelay.trans h.colDelay,
    k.loopDelay.trans h.loopDelay, k.blank.trans h.blank, k.pix.trans h.pix, k.inputs.trans h.inputs,
    k.cycle.trans h.cycle, k.out.trans h.out⟩

/-- The current input ports depend on the port record only. -/
theorem EngineFrame.now {s t : State} (h : EngineFrame s t) : t.now = s.now := by
  simp only [State.now, h.inputs, h.cycle]

/-- What no output transition writes beside those: CBM, the encoding's registers and RUN_AFTER_ENC. -/
structure OutputFrame (s t : State) : Prop extends EngineFrame s t where
  encoded : t.encoded = s.encoded
  runAfterEnc : t.runAfterEnc = s.runAfterEnc
  encW : t.encW = s.encW
  encH : t.encH = s.encH
  encX : t.encX = s.encX
  encY : t.encY = s.encY
  cbm : t.cbm = s.cbm

theorem OutputFrame.refl (s : State) : OutputFrame s s := ⟨EngineFrame.refl s, rfl, rfl, rfl, rfl, rfl, rfl, rfl⟩

theorem OutputFrame.trans {s t u : State} (h : OutputFrame s t) (k : OutputFrame t u) : OutputFrame s u :=
  ⟨h.toEngineFrame.trans k.toEngineFrame, k.encoded.trans h.encoded, k.runAfterEnc.trans h.runAfterEnc,
    k.encW.trans h.encW, k.encH.trans h.encH, k.encX.trans h.encX, k.encY.trans h.encY, k.cbm.trans h.cbm⟩

/-! ### The operations -/

theorem enterError_frame (s : State) (c : ErrCode) : OutputFrame s (enterError s c) :=
  ⟨⟨rfl, rfl, rfl, rfl, rfl, rfl, rfl, rfl, rfl, rfl, rfl, rfl, rfl⟩, rfl, rfl, rfl, rfl, rfl, rfl, rfl⟩

theorem latchAbort_frame (s : State) (c : AbortCause) : OutputFrame s (latchAbort s c) :=
  ⟨⟨rfl, rfl, rfl, rfl, rfl, rfl, rfl, rfl, rfl, rfl, rfl, rfl, rfl⟩, rfl, rfl, rfl, rfl, rfl, rfl, rfl⟩

theorem toOffBuffer_frame (s : State) : OutputFrame s (toOffBuffer s) :=
  ⟨⟨rfl, rfl, rfl, rfl, rfl, rfl, rfl, rfl, rfl, rfl, rfl, rfl, rfl⟩, rfl, rfl, rfl, rfl, rfl, rfl, rfl⟩

theorem toFirstColumn_frame (s : State) : OutputFrame s (toFirstColumn s) :=
  ⟨⟨rfl, rfl, rfl, rfl, rfl, rfl, rfl, rfl, rfl, rfl, rfl, rfl, rfl⟩, rfl, rfl, rfl, rfl, rfl, rfl, rfl⟩

theorem endOfIteration_frame (s : State) : OutputFrame s (endOfIteration s) := by
  unfold endOfIteration
  dsimp only
  split
  · exact ⟨⟨rfl, rfl, rfl, rfl, rfl, rfl, rfl, rfl, rfl, rfl, rfl, rfl, rfl⟩, rfl, rfl, rfl, rfl, rfl, rfl, rfl⟩
  · split <;> exact ⟨⟨rfl, rfl, rfl, rfl, rfl, rfl, rfl, rfl, rfl, rfl, rfl, rfl, rfl⟩, rfl, rfl, rfl, rfl, rfl, rfl, rfl⟩

theorem advanceColumn_frame (s : State) : OutputFrame s (advanceColumn s) := by
  unfold advanceColumn
  split
  · exact ⟨⟨rfl, rfl, rfl, rfl, rfl, rfl, rfl, rfl, rfl, rfl, rfl, rfl, rfl⟩, rfl, rfl, rfl, rfl, rfl, rfl, rfl⟩
  · exact endOfIteration_frame s

theorem columnDone_frame (s : State) (a : Bool) : OutputFrame s (columnDone s a) := by
  have h : OutputFrame s { s with txIdx := 0 } :=
    ⟨⟨rfl, rfl, rfl, rfl, rfl, rfl, rfl, rfl, rfl, rfl, rfl, rfl, rfl⟩, rfl, rfl, rfl, rfl, rfl, rfl, rfl⟩
  unfold columnDone
  dsimp only
  split
  · exact ⟨⟨rfl, rfl, rfl, rfl, rfl, rfl, rfl, rfl, rfl, rfl, rfl, rfl, rfl⟩, rfl, rfl, rfl, rfl, rfl, rfl, rfl⟩
  · split
    · exact ⟨⟨rfl, rfl, rfl, rfl, rfl, rfl, rfl, rfl, rfl, rfl, rfl, rfl, rfl⟩, rfl, rfl, rfl, rfl, rfl, rfl, rfl⟩
    · exact h.trans (advanceColumn_frame _)

theorem txColStep_frame (s : State) (a : Bool) : OutputFrame s (txColStep s a) := by
  unfold txColStep
  split
  · exact enterError_frame s _
  · split
    · split
      · exact ⟨⟨rfl, rfl, rfl, rfl, rfl, rfl, rfl, rfl, rfl, rfl, rfl, rfl, rfl⟩, rfl, rfl, rfl, rfl, rfl, rfl, rfl⟩
      · exact columnDone_frame s a
    · exact OutputFrame.refl s

theorem waitColStep_frame (s : State) : OutputFrame s (waitColStep s) := by
  have h : ∀ v, OutputFrame s { s with waitLeft := v } := fun v =>
    ⟨⟨rfl, rfl, rfl, rfl, rfl, rfl, rfl, rfl, rfl, rfl, rfl, rfl, rfl⟩, rfl, rfl, rfl, rfl, rfl, rfl, rfl⟩
  unfold waitColStep
  split
  · exact (h 0).trans (advanceColumn_frame _)
  · exact h _

theorem waitLoopStep_frame (s : State) : OutputFrame s (waitLoopStep s) := by
  have h : ∀ v, OutputFrame s { s with waitLeft := v } := fun v =>
    ⟨⟨rfl, rfl, rfl, rfl, rfl, rfl, rfl, rfl, rfl, rfl, rfl, rfl, rfl⟩, rfl, rfl, rfl, rfl, rfl, rfl, rfl⟩
  unfold waitLoopStep
  split
  · exact (h 0).trans (toFirstColumn_frame _)
  · exact h _

theorem txOffStep_frame (s : State) : OutputFrame s (txOffStep s) := by
  unfold txOffStep
  split
  · exact enterError_frame s _
  · split
    · split <;> exact ⟨⟨rfl, rfl, rfl, rfl, rfl, rfl, rfl, rfl, rfl, rfl, rfl, rfl, rfl⟩, rfl, rfl, rfl, rfl, rfl, rfl, rfl⟩
    · exact OutputFrame.refl s

/-- The pixel step writes CBM and ENC_Y and nothing else (R142). -/
theorem pixelStep_eq (s : State) :
    pixelStep s = { s with cbm := (pixelStep s).cbm, encY := s.encY + 1 } := by
  simp only [pixelStep, writeColumn]

theorem pixelStep_frame (s : State) : EngineFrame s (pixelStep s) := by
  constructor <;> simp [pixelStep]

theorem completeEncoding_frame (s : State) : EngineFrame s (completeEncoding s) := by
  unfold completeEncoding
  split <;> exact ⟨rfl, rfl, rfl, rfl, rfl, rfl, rfl, rfl, rfl, rfl, rfl, rfl, rfl⟩

theorem trailingStep_frame (s : State) : EngineFrame s (trailingStep s) := by
  have h : ∀ x k b, EngineFrame s (writeColumn s x k b) := fun _ _ _ =>
    ⟨rfl, rfl, rfl, rfl, rfl, rfl, rfl, rfl, rfl, rfl, rfl, rfl, rfl⟩
  unfold trailingStep
  dsimp only
  split
  · exact ⟨rfl, rfl, rfl, rfl, rfl, rfl, rfl, rfl, rfl, rfl, rfl, rfl, rfl⟩
  · exact (h _ _ _).trans (completeEncoding_frame _)

theorem encodingStep_frame (s : State) : EngineFrame s (encodingStep s) := by
  unfold encodingStep
  split
  · exact pixelStep_frame s
  · split
    · exact trailingStep_frame s
    · exact EngineFrame.refl s

/-- Outside ENCODING, and in every cycle with an abort, the engine writes neither CBM nor the encoding's registers. -/
theorem stateStep_output_frame (s : State) (a : Bool) (h : s.state ≠ .encoding ∨ a = true) :
    OutputFrame s (stateStep s a) := by
  have off : ∀ t, OutputFrame s t → OutputFrame s (if a then toOffBuffer s else t) := fun t ht => by
    split
    · exact toOffBuffer_frame s
    · exact ht
  unfold stateStep
  split
  · exact off _ (OutputFrame.refl s)
  · next he =>
    rcases h with h | h
    · exact absurd he h
    · subst h
      exact toOffBuffer_frame s
  · exact txColStep_frame s a
  · exact off _ (waitColStep_frame s)
  · exact off _ (waitLoopStep_frame s)
  · exact txOffStep_frame s
  · exact OutputFrame.refl s
  · exact OutputFrame.refl s

theorem stateStep_frame (s : State) (a : Bool) : EngineFrame s (stateStep s a) := by
  by_cases h : s.state ≠ .encoding ∨ a = true
  · exact (stateStep_output_frame s a h).toEngineFrame
  · have he : s.state = .encoding := Decidable.byContradiction fun e => h (.inl e)
    have ha : a = false := by
      cases a
      · rfl
      · exact absurd (Or.inr rfl) h
    subst ha
    simp only [stateStep, he]
    exact encodingStep_frame s

/-- The engine transition of a cycle never writes the configuration, PIX, BUS_ERR, the parameters or the port record (R48). -/
theorem engine_frame (s : State) (sh : Bool) : EngineFrame s (engine s sh) := by
  unfold engine
  split
  · exact (stateStep_frame s true).trans (latchAbort_frame _ _).toEngineFrame
  · exact stateStep_frame s false

/-- Outside ENCODING the engine transition writes neither CBM nor the encoding's registers (R25, R147). -/
theorem engine_output_frame (s : State) (sh : Bool) (h : s.state ≠ .encoding) : OutputFrame s (engine s sh) := by
  unfold engine
  split
  · exact (stateStep_output_frame s true (.inl h)).trans (latchAbort_frame _ _)
  · exact stateStep_output_frame s false (.inl h)

/-! ### When an abort is taken -/

/-- An abort that is taken has a request, an abortable state, no pending abort, and no sink failure in TX_COL (R219). -/
theorem abortTaken_iff (s : State) (sh : Bool) :
    abortTaken s sh = true ↔
      abortReq s.now sh = true ∧ s.state.abortable = true ∧ s.abortPend = false ∧
        ¬(s.state = .txCol ∧ s.now.sinkErr = true) := by
  simp [abortTaken, and_assoc, imp_iff_not_or]

/-- A request has a cause (R216, R217). -/
theorem abortCause_ne_none {i : PortIn} {sh : Bool} (h : abortReq i sh = true) : abortCause i sh ≠ .none := by
  unfold abortCause
  simp only [abortReq, Bool.or_eq_true] at h
  split
  · simp
  · split
    · simp
    · split
      · simp
      · split
        · simp
        · split
          · simp
          · simp_all

/-- An access request alone never aborts: with no line high and no SHUTDOWN, the engine takes the state's own step. -/
theorem engine_of_no_abort {s : State} {sh : Bool} (h : abortTaken s sh = false) : engine s sh = stateStep s false := by
  simp [engine, h]

/-- With an abort, the engine takes the state's abort rule and latches the cause (R219 to R223). -/
theorem engine_of_abort {s : State} {sh : Bool} (h : abortTaken s sh = true) :
    engine s sh = latchAbort (stateStep s true) (abortCause s.now sh) := by
  simp [engine, h]

/-! ### The flags of STATUS -/

/-- The flags that the output steps below do not touch: ENCODED, ABORT_PEND, EXIT, ERR_CODE, SIGNAL, RUN_AFTER_ENC. -/
structure SameFlags (s t : State) : Prop where
  encoded : t.encoded = s.encoded
  abortPend : t.abortPend = s.abortPend
  exitFlag : t.exitFlag = s.exitFlag
  errCode : t.errCode = s.errCode
  signal : t.signal = s.signal
  runAfterEnc : t.runAfterEnc = s.runAfterEnc

/-- Everything the transition of a STATE can do to the flags of STATUS (R45). -/
inductive FlagEffect (s t : State) : Prop where
  | same : SameFlags s t → FlagEffect s t
  /-- `complete_encoding` (R145) -/
  | encoded : s.state = .encoding → s.encY = s.encH → s.encW.toNat ≤ s.encX.toNat + 1 → t.state = .idle ∨ t.state = .txCol →
      SameFlags { s with encoded := true } t → FlagEffect s t
  /-- `enter_error` (R211) -/
  | error (c : ErrCode) : s.state = .txCol ∨ s.state = .txOff → t = enterError s c → FlagEffect s t
  /-- the end of the off buffer (R169) -/
  | done : s.state = .txOff → t.state = .done → SameFlags { s with exitFlag := false, abortPend := false } t → FlagEffect s t

theorem endOfIteration_flags (s : State) : SameFlags s (endOfIteration s) := by
  simp only [endOfIteration]
  split_ifs <;> exact ⟨rfl, rfl, rfl, rfl, rfl, rfl⟩

theorem advanceColumn_flags (s : State) : SameFlags s (advanceColumn s) := by
  unfold advanceColumn
  split
  · exact ⟨rfl, rfl, rfl, rfl, rfl, rfl⟩
  · exact endOfIteration_flags s

theorem columnDone_flags (s : State) (a : Bool) : SameFlags s (columnDone s a) := by
  simp only [columnDone]
  split_ifs
  · exact ⟨rfl, rfl, rfl, rfl, rfl, rfl⟩
  · exact ⟨rfl, rfl, rfl, rfl, rfl, rfl⟩
  · exact { advanceColumn_flags { s with txIdx := 0 } with }

theorem encodingStep_flags {s : State} (h : s.state = .encoding) : FlagEffect s (encodingStep s) := by
  unfold encodingStep
  split_ifs with h1 h2
  · rw [pixelStep_eq]
    generalize (pixelStep s).cbm = m
    exact .same ⟨rfl, rfl, rfl, rfl, rfl, rfl⟩
  · simp only [trailingStep, completeEncoding]
    have hy := BitVec.eq_of_toNat_eq h2
    split_ifs with h3 h4
    · exact .same ⟨rfl, rfl, rfl, rfl, rfl, rfl⟩
    · exact .encoded h hy (by omega) (.inr rfl) ⟨rfl, rfl, rfl, rfl, rfl, rfl⟩
    · exact .encoded h hy (by omega) (.inl rfl) ⟨rfl, rfl, rfl, rfl, rfl, rfl⟩
  · exact .same ⟨rfl, rfl, rfl, rfl, rfl, rfl⟩

theorem txColStep_flags {s : State} (h : s.state = .txCol) (a : Bool) : FlagEffect s (txColStep s a) := by
  unfold txColStep
  split_ifs
  · exact .error _ (.inl h) rfl
  · exact .same ⟨rfl, rfl, rfl, rfl, rfl, rfl⟩
  · exact .same (columnDone_flags s a)
  · exact .same ⟨rfl, rfl, rfl, rfl, rfl, rfl⟩

theorem waitColStep_flags (s : State) : SameFlags s (waitColStep s) := by
  unfold waitColStep
  split_ifs
  · exact { advanceColumn_flags { s with waitLeft := 0 } with }
  · exact ⟨rfl, rfl, rfl, rfl, rfl, rfl⟩

theorem txOffStep_flags {s : State} (h : s.state = .txOff) : FlagEffect s (txOffStep s) := by
  unfold txOffStep
  split_ifs
  · exact .error _ (.inr h) rfl
  · exact .same ⟨rfl, rfl, rfl, rfl, rfl, rfl⟩
  · exact .done h rfl ⟨rfl, rfl, rfl, rfl, rfl, rfl⟩
  · exact .same ⟨rfl, rfl, rfl, rfl, rfl, rfl⟩

/-- What the transition of the current STATE can do to the flags of STATUS, whether or not an abort is taken (R45). -/
theorem stateStep_flags (s : State) (a : Bool) : FlagEffect s (stateStep s a) := by
  unfold stateStep
  split
  · split <;> exact .same ⟨rfl, rfl, rfl, rfl, rfl, rfl⟩
  · next h =>
    split
    · exact .same ⟨rfl, rfl, rfl, rfl, rfl, rfl⟩
    · exact encodingStep_flags h
  · next h => exact txColStep_flags h a
  · split
    · exact .same ⟨rfl, rfl, rfl, rfl, rfl, rfl⟩
    · exact .same (waitColStep_flags s)
  · split
    · exact .same ⟨rfl, rfl, rfl, rfl, rfl, rfl⟩
    · unfold waitLoopStep
      split <;> exact .same ⟨rfl, rfl, rfl, rfl, rfl, rfl⟩
  · next h => exact txOffStep_flags h
  · exact .same ⟨rfl, rfl, rfl, rfl, rfl, rfl⟩
  · exact .same ⟨rfl, rfl, rfl, rfl, rfl, rfl⟩

end Sys2Proof.Machine
end

