-- ==== Sys2Proof/Laws/Cycle.lean ====
section
/-! SUPPORT. Said once: what each shape of a clock cycle answers, and what a step can do. -/

namespace Sys2Proof.Machine

/-- The bus effects a cycle can have in a state (R48, R77, R78, R80): BUS_ERR, configuration in a quiescent state, a pixel that
exists outside ENCODING. -/
def BusWriteAllowed (s : State) : BusWrite → Prop
  | .none => True
  | .busErr => True
  | .config _ _ => s.state.quiescent = true
  | .pixel x y _ => s.state ≠ .encoding ∧ pixelExists s.params x y = true

/-- A pixel that an address decodes to exists (R80). -/
theorem decodeAddress_pixel {p : Params} {a : BitVec 26} {x y : Nat} (h : decodeAddress p a = .pixel x y) :
    pixelExists p x y = true := by
  simp only [decodeAddress] at h
  split at h
  · cases h
  split at h
  · split at h <;> cases h
  split at h
  · cases h
  split at h
  · split at h
    · next hi =>
      injection h with hx hy
      subst hx hy
      have hL : 0 < p.pMaxLeds := by
        rcases Nat.eq_zero_or_pos p.pMaxLeds with h0 | h0
        · rw [h0, Nat.mul_zero] at hi
          exact absurd hi (Nat.not_lt_zero _)
        · exact h0
      have h1 : windowIndex 0x1000000 a.toNat / p.pMaxLeds < p.pMaxWidth := Nat.div_lt_of_lt_mul (by rwa [Nat.mul_comm])
      simp [pixelExists, h1, Nat.mod_lt _ hL]
    · cases h
  split at h
  · split at h <;> cases h
  · cases h

/-- A bus access of a cycle has an allowed effect. -/
theorem accessWrite_allowed {s : State} {i : PortIn} {a : Access} (h : presented s.params i = .access a) :
    BusWriteAllowed s (accessWrite s a) := by
  cases a with
  | none => trivial
  | read t =>
    simp only [accessWrite]
    split <;> trivial
  | write t v =>
    have ht : decodeAddress s.params i.busAddr = t := by
      simp only [presented] at h
      split at h
      · split at h
        · split at h
          · cases h
          · injection h with h
            injection h
        · injection h with h
          cases h
      · injection h with h
        cases h
    simp only [accessWrite, busWrite]
    cases t with
    | misaligned => trivial
    | unmapped => trivial
    | lut i => trivial
    | column x k => trivial
    | csr r =>
      dsimp only
      split
      · split
        · assumption
        · trivial
      · trivial
    | pixel x y =>
      dsimp only
      split
      · trivial
      · exact ⟨by assumption, decodeAddress_pixel ht⟩

/-! ### The shapes of a cycle -/

/-- An engine cycle answers a next state exactly when the instantiation is admitted and the engine's access exists. -/
theorem engineCycle_next_iff {s t : State} {sh : Bool} {w : BusWrite} {r : BusResp} :
    engineCycle s sh w r = .next t ↔
      s.params.legal = true ∧ engineFault s (abortTaken s sh) = none ∧
        t = (applyBusWrite (engine s sh) w).tick { bus := r, stream := streamOut s } := by
  unfold engineCycle
  split
  · next h =>
    split
    · next f hf => simp [hf]
    · next hf =>
      exact ⟨fun e => ⟨h, hf, (Host.Outcome.next.inj e).symm⟩, fun e => by rw [e.2.2]⟩
  · next h => simp [h]

/-- A command cycle answers a next state exactly when the instantiation is admitted. -/
theorem commandCycle_next_iff {s t u : State} :
    commandCycle s t = .next u ↔ s.params.legal = true ∧ u = t.tick { bus := okay 0, stream := streamOut s } := by
  unfold commandCycle
  split
  · next h => exact ⟨fun e => ⟨h, (Host.Outcome.next.inj e).symm⟩, fun e => by rw [e.2]⟩
  · next h => simp [h]

/-- A reset cycle answers a next state exactly when the instantiation is admitted. -/
theorem resetCycle_next_iff {s t : State} :
    resetCycle s = .next t ↔
      s.params.legal = true ∧
        t = (resetState s).tick { bus := if s.now.busReq then errResp else okay 0, stream := silentStream } := by
  unfold resetCycle
  split
  · next h => exact ⟨fun e => ⟨h, (Host.Outcome.next.inj e).symm⟩, fun e => by rw [e.2]⟩
  · next h => simp [h]

/-! ### What a command can do -/

/-- What a cycle with an accepted command of its own effect leaves before the cycle ends (R140, R160, R161, R202). -/
inductive CommandEffect (s : State) : State → Prop where
  | encode : acceptsEncode s = true → CommandEffect s (encodeEffect s)
  | run : acceptsRun s = true → CommandEffect s (runEffect s)
  | start : acceptsStart s = true → CommandEffect s (startEffect s)
  | clear : acceptsClear s = true → CommandEffect s (clearTerminal s)

/-- What a cycle without reset can do: the engine's transition beside an allowed bus effect, or an accepted command's effect. -/
inductive CycleEffect (s t : State) : Prop where
  | engine (sh : Bool) (w : BusWrite) (r : BusResp) : BusWriteAllowed s w → engineFault s (abortTaken s sh) = none →
      t = (applyBusWrite (engine s sh) w).tick { bus := r, stream := streamOut s } → CycleEffect s t
  | command (u : State) : CommandEffect s u → t = u.tick { bus := okay 0, stream := streamOut s } → CycleEffect s t

/-- Everything a rejected command can do. -/
theorem rejectCommand_cases {s t : State} (h : rejectCommand s = .next t) : s.params.legal = true ∧ CycleEffect s t := by
  obtain ⟨h1, h2, h3⟩ := engineCycle_next_iff.mp h
  exact ⟨h1, .engine false .busErr errResp trivial h2 h3⟩

/-- Everything a command can do. -/
theorem exec_cases {i : Instr} {s t : State} (h : exec i s = .next t) : s.params.legal = true ∧ CycleEffect s t := by
  cases i with
  | nop =>
    obtain ⟨h1, h2, h3⟩ := engineCycle_next_iff.mp h
    exact ⟨h1, .engine false .none _ trivial h2 h3⟩
  | encode =>
    simp only [exec, execEncode] at h
    split at h
    · next ha =>
      obtain ⟨h1, h2⟩ := commandCycle_next_iff.mp h
      exact ⟨h1, .command _ (.encode ha) h2⟩
    · exact rejectCommand_cases h
  | run =>
    simp only [exec, execRun] at h
    split at h
    · next ha =>
      obtain ⟨h1, h2⟩ := commandCycle_next_iff.mp h
      exact ⟨h1, .command _ (.run ha) h2⟩
    · exact rejectCommand_cases h
  | start =>
    simp only [exec, execStart] at h
    split at h
    · next ha =>
      obtain ⟨h1, h2⟩ := commandCycle_next_iff.mp h
      exact ⟨h1, .command _ (.start ha) h2⟩
    · exact rejectCommand_cases h
  | shutdown =>
    obtain ⟨h1, h2, h3⟩ := engineCycle_next_iff.mp h
    exact ⟨h1, .engine true .none _ trivial h2 h3⟩
  | clear =>
    simp only [exec, execClear] at h
    split at h
    · next ha =>
      obtain ⟨h1, h2⟩ := commandCycle_next_iff.mp h
      exact ⟨h1, .command _ (.clear ha) h2⟩
    · exact rejectCommand_cases h

/-- Everything a step can do: reset, or a cycle's effect. -/
theorem step_cases {s t : State} (h : step s = .next t) :
    s.params.legal = true ∧
      ((s.now.rst = true ∧
          t = (resetState s).tick { bus := if s.now.busReq then errResp else okay 0, stream := silentStream }) ∨
        (s.now.rst = false ∧ CycleEffect s t)) := by
  unfold step at h
  split at h
  · next hr =>
    obtain ⟨h1, h2⟩ := resetCycle_next_iff.mp h
    exact ⟨h1, .inl ⟨hr, h2⟩⟩
  · next hr =>
    have hr' : s.now.rst = false := by simpa using hr
    split at h
    · split at h
      · obtain ⟨h1, h2⟩ := exec_cases h
        exact ⟨h1, .inr ⟨hr', h2⟩⟩
      · obtain ⟨h1, h2⟩ := rejectCommand_cases h
        exact ⟨h1, .inr ⟨hr', h2⟩⟩
    · next ha =>
      obtain ⟨h1, h2, h3⟩ := engineCycle_next_iff.mp h
      exact ⟨h1, .inr ⟨hr', .engine false _ _ (accessWrite_allowed ha) h2 h3⟩⟩

/-! ### What a bus write leaves alone -/

/-- A bus effect writes the configuration, PIX or BUS_ERR and nothing else (R48). -/
structure BusFrame (s t : State) : Prop where
  params : t.params = s.params
  state : t.state = s.state
  encoded : t.encoded = s.encoded
  abortPend : t.abortPend = s.abortPend
  exitFlag : t.exitFlag = s.exitFlag
  errCode : t.errCode = s.errCode
  signal : t.signal = s.signal
  runAfterEnc : t.runAfterEnc = s.runAfterEnc
  iter : t.iter = s.iter
  curCol : t.curCol = s.curCol
  txIdx : t.txIdx = s.txIdx
  encW : t.encW = s.encW
  encH : t.encH = s.encH
  encX : t.encX = s.encX
  encY : t.encY = s.encY
  waitLeft : t.waitLeft = s.waitLeft
  cbm : t.cbm = s.cbm
  inputs : t.inputs = s.inputs
  cycle : t.cycle = s.cycle
  out : t.out = s.out

theorem applyBusWrite_frame (s : State) (w : BusWrite) : BusFrame s (applyBusWrite s w) := by
  cases w with
  | none => exact ⟨rfl, rfl, rfl, rfl, rfl, rfl, rfl, rfl, rfl, rfl, rfl, rfl, rfl, rfl, rfl, rfl, rfl, rfl, rfl, rfl⟩
  | busErr => exact ⟨rfl, rfl, rfl, rfl, rfl, rfl, rfl, rfl, rfl, rfl, rfl, rfl, rfl, rfl, rfl, rfl, rfl, rfl, rfl, rfl⟩
  | pixel x y v => exact ⟨rfl, rfl, rfl, rfl, rfl, rfl, rfl, rfl, rfl, rfl, rfl, rfl, rfl, rfl, rfl, rfl, rfl, rfl, rfl, rfl⟩
  | config r v =>
    cases r <;>
      exact ⟨rfl, rfl, rfl, rfl, rfl, rfl, rfl, rfl, rfl, rfl, rfl, rfl, rfl, rfl, rfl, rfl, rfl, rfl, rfl, rfl⟩

end Sys2Proof.Machine
end

