-- ==== Sys2Proof/Laws/Inputs.lean ====
section
/-! SUPPORT. A cycle sees its input ports only through the abort lines, `out_ready`, `sink_err` and what a command or a bus access
reads: replacing the other ports of the current cycle (`State.withInput`) commutes with the engine, so two cycles that differ in
them alone have the same engine transition. -/

namespace Sys2Proof.Machine

@[simp] theorem withInput_params (s : State) (i : PortIn) : (s.withInput i).params = s.params := rfl
@[simp] theorem withInput_state (s : State) (i : PortIn) : (s.withInput i).state = s.state := rfl
@[simp] theorem withInput_encoded (s : State) (i : PortIn) : (s.withInput i).encoded = s.encoded := rfl
@[simp] theorem withInput_abortPend (s : State) (i : PortIn) : (s.withInput i).abortPend = s.abortPend := rfl
@[simp] theorem withInput_busErr (s : State) (i : PortIn) : (s.withInput i).busErr = s.busErr := rfl
@[simp] theorem withInput_exitFlag (s : State) (i : PortIn) : (s.withInput i).exitFlag = s.exitFlag := rfl
@[simp] theorem withInput_errCode (s : State) (i : PortIn) : (s.withInput i).errCode = s.errCode := rfl
@[simp] theorem withInput_signal (s : State) (i : PortIn) : (s.withInput i).signal = s.signal := rfl
@[simp] theorem withInput_runAfterEnc (s : State) (i : PortIn) : (s.withInput i).runAfterEnc = s.runAfterEnc := rfl
@[simp] theorem withInput_iter (s : State) (i : PortIn) : (s.withInput i).iter = s.iter := rfl
@[simp] theorem withInput_curCol (s : State) (i : PortIn) : (s.withInput i).curCol = s.curCol := rfl
@[simp] theorem withInput_txIdx (s : State) (i : PortIn) : (s.withInput i).txIdx = s.txIdx := rfl
@[simp] theorem withInput_encW (s : State) (i : PortIn) : (s.withInput i).encW = s.encW := rfl
@[simp] theorem withInput_encH (s : State) (i : PortIn) : (s.withInput i).encH = s.encH := rfl
@[simp] theorem withInput_encX (s : State) (i : PortIn) : (s.withInput i).encX = s.encX := rfl
@[simp] theorem withInput_encY (s : State) (i : PortIn) : (s.withInput i).encY = s.encY := rfl
@[simp] theorem withInput_waitLeft (s : State) (i : PortIn) : (s.withInput i).waitLeft = s.waitLeft := rfl
@[simp] theorem withInput_width (s : State) (i : PortIn) : (s.withInput i).width = s.width := rfl
@[simp] theorem withInput_height (s : State) (i : PortIn) : (s.withInput i).height = s.height := rfl
@[simp] theorem withInput_maxLeds (s : State) (i : PortIn) : (s.withInput i).maxLeds = s.maxLeds := rfl
@[simp] theorem withInput_repeatCount (s : State) (i : PortIn) : (s.withInput i).repeatCount = s.repeatCount := rfl
@[simp] theorem withInput_colDelay (s : State) (i : PortIn) : (s.withInput i).colDelay = s.colDelay := rfl
@[simp] theorem withInput_loopDelay (s : State) (i : PortIn) : (s.withInput i).loopDelay = s.loopDelay := rfl
@[simp] theorem withInput_blank (s : State) (i : PortIn) : (s.withInput i).blank = s.blank := rfl
@[simp] theorem withInput_pix (s : State) (i : PortIn) : (s.withInput i).pix = s.pix := rfl
@[simp] theorem withInput_cbm (s : State) (i : PortIn) : (s.withInput i).cbm = s.cbm := rfl
@[simp] theorem withInput_inputs (s : State) (i : PortIn) : (s.withInput i).inputs = i :: s.inputs.tail := rfl
@[simp] theorem withInput_cycle (s : State) (i : PortIn) : (s.withInput i).cycle = s.cycle := rfl
@[simp] theorem withInput_out (s : State) (i : PortIn) : (s.withInput i).out = s.out := rfl
@[simp] theorem withInput_now (s : State) (i : PortIn) : (s.withInput i).now = i := rfl

/-- The input ports that the engine transition reads are the same. -/
structure SameEngineInputs (i j : PortIn) : Prop where
  sigInt : j.sigInt = i.sigInt
  sigTerm : j.sigTerm = i.sigTerm
  sigHup : j.sigHup = i.sigHup
  sigSegv : j.sigSegv = i.sigSegv
  outReady : j.outReady = i.outReady
  sinkErr : j.sinkErr = i.sinkErr

theorem abortTaken_withInput {s : State} {i : PortIn} (h : SameEngineInputs s.now i) (sh : Bool) :
    abortTaken (s.withInput i) sh = abortTaken s sh := by
  unfold abortTaken abortReq
  rw [withInput_now, withInput_state, withInput_abortPend, h.sigInt, h.sigTerm, h.sigHup, h.sigSegv, h.sinkErr]

theorem abortCause_sameInputs {i j : PortIn} (h : SameEngineInputs i j) (sh : Bool) : abortCause j sh = abortCause i sh := by
  simp only [abortCause, h.sigInt, h.sigTerm, h.sigHup, h.sigSegv]

theorem pixelStep_withInput (s : State) (i : PortIn) : pixelStep (s.withInput i) = (pixelStep s).withInput i := by
  simp only [pixelStep, writeColumn, readPixel, State.withInput]

theorem trailingStep_withInput (s : State) (i : PortIn) : trailingStep (s.withInput i) = (trailingStep s).withInput i := by
  cases s
  dsimp only [State.withInput, trailingStep, completeEncoding, writeColumn]
  split_ifs <;> rfl

theorem encodingStep_withInput (s : State) (i : PortIn) : encodingStep (s.withInput i) = (encodingStep s).withInput i := by
  unfold encodingStep
  rw [pixelStep_withInput, trailingStep_withInput, withInput_encY, withInput_encH]
  split_ifs <;> rfl

theorem advanceColumn_withInput (s : State) (i : PortIn) :
    advanceColumn (s.withInput i) = (advanceColumn s).withInput i := by
  cases s
  dsimp only [State.withInput, advanceColumn, endOfIteration]
  split_ifs <;> rfl

theorem columnDone_withInput (s : State) (i : PortIn) (a : Bool) :
    columnDone (s.withInput i) a = (columnDone s a).withInput i := by
  have adv := advanceColumn_withInput { s with txIdx := 0 } i
  cases s
  dsimp only [State.withInput, columnDone] at adv ⊢
  split_ifs
  · rfl
  · rfl
  · exact adv

theorem txColStep_withInput {s : State} {i : PortIn} (h : SameEngineInputs s.now i) (a : Bool) :
    txColStep (s.withInput i) a = (txColStep s a).withInput i := by
  unfold txColStep
  rw [columnDone_withInput, withInput_now, h.sinkErr, h.outReady, withInput_txIdx, withInput_encH]
  split_ifs <;> rfl

theorem waitColStep_withInput (s : State) (i : PortIn) : waitColStep (s.withInput i) = (waitColStep s).withInput i := by
  have adv := advanceColumn_withInput { s with waitLeft := 0 } i
  cases s
  dsimp only [State.withInput, waitColStep] at adv ⊢
  split_ifs
  · exact adv
  · rfl

theorem waitLoopStep_withInput (s : State) (i : PortIn) :
    waitLoopStep (s.withInput i) = (waitLoopStep s).withInput i := by
  cases s
  dsimp only [State.withInput, waitLoopStep]
  split_ifs <;> rfl

theorem txOffStep_withInput {s : State} {i : PortIn} (h : SameEngineInputs s.now i) :
    txOffStep (s.withInput i) = (txOffStep s).withInput i := by
  unfold txOffStep
  rw [withInput_now, h.sinkErr, h.outReady, withInput_txIdx, withInput_maxLeds]
  split_ifs <;> rfl

theorem stateStep_withInput {s : State} {i : PortIn} (h : SameEngineInputs s.now i) (a : Bool) :
    stateStep (s.withInput i) a = (stateStep s a).withInput i := by
  unfold stateStep
  rw [encodingStep_withInput, txColStep_withInput h, waitColStep_withInput, waitLoopStep_withInput,
    txOffStep_withInput h, withInput_state]
  cases s.state <;> cases a <;> rfl

/-- The engine transition commutes with replacing the ports it does not read. -/
theorem engine_withInput {s : State} {i : PortIn} (h : SameEngineInputs s.now i) (sh : Bool) :
    engine (s.withInput i) sh = (engine s sh).withInput i := by
  unfold engine
  rw [abortTaken_withInput h, withInput_now, abortCause_sameInputs h, stateStep_withInput h, stateStep_withInput h]
  cases abortTaken s sh <;> rfl

theorem engineFault_withInput (s : State) (i : PortIn) (a : Bool) : engineFault (s.withInput i) a = engineFault s a := by
  cases s
  rfl

@[simp] theorem streamOut_withInput (s : State) (i : PortIn) : streamOut (s.withInput i) = streamOut s := rfl

/-- A cycle's end uses up the current input ports: what they were leaves no trace but through the engine. -/
theorem tick_applyBusWrite_withInput (s : State) (i : PortIn) (w : BusWrite) (o : PortOut) :
    (applyBusWrite (s.withInput i) w).tick o = (applyBusWrite s w).tick o := by
  cases w with
  | none => rfl
  | busErr => rfl
  | config r v => cases r <;> rfl
  | pixel x y v => rfl

/-- Two engine cycles that differ only in ports the engine does not read answer alike. -/
theorem engineCycle_withInput {s : State} {i : PortIn} (h : SameEngineInputs s.now i) (sh : Bool) (w : BusWrite)
    (r : BusResp) : engineCycle (s.withInput i) sh w r = engineCycle s sh w r := by
  unfold engineCycle
  rw [withInput_params, abortTaken_withInput h, engineFault_withInput, engine_withInput h, streamOut_withInput,
    tick_applyBusWrite_withInput]

end Sys2Proof.Machine
end

