-- ==== Sys2Proof/Laws/Invariant.lean ====
section
/-! SUPPORT. What each shared operation keeps of the invariant (`State.Inv`), and the arithmetic it rests on: counters that stay
below a bound do not wrap, and a delay of at least one tick lasts at least one cycle. -/

namespace Sys2Proof.Machine

/-! ### Arithmetic -/

/-- A counter below another value does not wrap when it is incremented. -/
theorem toNat_succ_of_lt {w : Nat} {a b : BitVec w} (h : a.toNat < b.toNat) : (a + 1).toNat = a.toNat + 1 := by
  have hb := b.isLt
  rw [BitVec.toNat_add]
  rcases Nat.eq_zero_or_pos w with rfl | hw
  · omega
  · have h1 : (1 : BitVec w).toNat = 1 := by
      simp
      omega
    rw [h1]
    exact Nat.mod_eq_of_lt (by omega)

/-- The parameters of an admitted instantiation fit the fields of CAP0 (R5, R28). -/
theorem legal_bounds {p : Params} (h : p.legal = true) :
    1 ≤ p.pMaxLeds ∧ p.pMaxLeds ≤ 65535 ∧ 1 ≤ p.pMaxWidth ∧ p.pMaxWidth ≤ 65535 ∧ 1 ≤ p.pTickCycles ∧
      p.pTickCycles ≤ 4294967295 ∧ p.pMaxWidth * p.pMaxLeds ≤ 4194304 ∧ p.pMaxWidth * p.colStride ≤ 4194304 := by
  simp only [Params.legal, Params.ledsInRange, Params.widthInRange, Params.tickInRange, Params.pixelsFit, Params.columnsFit,
    Bool.and_eq_true, decide_eq_true_eq] at h
  omega

/-- A delay is not truncated (R44, R109), and at least one tick lasts at least one cycle (R165). -/
theorem delayCycles_toNat {s : State} (hl : s.params.legal = true) {d : Word} (h : 0 < d.toNat) :
    (delayCycles s d).toNat = d.toNat * s.params.pTickCycles ∧ 1 ≤ d.toNat * s.params.pTickCycles := by
  obtain ⟨_, _, _, _, h1, h2, _, _⟩ := legal_bounds hl
  have hd := d.isLt
  have hlt : d.toNat * s.params.pTickCycles < 2 ^ 64 := by nlinarith
  refine ⟨?_, Nat.mul_pos h h1⟩
  simp only [delayCycles, BitVec.toNat_ofNat]
  exact Nat.mod_eq_of_lt hlt

/-! ### The operations -/

/-- The input ports are no part of the invariant. -/
theorem withInput_inv {s : State} (h : s.Inv) (i : PortIn) : (s.withInput i).Inv := { h with }

/-- The end of a cycle keeps the invariant. -/
theorem tick_inv {s : State} (h : s.Inv) (o : PortOut) : (s.tick o).Inv := { h with }

/-- `enter_error` with a code keeps the invariant (R211). -/
theorem enterError_inv {s : State} {c : ErrCode} (hc : c ≠ .none) (h : s.Inv) : (enterError s c).Inv where
  params_legal := h.params_legal
  pix_wf := h.pix_wf
  cbm_wf := h.cbm_wf
  pix_exists := h.pix_exists
  cbm_exists := h.cbm_exists
  geometry_fits hh := h.geometry_fits (by simpa using hh.elim Or.inl (by simp))
  cursor_inside := by simp
  column_inside := by simp
  column_byte := by simp
  off_byte := by simp
  strip_fits := by simp
  delay_left := by simp
  loop_column := by simp
  error_code := by simpa using hc
  exit_flag := by simp
  abort_pending hp := ⟨.inr (.inr rfl), (h.abort_pending hp).2⟩
  iterations_left := by simp [State.running]

/-- Going to the off buffer keeps the invariant outside ERROR (R220, R221, R223, R167). -/
theorem toOffBuffer_inv {s : State} (h : s.Inv) (he : s.state ≠ .error) : (toOffBuffer s).Inv where
  params_legal := h.params_legal
  pix_wf := h.pix_wf
  cbm_wf := h.cbm_wf
  pix_exists := h.pix_exists
  cbm_exists := h.cbm_exists
  geometry_fits hh := h.geometry_fits (by simpa using hh.elim Or.inl (by simp))
  cursor_inside := by simp
  column_inside := by simp
  column_byte := by simp
  off_byte := by simp [toOffBuffer]
  strip_fits := by simp
  delay_left := by simp
  loop_column := by simp
  error_code := by
    have := h.error_code
    simp_all
  exit_flag := by
    have := h.exit_flag
    simp_all
  abort_pending hp := ⟨.inr (.inl rfl), (h.abort_pending hp).2⟩
  iterations_left := by simp [State.running]

/-- Latching an abort keeps the invariant in TX_COL and TX_OFF (R219, R222). -/
theorem latchAbort_inv {s : State} {c : AbortCause} (h : s.Inv) (hc : c ≠ .none) (hs : s.state = .txCol ∨ s.state = .txOff) :
    (latchAbort s c).Inv :=
  { h with
    abort_pending := fun _ => ⟨hs.imp_right Or.inl, hc⟩ }

/-- Writing a byte of CBM that exists keeps the invariant (R25). -/
theorem writeColumn_inv {s : State} {x k : Nat} (hx : x < s.params.pMaxWidth) (hk : k < s.params.colStride) (b : Byte)
    (h : s.Inv) : (writeColumn s x k b).Inv :=
  { h with
    cbm_wf := writeColumn_wf x k b h.cbm_wf
    cbm_exists := fun c hc => by
      rcases mem_of_mem_write hc with rfl | hc
      · have := index_lt hx hk
        simp only [columnAddr, writeColumn_params]
        omega
      · exact h.cbm_exists c hc }

/-- Moving between the output states keeps the invariant (R163 to R168): what each new position has to satisfy. -/
theorem outputMove_inv {s : State} (h : s.Inv) (hs : s.state = .txCol ∨ s.state = .waitCol ∨ s.state = .waitLoop)
    {st : SeqState} {it : BitVec 32} {col : BitVec 16} {idx : BitVec 32} {left : BitVec 64}
    (hst : st = .txCol ∨ st = .waitCol ∨ st = .waitLoop) (hcol : col.toNat < s.encW.toNat)
    (hidx : st = .txCol → idx.toNat ≤ 3 * s.encH.toNat) (hleft : st = .waitCol ∨ st = .waitLoop → 1 ≤ left.toNat)
    (hlast : st = .waitLoop → col.toNat + 1 = s.encW.toNat) (hap : s.abortPend = true → st = .txCol)
    (hit : s.repeatCount.toNat ≠ 0 → it.toNat < s.repeatCount.toNat) :
    State.Inv { s with state := st, iter := it, curCol := col, txIdx := idx, waitLeft := left } := by
  have ne : s.state ≠ .error := by rcases hs with h | h | h <;> simp [h]
  have nst : st ≠ .error ∧ st ≠ .encoding ∧ st ≠ .txOff := by rcases hst with h | h | h <;> simp [h]
  exact
    { params_legal := h.params_legal
      pix_wf := h.pix_wf
      cbm_wf := h.cbm_wf
      pix_exists := h.pix_exists
      cbm_exists := h.cbm_exists
      geometry_fits := fun _ => h.geometry_fits (.inl (h.column_inside hs).1)
      cursor_inside := fun e => absurd e nst.2.1
      column_inside := fun _ => ⟨(h.column_inside hs).1, hcol⟩
      column_byte := hidx
      off_byte := fun e => absurd e nst.2.2
      strip_fits := fun _ => h.strip_fits (.inr hs)
      delay_left := hleft
      loop_column := hlast
      error_code := ⟨fun e => absurd (h.error_code.mp e) ne, fun e => absurd e nst.1⟩
      exit_flag := ⟨fun e => absurd (h.exit_flag.mp e) ne, fun e => absurd e nst.1⟩
      abort_pending := fun hp => ⟨.inl (hap hp), (h.abort_pending hp).2⟩
      iterations_left := fun _ => hit }

/-- In a state with the invariant the engine's access exists and its delay counter is not spent (log entry 5). -/
theorem engineFault_none {s : State} (h : s.Inv) (a : Bool) : engineFault s a = none := by
  unfold engineFault
  split
  · rfl
  · next e =>
    split
    · rfl
    · have g := h.geometry_fits (.inr e)
      have c := h.cursor_inside e
      have sf := h.strip_fits (.inl e)
      simp only [encodingFault, pixelExists, columnByteExists, Params.colStride]
      split
      · simp
        omega
      · split
        · simp
          omega
        · rfl
  · next e =>
    have c := h.column_inside (.inl e)
    have g := h.geometry_fits (.inl c.1)
    have b := h.column_byte e
    simp only [txColFault, columnByteExists, Params.colStride]
    simp
    omega
  · next e =>
    split
    · rfl
    · have hd := h.delay_left (.inl e)
      simp only [waitFault]
      split
      · next e0 => simp [e0] at hd
      · rfl
  · next e =>
    split
    · rfl
    · have hd := h.delay_left (.inr e)
      simp only [waitFault]
      split
      · next e0 => simp [e0] at hd
      · rfl
  · rfl
  · rfl
  · rfl

/-- In a state with the invariant an engine cycle answers its next state. -/
theorem engineCycle_inv {s : State} (h : s.Inv) (sh : Bool) (w : BusWrite) (r : BusResp) :
    engineCycle s sh w r =
      .next ((applyBusWrite (engine s sh) w).tick { bus := r, stream := streamOut s }) :=
  engineCycle_next_iff.mpr ⟨h.params_legal, engineFault_none h _, rfl⟩

end Sys2Proof.Machine
end

