-- ==== Sys2Proof/Laws/PerInstr.lean ====
section
/-! SUPPORT. The families of statements made for every instruction, one lemma per constructor of `Instr`. -/

namespace Sys2Proof.Laws.OpcodeField

/-- What the encoding says of one command, whatever stands in the ignored bits (30_encoding.md R101, R102, R109): it is well formed,
its word carries its opcode in bits [3:0], and that opcode is one of 0 to 5. -/
def Statement (i : Instr) : Prop :=
  i.wellFormed = true ∧ (opcode i).toNat < 6 ∧ ∀ ignored : BitVec 28, opField (encodeWith ignored i) = opcode i

/-- The opcode field of a word assembled from 28 ignored bits and an opcode is the opcode (R101). -/
theorem opField_append (ignored : BitVec 28) (op : BitVec 4) : opField (ignored ++ op) = op := by
  apply BitVec.eq_of_getLsbD_eq
  intro j hj
  rw [opField, BitVec.getLsbD_extractLsb', Nat.zero_add, BitVec.getLsbD_append]
  simp [hj]

theorem nop : Statement .nop := ⟨rfl, by decide, fun _ => opField_append _ _⟩
theorem encode : Statement .encode := ⟨rfl, by decide, fun _ => opField_append _ _⟩
theorem run : Statement .run := ⟨rfl, by decide, fun _ => opField_append _ _⟩
theorem start : Statement .start := ⟨rfl, by decide, fun _ => opField_append _ _⟩
theorem shutdown : Statement .shutdown := ⟨rfl, by decide, fun _ => opField_append _ _⟩
theorem clear : Statement .clear := ⟨rfl, by decide, fun _ => opField_append _ _⟩

end Sys2Proof.Laws.OpcodeField
end

