-- ==== Sys2Proof/Laws/Runs.lean ====
section
/-! SUPPORT. Runs of several cycles: how they compose, and what one cycle of a busy state is. -/

namespace Sys2Proof.Machine

/-- Runs compose: m cycles and then n cycles are m + n cycles. -/
theorem after_add (m n : Nat) {s t : State} (h : after m s = some t) : after (m + n) s = after n t := by
  induction m generalizing s with
  | zero =>
    cases h
    rw [Nat.zero_add]
  | succ m ih =>
    rw [Nat.succ_add]
    simp only [after] at h ⊢
    split at h
    · exact ih h
    · cases h
    · cases h

/-- What the sink receives in m + n cycles is what it receives in the m cycles and then in the n cycles (R162). -/
theorem received_add (m n : Nat) {s t : State} (h : after m s = some t) :
    received (m + n) s = received m s ++ received n t := by
  induction m generalizing s with
  | zero =>
    cases h
    rw [Nat.zero_add]
    rfl
  | succ m ih =>
    rw [Nat.succ_add]
    simp only [after, received] at h ⊢
    split at h
    · rw [ih h, List.append_assoc]
    · cases h
    · cases h

/-- A cycle without reset and without a transaction is an engine cycle (R47, R73). -/
theorem step_withoutBus (s : State) (h : s.now.rst = false) : step s.withoutBus = engineCycle s false .none (okay 0) := by
  have hn : s.withoutBus.now = { s.now with busReq := false } := rfl
  have hp : presented s.withoutBus.params { s.now with busReq := false } = .access .none := rfl
  unfold step
  rw [hn, hp]
  simp only [h]
  have same : SameEngineInputs s.now { s.now with busReq := false } := ⟨rfl, rfl, rfl, rfl, rfl, rfl⟩
  exact engineCycle_withInput same false .none (okay 0)

/-- A command with an effect of its own, accepted, and what it leaves before the cycle ends (R204). -/
def AcceptedEffect (s u : State) : Instr → Prop
  | .nop => False
  | .encode => acceptsEncode s = true ∧ u = encodeEffect s
  | .run => acceptsRun s = true ∧ u = runEffect s
  | .start => acceptsStart s = true ∧ u = startEffect s
  | .shutdown => False
  | .clear => acceptsClear s = true ∧ u = clearTerminal s

/-- Everything a step without reset can do, with the transaction that makes it so: the engine's transition, an abort by SHUTDOWN
exactly where the cycle presents it and BUS_ERR written exactly with an ERR response, or the effect of the presented command. -/
theorem step_events {s t : State} (hr : s.now.rst = false) (h : step s = .next t) :
    (∃ w r, (r.err = true ↔ w = .busErr) ∧ engineCycle s (presentsShutdown s.params s.now) w r = .next t) ∨
      ∃ w i u, presented s.params s.now = .command w ∧ decode w = .ok i ∧ AcceptedEffect s u i ∧
        commandCycle s u = .next t := by
  have rej : presentsShutdown s.params s.now = false → rejectCommand s = .next t →
      ∃ w r, (r.err = true ↔ w = .busErr) ∧ engineCycle s (presentsShutdown s.params s.now) w r = .next t :=
    fun hn hj => ⟨.busErr, errResp, ⟨fun _ => rfl, fun _ => rfl⟩, by rw [hn]; exact hj⟩
  unfold step at h
  simp only [hr, Bool.false_eq_true, if_false] at h
  split at h
  · next w hp =>
    split at h
    · next i hd =>
      have hs : presentsShutdown s.params s.now = decide (i = .shutdown) := by
        simp only [presentsShutdown, hp, hd]
        cases i <;> rfl
      cases i with
      | nop => exact .inl ⟨.none, okay 0, by simp [okay], by rw [hs]; exact h⟩
      | shutdown => exact .inl ⟨.none, okay 0, by simp [okay], by rw [hs]; exact h⟩
      | encode =>
        simp only [exec, execEncode] at h
        split at h
        · next ha => exact .inr ⟨w, _, _, hp, hd, ⟨ha, rfl⟩, h⟩
        · exact .inl (rej hs h)
      | run =>
        simp only [exec, execRun] at h
        split at h
        · next ha => exact .inr ⟨w, _, _, hp, hd, ⟨ha, rfl⟩, h⟩
        · exact .inl (rej hs h)
      | start =>
        simp only [exec, execStart] at h
        split at h
        · next ha => exact .inr ⟨w, _, _, hp, hd, ⟨ha, rfl⟩, h⟩
        · exact .inl (rej hs h)
      | clear =>
        simp only [exec, execClear] at h
        split at h
        · next ha => exact .inr ⟨w, _, _, hp, hd, ⟨ha, rfl⟩, h⟩
        · exact .inl (rej hs h)
    · next hd => exact .inl (rej (by simp only [presentsShutdown, hp, hd]) h)
  · next a hp =>
    have hs : presentsShutdown s.params s.now = false := by simp only [presentsShutdown, hp]
    refine .inl ⟨accessWrite s a, accessResp s a, ?_, by rw [hs]; exact h⟩
    cases a with
    | none => simp [accessWrite, accessResp, okay]
    | read g =>
      simp only [accessWrite, accessResp]
      cases busRead s g <;> simp [errResp, okay]
    | write g v =>
      simp only [accessWrite, accessResp]
      split <;> simp_all [errResp, okay]

/-- In a busy state with the invariant, a cycle without reset is an engine cycle whatever the host presents: a command other than NOP
and SHUTDOWN is rejected (R204), and configuration is not written (R254). -/
theorem busy_step {s : State} (hi : s.Inv) (hr : s.now.rst = false) (hb : s.state.quiescent = false) :
    ∃ w r, BusWriteAllowed s w ∧ (∀ c v, w ≠ .config c v) ∧
      step s = .next ((applyBusWrite (engine s (presentsShutdown s.params s.now)) w).tick
        { bus := r, stream := streamOut s }) := by
  have hni : s.state ≠ .idle := fun e => by simp [e, SeqState.quiescent] at hb
  have nc : ∀ w, BusWriteAllowed s w → ∀ c v, w ≠ .config c v := by
    rintro w hw c v rfl
    cases hb.symm.trans hw
  have mk : ∀ w r, BusWriteAllowed s w → step s = engineCycle s (presentsShutdown s.params s.now) w r →
      ∃ w r, BusWriteAllowed s w ∧ (∀ c v, w ≠ .config c v) ∧
        step s = .next ((applyBusWrite (engine s (presentsShutdown s.params s.now)) w).tick
          { bus := r, stream := streamOut s }) :=
    fun w r hw h => ⟨w, r, hw, nc w hw, h.trans (engineCycle_inv hi _ _ _)⟩
  cases hp : presented s.params s.now with
  | access a =>
    have hsd : presentsShutdown s.params s.now = false := by simp [presentsShutdown, hp]
    refine mk _ (accessResp s a) (accessWrite_allowed hp) ?_
    unfold step
    rw [hp, hsd]
    simp only [hr]
    rfl
  | command w =>
    have hs : step s = (match decode w with | .ok i => exec i s | .error _ => illegalCommand s) := by
      unfold step
      rw [hp]
      simp only [hr]
      rfl
    cases hd : decode w with
    | error e =>
      have hsd : presentsShutdown s.params s.now = false := by simp [presentsShutdown, hp, hd]
      rw [hd] at hs
      exact mk .busErr errResp trivial (by rw [hsd]; exact hs)
    | ok i =>
      rw [hd] at hs
      cases i with
      | nop =>
        have hsd : presentsShutdown s.params s.now = false := by simp [presentsShutdown, hp, hd]
        exact mk .none (okay 0) trivial (by rw [hsd]; exact hs)
      | shutdown =>
        have hsd : presentsShutdown s.params s.now = true := by simp [presentsShutdown, hp, hd]
        exact mk .none (okay 0) trivial (by rw [hsd]; exact hs)
      | encode =>
        have hsd : presentsShutdown s.params s.now = false := by simp [presentsShutdown, hp, hd]
        refine mk .busErr errResp trivial ?_
        rw [hsd, hs]
        simp [exec, execEncode, acceptsEncode, hni, rejectCommand]
      | run =>
        have hsd : presentsShutdown s.params s.now = false := by simp [presentsShutdown, hp, hd]
        refine mk .busErr errResp trivial ?_
        rw [hsd, hs]
        simp [exec, execRun, acceptsRun, hni, rejectCommand]
      | start =>
        have hsd : presentsShutdown s.params s.now = false := by simp [presentsShutdown, hp, hd]
        refine mk .busErr errResp trivial ?_
        rw [hsd, hs]
        simp [exec, execStart, acceptsStart, hni, rejectCommand]
      | clear =>
        have hsd : presentsShutdown s.params s.now = false := by simp [presentsShutdown, hp, hd]
        refine mk .busErr errResp trivial ?_
        rw [hsd, hs]
        simp [exec, execClear, acceptsClear, hb, rejectCommand]

end Sys2Proof.Machine
end

