-- ==== Sys2Proof/Tests/Slice0.lean ====
section
/-! SUPPORT. Small tests. Expected values come from spec/: the encoding tables (30_encoding.md), the gamma table, and the vectors of
95_test_vectors.md, named in each comment. The `witness_` theorems show states that meet the hypotheses of the statements in
Certificates/Slice0/Obligations.lean, each clause at a boundary. -/

open Sys2Proof Sys2Proof.Machine

namespace Sys2Proof.Tests

/-- A finite check, element by element of a list. -/
theorem each {α : Type} {p : α → Prop} [DecidablePred p] {l : List α} (h : l.all (fun a => decide (p a)) = true) :
    ∀ a ∈ l, p a := by simpa using h

/-! ### Well-formedness: each check refuses an ill-formed instantiation (00_scope.md R5, R6) -/

theorem test_every_command_well_formed :
    ∀ i ∈ [Instr.nop, .encode, .run, .start, .shutdown, .clear], i.wellFormed = true := by decide

theorem test_ledsInRange_refuses :
    Params.ledsInRange { Config.ref with pMaxLeds := 0 } = false ∧
      Params.ledsInRange { Config.ref with pMaxLeds := 65536 } = false ∧ Params.ledsInRange Config.ref = true := by decide

theorem test_widthInRange_refuses :
    Params.widthInRange { Config.ref with pMaxWidth := 0 } = false ∧
      Params.widthInRange { Config.ref with pMaxWidth := 65536 } = false ∧ Params.widthInRange Config.ref = true := by decide

theorem test_tickInRange_refuses :
    Params.tickInRange { Config.ref with pTickCycles := 0 } = false ∧
      Params.tickInRange { Config.ref with pTickCycles := 4294967296 } = false ∧ Params.tickInRange Config.ref = true := by
  decide

theorem test_pixelsFit_refuses :
    Params.pixelsFit { pMaxLeds := 2049, pMaxWidth := 2048, pTickCycles := 1 } = false ∧
      Params.pixelsFit { pMaxLeds := 2048, pMaxWidth := 2048, pTickCycles := 1 } = true := by decide

theorem test_columnsFit_refuses :
    Params.columnsFit { pMaxLeds := 341, pMaxWidth := 4097, pTickCycles := 1 } = false ∧
      Params.columnsFit { pMaxLeds := 341, pMaxWidth := 4096, pTickCycles := 1 } = true ∧
      Params.legal { pMaxLeds := 341, pMaxWidth := 4097, pTickCycles := 1 } = false := by decide

/-! ### Decoding: words written out from R101 and R102, the ignored bits [31:4] all 0, all 1 or mixed -/

theorem test_decode_nop : decode 0b00000000000000000000000000000000 = .ok .nop := rfl
theorem test_decode_nop_ignored : decode 0b11111111111111111111111111110000 = .ok .nop := rfl
theorem test_decode_encode : decode 0b00000000000000000000000000000001 = .ok .encode := rfl
theorem test_decode_run : decode 0b10000000000000000000000000010010 = .ok .run := rfl
theorem test_decode_start : decode 0b00000000000000000000000000000011 = .ok .start := rfl
theorem test_decode_start_ignored : decode 0b10101010101010101010101010100011 = .ok .start := rfl
theorem test_decode_shutdown : decode 0b00000000000000010000000000000100 = .ok .shutdown := rfl
theorem test_decode_clear : decode 0b01111111111111111111111111110101 = .ok .clear := rfl

/-- R103: the ten illegal opcodes are rejected by name. -/
theorem test_decode_illegal :
    ∀ op ∈ [6, 7, 8, 9, 10, 11, 12, 13, 14, 15], ∀ high ∈ [0x00000000, 0xABCDEF0 * 16],
      decode (BitVec.ofNat 32 (high + op)) = .error (.illegalOpcode (BitVec.ofNat 4 op)) := by decide

/-- R111: `CMD START` = `WR 0x010, 0x3`. -/
theorem test_encode_start : encode .start = 0x00000003 := rfl

theorem test_table_words :
    decodeTableWord 32 0 = some .nop ∧ decodeTableWord 32 1 = some .encode ∧ decodeTableWord 32 2 = some .run ∧
      decodeTableWord 32 3 = some .start ∧ decodeTableWord 32 4 = some .shutdown ∧ decodeTableWord 32 5 = some .clear ∧
      decodeTableWord 32 6 = none ∧ decodeTableWord 8 0x105 = some .clear := by decide

/-- The corner values of R125. -/
theorem test_gamma_corners :
    gamma 0 = 0x80 ∧ gamma 27 = 0x80 ∧ gamma 28 = 0x81 ∧ gamma 118 = 0x92 ∧ gamma 119 = 0x93 ∧ gamma 128 = 0x97 ∧
      gamma 254 = 0xFE ∧ gamma 255 = 0xFF := by decide

/-! ### States of the tests -/

/-- IDLE under REF with a 1 x 1 geometry, one iteration, and a quiet environment. -/
def base : State :=
  { State.reset with
    encW := 1, encH := 1, width := 1, height := 1, maxLeds := 1, repeatCount := 1,
    inputs := List.replicate 12 PortIn.quiet }

/-- The same block in a sequencer state of a run. -/
def inState (q : SeqState) : State :=
  { base with
    state := q, encoded := decide (q ≠ .encoding), waitLeft := 1,
    errCode := if q = .error then .badConfig else .none, exitFlag := decide (q = .error) }

/-- The block after reset with a geometry in its configuration. -/
def withGeometry (w h m : Half) : State :=
  { State.reset with width := w, height := h, maxLeds := m, inputs := [PortIn.quiet] }

/-- The STATE and the bus response that a cycle leaves. -/
def seen (o : Host.Outcome State Fault Refusal) : Option (SeqState × Bool) :=
  match o with
  | .next t => some (t.state, t.out.bus.err)
  | .fault _ => none
  | .refused _ => none

/-- What STATUS reads after a cycle. -/
def statusAfter (o : Host.Outcome State Fault Refusal) : Option Word :=
  match o with
  | .next t => some (statusWord t)
  | .fault _ => none
  | .refused _ => none

theorem inState_inv (q : SeqState) : (inState q).Inv := by
  cases q <;> constructor <;> decide

theorem base_inv : base.Inv := by
  constructor <;> decide

/-! ### One cycle of each command (V-CMD, V-GEOM, V-CLEAR) -/

/-- V-CMD, the NOP column: OKAY in every state, which keeps its own transition. -/
theorem test_nop :
    seen (exec .nop (inState .idle)) = some (.idle, false) ∧ seen (exec .nop (inState .txOff)) = some (.txOff, false) ∧
      seen (exec .nop (inState .done)) = some (.done, false) := by decide

/-- V-GEOM: (width, height, MAX_LEDS) and STATUS after ENCODE. -/
theorem test_encode :
    ∀ v ∈ [((2, 3, 52), 0x1), ((1, 1, 1), 0x1), ((64, 64, 64), 0x1), ((1, 52, 52), 0x1), ((1, 53, 52), 0x247),
        ((0, 1, 1), 0x347), ((65, 1, 1), 0x347), ((1, 0, 1), 0x347), ((1, 1, 0), 0x347), ((1, 1, 65), 0x347),
        ((1, 65, 64), 0x247), ((1, 2, 0), 0x347), ((65, 70, 1), (0x347 : Word))],
      statusAfter (exec .encode (withGeometry v.1.1 v.1.2.1 v.1.2.2)) = some v.2 := each (by decide)

/-- V-CMD, the RUN column: ERR in IDLE without an encoding, OKAY with one, ERR elsewhere. -/
theorem test_run :
    seen (exec .run base) = some (.idle, true) ∧ seen (exec .run (inState .idle)) = some (.txCol, false) ∧
      seen (exec .run (inState .done)) = some (.done, true) := by decide

/-- V-GEOM: START gives ENCODE's results (STATUS 0x247 and 0x347, bit 15 clear after a failed check), and DEVICE_UNAVAILABLE beats
BAD_CONFIG (STATUS 0x147). -/
theorem test_start :
    seen (exec .start (withGeometry 2 3 52)) = some (.encoding, false) ∧
      statusAfter (exec .start (withGeometry 1 53 52)) = some 0x247 ∧
      statusAfter (exec .start (withGeometry 0 1 1)) = some 0x347 ∧
      statusAfter (exec .start ((withGeometry 0 1 1).withInput { PortIn.quiet with sinkAvail := false })) = some 0x147 := by
  decide

/-- V-CMD, the SHUTDOWN column, and V-ABORT's priority: `sig_segv` beside SHUTDOWN records SEGV (4). -/
theorem test_shutdown :
    seen (exec .shutdown (inState .idle)) = some (.txOff, false) ∧ seen (exec .shutdown (inState .done)) = some (.done, false) ∧
      statusAfter (exec .shutdown (base.withInput { PortIn.quiet with sigSegv := true })) = some 0x4015 := by decide

/-- V-CLEAR: in DONE with STATUS 0x2006, CLEAR gives STATUS 0; with the line high in the cycle of CLEAR in IDLE, ERR (R205). -/
theorem test_clear :
    statusWord { base with state := .done, signal := .term } = 0x2006 ∧
      statusAfter (exec .clear { base with state := .done, signal := .term }) = some 0 ∧
      seen (exec .clear (base.withInput { PortIn.quiet with sigTerm := true })) = some (.txOff, true) := by decide

/-- The step runs the command that the table word stands for as the first command after reset. -/
theorem test_withFetchWord :
    step (State.reset.withFetchWord 32 4) = exec .shutdown (State.reset.withFetchWord 32 4) ∧
      seen (step (State.reset.withFetchWord 32 4)) = some (.txOff, false) ∧
      seen (step (State.reset.withFetchWord 32 6)) = some (.idle, true) := ⟨rfl, by decide, by decide⟩

/-! ### One cycle of the bus and of the engine (V-BUS, V-FMT, R170) -/

/-- The response of a read. -/
def readAt (s : State) (a : Nat) : Option BusResp :=
  match step (s.withRead a) with
  | .next t => some t.out.bus
  | .fault _ => none
  | .refused _ => none

/-- V-BUS: reads of a freshly reset block. -/
theorem test_bus_reads :
    ∀ v ∈ [(0x0000000, 0x474C0001), (0x0000004, 0x00400040), (0x0000008, 1), (0x0000010, 0), (0x0000014, 0), (0x0001000, 0x80),
        (0x0001070, 0x81), (0x00013FC, (0xFF : Word))],
      readAt { State.reset with inputs := [PortIn.quiet] } v.1 = some { rdata := v.2, err := false } := by decide

/-- V-BUS: unmapped and misaligned reads. -/
theorem test_bus_errors :
    ∀ a ∈ [0x000000C, 0x00000FC, 0x0000002, 0x0001400, 0x1004000, 0x200C100, 0x3000000, 0x3FFFFFC],
      readAt { State.reset with inputs := [PortIn.quiet] } a = some { rdata := 0, err := true } := by decide

/-- V-BUS: `WR 0x1000108, 0xAB112233` stores pixel (1, 2) = (R 33, G 22, B 11). -/
theorem test_pixel_write :
    (match step (({ State.reset with inputs := [PortIn.quiet] } : State).withWrite 0x1000108 0xAB112233) with
      | .next t => decide (readPixel t 1 2 = { r := 0x33, g := 0x22, b := 0x11 })
      | .fault _ => false
      | .refused _ => false) = true := by decide

/-- X6, X11: pixel (255, 0, 0) is encoded as 80 FF 80 (blue, red, green). -/
theorem test_pixel_step :
    (match step { inState .encoding with pix := [(0x1000000, 0xFF), (0x1000001, 0), (0x1000002, 0)] } with
      | .next t => decide (t.cbm = [(0x2000000, 0x80), (0x2000004, 0xFF), (0x2000008, 0x80)])
      | .fault _ => false
      | .refused _ => false) = true := by decide

/-- V-OFF: with MAX_LEDS = 1 the off buffer is 6 bytes of 0x80, the last one marked. -/
theorem test_off_buffer :
    received 7 (inState .txOff) =
      [(0x80, false), (0x80, false), (0x80, false), (0x80, false), (0x80, false), (0x80, true)] := by decide

/-! ### Witnesses for the statements' hypotheses -/

theorem witness_DecodeAndEncodeAgree :
    Instr.run.wellFormed = true ∧ decode 0xFFFFFFF2 = .ok .run := ⟨rfl, rfl⟩

theorem witness_StepRunsTheDecodedCommand :
    (base.withWrite 0x10 0xF3).now.rst = false ∧
      presented (base.withWrite 0x10 0xF3).params (base.withWrite 0x10 0xF3).now = .command 0xF3 ∧
      decode 0xF3 = .ok .start := by decide

theorem witness_GammaMatchesTheExactIntegerForm : 1 ≤ 1 ∧ 1 ≤ 127 ∧ 1 ≤ 127 ∧ 127 ≤ 127 := by decide

theorem witness_GammaIsMonotone : (27 : Byte).toNat ≤ (28 : Byte).toNat := by decide

/-- A cycle with reset during output. -/
def resetting : State := (inState .txCol).withInput { PortIn.quiet with rst := true }

theorem witness_ResetCycleLeavesTheResetState : resetting.params.legal = true ∧ resetting.now.rst = true := by decide

theorem witness_OutputsAfterReset : resetting.now.rst = true ∧ ∃ t, step resetting = .next t := ⟨rfl, _, rfl⟩

theorem witness_InvariantHoldsAtReset : Config.ref.legal = true := by decide

theorem witness_StepKeepsTheInvariant : (inState .txCol).Inv ∧ ∃ t, step (inState .txCol) = .next t :=
  ⟨inState_inv _, _, rfl⟩

theorem witness_StepNeverStopsUnderTheInvariant : (inState .encoding).Inv := inState_inv _

theorem witness_IllegalParametersFault :
    ({ base with params := { Config.ref with pTickCycles := 0 } } : State).params.legal = false := by decide

theorem witness_ErrResponseWritesOnlyBusErr :
    (base.withRead 0x0C).now.rst = false ∧ ∃ t, step (base.withRead 0x0C) = .next t ∧ t.out.bus.err = true :=
  ⟨rfl, _, rfl, rfl⟩

/-- One address at a boundary of each of the seven clauses. -/
theorem witness_MisalignedAndUnmappedGetErr :
    (base.withRead 0x3FFFFFF).Inv ∧ (base.withRead 0x3FFFFFF).now.rst = false ∧ (base.withRead 0x3FFFFFF).now.busReq = true ∧
      (base.withRead 0x3FFFFFF).now.busAddr.toNat % 4 ≠ 0 ∧
      (∀ a ∈ [0x0C, 0x2C, 0x3C, 0x5C, 0xFC], (base.withRead a).now.busAddr.toNat < 0x100 ∧
        ∀ r : Csr, csrOffset r ≠ (base.withRead a).now.busAddr.toNat) ∧
      (∀ a ∈ [0x100, 0xFFC], 0x100 ≤ (base.withRead a).now.busAddr.toNat ∧ (base.withRead a).now.busAddr.toNat < 0x1000) ∧
      (∀ a ∈ [0x1400, 0xFFFFFC],
        0x1400 ≤ (base.withRead a).now.busAddr.toNat ∧ (base.withRead a).now.busAddr.toNat < 0x1000000) ∧
      (∀ a ∈ [0x1004000, 0x1FFFFFC],
        0x1000000 + 4 * (base.params.pMaxWidth * base.params.pMaxLeds) ≤ (base.withRead a).now.busAddr.toNat ∧
          (base.withRead a).now.busAddr.toNat < 0x2000000) ∧
      (∀ a ∈ [0x200C100, 0x2FFFFFC],
        0x2000000 + 4 * (base.params.pMaxWidth * base.params.colStride) ≤ (base.withRead a).now.busAddr.toNat ∧
          (base.withRead a).now.busAddr.toNat < 0x3000000) ∧
      (∀ a ∈ [0x3000000, 0x3FFFFFC], 0x3000000 ≤ (base.withRead a).now.busAddr.toNat) := by
  have hole : ∀ r : Csr, ∀ a ∈ [0x0C, 0x2C, 0x3C, 0x5C, 0xFC], csrOffset r ≠ (base.withRead a).now.busAddr.toNat := by
    intro r
    cases r <;> decide
  have low : ∀ a ∈ [0x0C, 0x2C, 0x3C, 0x5C, 0xFC], (base.withRead a).now.busAddr.toNat < 0x100 := by decide
  exact ⟨withInput_inv base_inv _, rfl, rfl, by decide, fun a ha => ⟨low a ha, fun r => hole r a ha⟩, by decide, by decide,
    by decide, by decide, by decide⟩

theorem witness_WindowAddressesDecodeToElements :
    Config.ref.legal = true ∧ 0 < Config.ref.pMaxWidth ∧ 63 < Config.ref.pMaxWidth ∧ 63 < Config.ref.pMaxLeds ∧
      192 < Config.ref.colStride ∧ 255 < 256 := by decide

theorem witness_ReadsHaveNoSideEffect :
    ((inState .encoding).withRead 0x2000000).now.rst = false ∧ ((inState .encoding).withRead 0x2000000).now.busReq = true ∧
      ((inState .encoding).withRead 0x2000000).now.busWe = false ∧
      ∃ t, step ((inState .encoding).withRead 0x2000000) = .next t := ⟨rfl, rfl, rfl, _, rfl⟩

theorem witness_RegisterReadsReturnTheirWord : (inState .waitLoop).Inv ∧ (inState .waitLoop).now.rst = false :=
  ⟨inState_inv _, rfl⟩

theorem witness_LutWindowReadsTheTable :
    (inState .encoding).Inv ∧ (inState .encoding).now.rst = false ∧ 0 < 256 ∧ 255 < 256 :=
  ⟨inState_inv _, rfl, by decide, by decide⟩

theorem witness_ColumnWindowReadsTheBuffers :
    (inState .txCol).Inv ∧ (inState .txCol).now.rst = false ∧ 63 < (inState .txCol).params.pMaxWidth ∧
      192 < (inState .txCol).params.colStride := ⟨inState_inv _, rfl, by decide, by decide⟩

theorem witness_PixelWindowStoresAndReadsPixels :
    ((inState .txCol).Inv ∧ (inState .txCol).now.rst = false ∧ 63 < (inState .txCol).params.pMaxWidth ∧
        63 < (inState .txCol).params.pMaxLeds ∧ (inState .txCol).state ≠ .encoding) ∧
      ((inState .encoding).Inv ∧ (inState .encoding).now.rst = false ∧ 0 < (inState .encoding).params.pMaxWidth ∧
        0 < (inState .encoding).params.pMaxLeds ∧ (inState .encoding).state = .encoding) :=
  ⟨⟨inState_inv _, rfl, by decide, by decide, by decide⟩, inState_inv _, rfl, by decide, by decide, rfl⟩

theorem witness_QuiescentConfigurationWritesStore :
    ∀ q ∈ [SeqState.idle, .done, .error],
      (inState q).Inv ∧ (inState q).now.rst = false ∧
        ((inState q).state = .idle ∨ (inState q).state = .done ∨ (inState q).state = .error) :=
  fun q hq => ⟨inState_inv q, rfl, by revert q; decide⟩

theorem witness_ConfigurationIsFrozenWhileBusy :
    (∀ q ∈ [SeqState.encoding, .txCol, .waitCol, .waitLoop, .txOff], (inState q).now.rst = false ∧
        ((inState q).state = .encoding ∨ (inState q).state = .txCol ∨ (inState q).state = .waitCol ∨
          (inState q).state = .waitLoop ∨ (inState q).state = .txOff)) ∧
      (∃ t, step (inState .txOff) = .next t) ∧
      ∃ t, step ((inState .txOff).withWrite (csrOffset (configCsr .maxLeds)) 2) = .next t :=
  ⟨by decide, ⟨_, rfl⟩, _, rfl⟩

theorem witness_NopHasNoEffect :
    (base.Inv ∧ base.now.rst = false) ∧
      ∀ q ∈ [SeqState.idle, .done, .error],
        (inState q).params.legal = true ∧
          ((inState q).state = .idle ∨ (inState q).state = .done ∨ (inState q).state = .error) ∧
          abortTaken (inState q) false = false := ⟨⟨base_inv, rfl⟩, by decide⟩

/-- The boundaries of the three clauses under REF. -/
theorem witness_EncodeLatchesTheGeometryOrFails :
    (∀ g ∈ [((1, 1, 1) : Half × Half × Half), (64, 64, 64), (0, 1, 1), (65, 1, 1), (1, 0, 1), (1, 1, 0), (1, 1, 65), (1, 2, 1),
        (64, 65, 64)],
      (withGeometry g.1 g.2.1 g.2.2).params.legal = true ∧ (withGeometry g.1 g.2.1 g.2.2).state = .idle ∧
        abortTaken (withGeometry g.1 g.2.1 g.2.2) false = false) ∧
      (∀ g ∈ [((1, 1, 1) : Half × Half × Half), (64, 64, 64)],
        1 ≤ g.1.toNat ∧ g.1.toNat ≤ 64 ∧ 1 ≤ g.2.1.toNat ∧ 1 ≤ g.2.2.toNat ∧ g.2.2.toNat ≤ 64 ∧
          g.2.1.toNat ≤ g.2.2.toNat) ∧
      (∀ g ∈ [((0, 1, 1) : Half × Half × Half), (65, 1, 1), (1, 0, 1), (1, 1, 0), (1, 1, 65)],
        g.1.toNat = 0 ∨ 64 < g.1.toNat ∨ g.2.1.toNat = 0 ∨ g.2.2.toNat = 0 ∨ 64 < g.2.2.toNat) ∧
      ∀ g ∈ [((1, 2, 1) : Half × Half × Half), (64, 65, 64)],
        1 ≤ g.1.toNat ∧ g.1.toNat ≤ 64 ∧ 1 ≤ g.2.1.toNat ∧ 1 ≤ g.2.2.toNat ∧ g.2.2.toNat ≤ 64 ∧
          g.2.2.toNat < g.2.1.toNat := ⟨each (by decide), each (by decide), each (by decide), each (by decide)⟩

/-- RUN's states: IDLE with an encoding, (ENC_H, MAX_LEDS, `sink_avail`). -/
def runnable (h m : Half) (avail : Bool) : State :=
  { inState .idle with encH := h, maxLeds := m, inputs := [{ PortIn.quiet with sinkAvail := avail }] }

theorem witness_RunStartsOutputOrFails :
    (∀ g ∈ [((1, 1, true) : Half × Half × Bool), (64, 64, true), (1, 1, false), (1, 0, true), (1, 65, true), (2, 1, true)],
      (runnable g.1 g.2.1 g.2.2).params.legal = true ∧ (runnable g.1 g.2.1 g.2.2).state = .idle ∧
        (runnable g.1 g.2.1 g.2.2).encoded = true ∧ abortTaken (runnable g.1 g.2.1 g.2.2) false = false ∧
        (runnable g.1 g.2.1 g.2.2).now.sinkAvail = g.2.2) ∧
      (1 ≤ (1 : Half).toNat ∧ (1 : Half).toNat ≤ 64 ∧ (1 : Half).toNat ≤ (1 : Half).toNat) ∧
      ((0 : Half).toNat = 0 ∧ 64 < (65 : Half).toNat) ∧ (1 : Half).toNat < (2 : Half).toNat := ⟨each (by decide), by decide⟩

theorem witness_StartStartsTheWholeRunOrFails :
    (∀ g ∈ [((1, 1, 1) : Half × Half × Half), (64, 64, 64), (0, 1, 1), (65, 1, 1), (1, 0, 1), (1, 1, 0), (1, 1, 65), (1, 2, 1)],
      (withGeometry g.1 g.2.1 g.2.2).params.legal = true ∧ (withGeometry g.1 g.2.1 g.2.2).state = .idle ∧
        abortTaken (withGeometry g.1 g.2.1 g.2.2) false = false ∧ (withGeometry g.1 g.2.1 g.2.2).now.sinkAvail = true) ∧
      ((base.withInput { PortIn.quiet with sinkAvail := false }).now.sinkAvail = false ∧
        abortTaken (base.withInput { PortIn.quiet with sinkAvail := false }) false = false) := ⟨each (by decide), by decide⟩

theorem witness_ShutdownGoesToTheOffBuffer :
    ∀ q ∈ [SeqState.idle, .encoding, .waitCol, .waitLoop],
      (inState q).params.legal = true ∧ (inState q).abortPend = false ∧
        ((inState q).state = .idle ∨ (inState q).state = .encoding ∨ (inState q).state = .waitCol ∨
          (inState q).state = .waitLoop) := by decide

/-- TX_COL with an abort pending. -/
def pendingAbort : State := { inState .txCol with abortPend := true, signal := .hup }

theorem pendingAbort_inv : pendingAbort.Inv := by constructor <;> decide

theorem witness_ShutdownElsewhere :
    ((∀ q ∈ [SeqState.txOff, .done, .error], (inState q).Inv ∧ (inState q).now.rst = false) ∧
        (pendingAbort.Inv ∧ pendingAbort.now.rst = false ∧ pendingAbort.abortPend = true) ∧
        (((inState .txCol).withInput { PortIn.quiet with sinkErr := true }).Inv ∧
          ((inState .txCol).withInput { PortIn.quiet with sinkErr := true }).now.sinkErr = true)) ∧
      ((inState .txCol).Inv ∧ (inState .txCol).state = .txCol ∧ (inState .txCol).abortPend = false ∧
        (inState .txCol).now.sinkErr = false) :=
  ⟨⟨fun q _ => ⟨inState_inv q, rfl⟩, ⟨pendingAbort_inv, rfl, rfl⟩, withInput_inv (inState_inv _) _, rfl⟩, inState_inv _, rfl,
    rfl, rfl⟩

theorem witness_ClearLeavesTheTerminalState :
    ∀ q ∈ [SeqState.idle, .done, .error],
      (inState q).params.legal = true ∧ abortTaken (inState q) false = false ∧
        ((inState q).state = .idle ∨ (inState q).state = .done ∨ (inState q).state = .error) := by decide

/-- Every command has a state that accepts it, and one that does not where the table has one. -/
theorem witness_CommandsAreAcceptedAsTheTableSays :
    ((inState .idle).Inv ∧ (inState .idle).now.rst = false ∧ (inState .idle).state = .idle ∧ (inState .idle).encoded = true ∧
        abortTaken (inState .idle) false = false) ∧
      ((inState .txCol).Inv ∧ (inState .txCol).now.rst = false ∧ (inState .txCol).state ≠ .idle ∧
        (inState .txCol).state ≠ .done ∧ (inState .txCol).state ≠ .error) :=
  ⟨⟨inState_inv _, rfl, rfl, rfl, by decide⟩, inState_inv _, rfl, by decide, by decide, by decide⟩

theorem witness_IllegalOpcodesAreRejected :
    (inState .error).Inv ∧ (inState .error).now.rst = false ∧ 6 ≤ (6 : Word).toNat % 16 ∧ 6 ≤ (0xFF : Word).toNat % 16 :=
  ⟨inState_inv _, rfl, by decide, by decide⟩

theorem witness_PixelStepWritesTheFormattedPixel :
    (inState .encoding).params.legal = true ∧ (inState .encoding).state = .encoding ∧
      (inState .encoding).encY.toNat < (inState .encoding).encH.toNat ∧
      (inState .encoding).encX.toNat < (inState .encoding).params.pMaxWidth ∧
      (inState .encoding).encY.toNat < (inState .encoding).params.pMaxLeds ∧ (inState .encoding).now.rst = false ∧
      (inState .encoding).now.busReq = false ∧ abortTaken (inState .encoding) false = false := by decide

/-- The trailing step: of a column before the last (W = 2), of the last after ENCODE, and of the last after START. -/
theorem witness_TrailingStepEndsTheColumn :
    ∀ v ∈ [((2, false) : Half × Bool), (1, false), (1, true)],
      let s : State := { inState .encoding with encY := 1, encW := v.1, runAfterEnc := v.2 }
      s.params.legal = true ∧ s.state = .encoding ∧ s.encY.toNat = s.encH.toNat ∧ s.encX.toNat < s.params.pMaxWidth ∧
        s.encH.toNat ≤ s.params.pMaxLeds ∧ s.now.rst = false ∧ s.now.busReq = false ∧ abortTaken s false = false ∧
        (s.encX.toNat + 1 < s.encW.toNat ∨ s.encW.toNat ≤ s.encX.toNat + 1 ∧ s.runAfterEnc = v.2) := each (by decide)

theorem witness_EncodingBuildsEveryColumnBuffer :
    (inState .encoding).Inv ∧ (inState .encoding).state = .encoding ∧ (inState .encoding).encX = 0 ∧
      (inState .encoding).encY = 0 ∧
      (inState .encoding).encW.toNat * ((inState .encoding).encH.toNat + 1) ≤ (inState .encoding).inputs.length ∧
      ∀ i ∈ (inState .encoding).inputs.take ((inState .encoding).encW.toNat * ((inState .encoding).encH.toNat + 1)),
        undisturbed (inState .encoding).params i = true :=
  ⟨inState_inv _, rfl, rfl, rfl, by decide, by decide⟩

/-- TX_COL with given input ports and TX_IDX. -/
def columnByte (k : BitVec 32) (i : PortIn) : State := { (inState .txCol).withInput i with txIdx := k }

/-- The clauses without an abort, at the first byte, the one before the last and the last; then an abort line at each of them, the
last one stalled. -/
theorem witness_ColumnByteCycle :
    (∀ v ∈ [((0, PortIn.quiet) : BitVec 32 × PortIn), (2, PortIn.quiet), (3, { PortIn.quiet with sinkErr := true }),
        (3, { PortIn.quiet with outReady := false })],
      let s := columnByte v.1 v.2
      s.params.legal = true ∧ s.state = .txCol ∧ s.curCol.toNat < s.params.pMaxWidth ∧ s.txIdx.toNat < s.params.colStride ∧
        s.now.rst = false ∧ s.now.busReq = false ∧ abortTaken s false = false ∧
        (s.now.sinkErr = true ∨ s.now.sinkErr = false ∧ s.now.outReady = true ∧ s.txIdx.toNat < 3 * s.encH.toNat ∨
          s.now.sinkErr = false ∧ s.now.outReady = false)) ∧
      ∀ v ∈ [((0, { PortIn.quiet with sigInt := true }) : BitVec 32 × PortIn), (2, { PortIn.quiet with sigSegv := true }),
          (3, { PortIn.quiet with sigHup := true, outReady := false })],
        let s := columnByte v.1 v.2
        s.params.legal = true ∧ s.state = .txCol ∧ s.txIdx.toNat < s.params.colStride ∧ s.abortPend = false ∧
          s.now.sinkErr = false ∧ abortTaken s false = true ∧
          (s.now.outReady = false ∨ s.txIdx.toNat < 3 * s.encH.toNat) := ⟨each (by decide), each (by decide)⟩

/-- The last byte of a column of a 2 x 1 image. -/
def lastByte : State := { inState .txCol with encW := 2, txIdx := 3 }

theorem lastByte_inv : lastByte.Inv := by constructor <;> decide

theorem witness_ColumnEndCycle :
    (lastByte.Inv ∧ lastByte.state = .txCol ∧ lastByte.txIdx.toNat = 3 * lastByte.encH.toNat ∧ lastByte.now.rst = false ∧
        lastByte.now.busReq = false ∧ lastByte.now.sinkErr = false ∧ lastByte.now.outReady = true) ∧
      ({ lastByte with abortPend := true, signal := .int } : State).Inv ∧
      ((lastByte.withInput { PortIn.quiet with sigTerm := true }).Inv ∧
        abortTaken (lastByte.withInput { PortIn.quiet with sigTerm := true }) false = true) ∧
      (({ lastByte with colDelay := 1 } : State).Inv ∧ abortTaken { lastByte with colDelay := 1 } false = false ∧
        0 < ({ lastByte with colDelay := 1 } : State).colDelay.toNat) ∧
      (lastByte.abortPend = false ∧ abortTaken lastByte false = false ∧ lastByte.colDelay.toNat = 0 ∧
        lastByte.curCol.toNat + 1 < lastByte.encW.toNat) :=
  ⟨⟨lastByte_inv, by decide⟩, by constructor <;> decide, ⟨withInput_inv lastByte_inv _, by decide⟩,
    ⟨{ lastByte_inv with }, by decide⟩, by decide⟩

theorem witness_ColumnDelayCycle :
    ∀ v ∈ [((2, 1) : BitVec 64 × Half), (1, 2)],
      let s : State := { inState .waitCol with waitLeft := v.1, encW := v.2 }
      s.params.legal = true ∧ s.state = .waitCol ∧ s.now.rst = false ∧ s.now.busReq = false ∧ abortTaken s false = false ∧
        (1 < s.waitLeft.toNat ∨ s.waitLeft.toNat = 1 ∧ s.curCol.toNat + 1 < s.encW.toNat) := each (by decide)

/-- The last byte of the last column, COLDELAY 0, with (REPEAT, BLANK, LOOPDELAY). -/
def iterationEnd (v : Word × Bool × Word) : State :=
  { inState .txCol with txIdx := 3, repeatCount := v.1, blank := v.2.1, loopDelay := v.2.2 }

theorem iterationEnd_inv (v : Word × Bool × Word) : (iterationEnd v).Inv :=
  { inState_inv .txCol with
    column_byte := fun _ => by show (3 : BitVec 32).toNat ≤ 3; decide
    off_byte := fun h => by cases h
    iterations_left := fun _ h => Nat.pos_of_ne_zero h }

/-- (REPEAT, BLANK, LOOPDELAY) for the three clauses, infinite mode among them; the other hypotheses of the second way to the end of
an iteration hold for all of them. -/
theorem witness_EndOfIterationCycle :
    (∀ v ∈ [((1, false, 0) : Word × Bool × Word), (1, true, 5), (2, true, 1), (0, true, 1), (0, false, 1), (2, true, 0)],
      let s : State := { inState .waitCol with repeatCount := v.1, blank := v.2.1, loopDelay := v.2.2 }
      s.params.legal = true ∧ s.state = .waitCol ∧ s.now.rst = false ∧ s.now.busReq = false ∧ abortTaken s false = false ∧
        s.waitLeft.toNat = 1 ∧ s.encW.toNat ≤ s.curCol.toNat + 1 ∧
        ((s.repeatCount.toNat ≠ 0 ∧ s.iter.toNat + 1 = s.repeatCount.toNat) ∨
          (s.repeatCount.toNat = 0 ∨ s.iter.toNat + 1 ≠ s.repeatCount.toNat) ∧
            ((s.blank = true ∧ 0 < s.loopDelay.toNat) ∨ (s.blank = false ∨ s.loopDelay.toNat = 0)))) ∧
      ∀ v : Word × Bool × Word,
        (iterationEnd v).Inv ∧ (iterationEnd v).state = .txCol ∧
          (iterationEnd v).txIdx.toNat = 3 * (iterationEnd v).encH.toNat ∧ (iterationEnd v).now.sinkErr = false ∧
          (iterationEnd v).now.outReady = true ∧ (iterationEnd v).abortPend = false ∧
          abortTaken (iterationEnd v) false = false ∧ (iterationEnd v).colDelay.toNat = 0 ∧
          (iterationEnd v).encW.toNat = (iterationEnd v).curCol.toNat + 1 :=
  ⟨each (by decide), fun v => ⟨iterationEnd_inv v, rfl, rfl, rfl, rfl, rfl, rfl, rfl, rfl⟩⟩

theorem witness_LoopDelayCycle :
    ∀ v ∈ [(1 : BitVec 64), 2],
      let s : State := { inState .waitLoop with waitLeft := v }
      s.params.legal = true ∧ s.state = .waitLoop ∧ s.now.rst = false ∧ s.now.busReq = false ∧ abortTaken s false = false ∧
        (1 < s.waitLeft.toNat ∨ s.waitLeft.toNat = 1) := each (by decide)

theorem witness_OffByteCycle :
    ∀ v ∈ [((0, PortIn.quiet) : BitVec 32 × PortIn), (4, PortIn.quiet), (5, PortIn.quiet),
        (5, { PortIn.quiet with sinkErr := true }), (5, { PortIn.quiet with outReady := false })],
      let s : State := { (inState .txOff).withInput v.2 with txIdx := v.1 }
      s.params.legal = true ∧ s.state = .txOff ∧ s.now.rst = false ∧ s.now.busReq = false ∧
        (s.now.sinkErr = true ∨ s.now.sinkErr = false ∧ s.now.outReady = false ∨
          s.now.sinkErr = false ∧ s.now.outReady = true ∧
            (s.txIdx.toNat < 3 * s.maxLeds.toNat + 2 ∨ 3 * s.maxLeds.toNat + 2 ≤ s.txIdx.toNat)) := by decide

theorem witness_OffBufferIsSentWhole :
    (inState .txOff).Inv ∧ (inState .txOff).state = .txOff ∧ (inState .txOff).txIdx = 0 ∧
      3 * (inState .txOff).maxLeds.toNat + 3 ≤ (inState .txOff).inputs.length ∧
      ∀ i ∈ (inState .txOff).inputs.take (3 * (inState .txOff).maxLeds.toNat + 3), i.rst = false ∧ sinkReady i = true :=
  ⟨inState_inv _, rfl, rfl, by decide, by decide⟩

/-- The off buffer with given input ports. -/
def offering (i : PortIn) : State := (inState .txOff).withInput i

/-- A stalled byte, a sink failure, and a reset. -/
theorem witness_OfferIsStable :
    ((streamOut (offering { PortIn.quiet with outReady := false })).valid = true ∧
        handshake (offering { PortIn.quiet with outReady := false }) = false ∧
        ∃ t, step (offering { PortIn.quiet with outReady := false }) = .next t) ∧
      (handshake (offering { PortIn.quiet with sinkErr := true }) = false ∧
        ∃ t, step (offering { PortIn.quiet with sinkErr := true }) = .next t) ∧
      handshake (offering { PortIn.quiet with rst := true }) = false ∧
      ∃ t, step (offering { PortIn.quiet with rst := true }) = .next t :=
  ⟨⟨rfl, by decide, _, rfl⟩, ⟨by decide, _, rfl⟩, by decide, _, rfl⟩

theorem witness_BoundedRunSendsEveryIterationThenOneOffBuffer :
    (inState .txCol).Inv ∧ (inState .txCol).state = .txCol ∧ (inState .txCol).curCol = 0 ∧ (inState .txCol).txIdx = 0 ∧
      (inState .txCol).iter = 0 ∧ (inState .txCol).abortPend = false ∧ 1 ≤ (inState .txCol).repeatCount.toNat ∧
      boundedRunCycles (inState .txCol) (inState .txCol).repeatCount.toNat ≤ (inState .txCol).inputs.length ∧
      ∀ i ∈ (inState .txCol).inputs.take (boundedRunCycles (inState .txCol) (inState .txCol).repeatCount.toNat),
        undisturbed (inState .txCol).params i = true ∧ sinkReady i = true :=
  ⟨inState_inv _, rfl, rfl, rfl, rfl, rfl, by decide, by decide, by decide⟩

/-- Infinite mode, the cycle of an abort. -/
def abortedInfinite : State :=
  { (inState .waitLoop).withInput { PortIn.quiet with sigInt := true } with repeatCount := 0 }

theorem witness_InfiniteModeEndsOnlyByAbort :
    abortedInfinite.repeatCount = 0 ∧ abortedInfinite.state ≠ .txOff ∧
      ∃ t, step abortedInfinite = .next t ∧ t.state = .txOff := ⟨rfl, by decide, _, rfl, rfl⟩

theorem witness_MemoriesAreWrittenOnlyWhereAllowed :
    (∃ t, step (inState .txCol) = .next t ∧ (inState .txCol).state ≠ .encoding) ∧
      ∃ t, step ((inState .idle).withWrite 0x1000000 1) = .next t ∧ t.pix ≠ ((inState .idle).withWrite 0x1000000 1).pix :=
  ⟨⟨_, rfl, by decide⟩, _, rfl, by decide⟩

theorem witness_PixelsDoNotReachTheStream :
    (inState .txCol).state ≠ .encoding ∧
      (∀ x y, presented (inState .txCol).params (inState .txCol).now ≠ .access (.read (.pixel x y))) ∧
      (∀ x y v, presented (inState .txCol).params (inState .txCol).now ≠ .access (.write (.pixel x y) v)) ∧
      ∃ t, step (inState .txCol) = .next t := by
  have h : presented (inState .txCol).params (inState .txCol).now = .access .none := rfl
  refine ⟨by decide, fun x y => ?_, fun x y v => ?_, _, rfl⟩
  · rw [h]
    simp
  · rw [h]
    simp

theorem witness_SinkErrActsOnlyInOutputStates : (inState .idle).state ≠ .txCol ∧ (inState .idle).state ≠ .txOff := by decide

/-- No RUN and no START is accepted in the cycle: none is presented, or one is presented where it is rejected. -/
theorem witness_SinkAvailIsSampledOnlyByRunAndStart :
    presented base.params base.now = .access .none ∧
      presented base.params (base.withWrite 0x10 2).now = .command 2 ∧ decode 2 = .ok .run ∧
      acceptsRun (base.withWrite 0x10 2) = false := by decide

theorem witness_AbortGoesToTheOffBuffer :
    ∀ q ∈ [SeqState.idle, .encoding, .waitCol, .waitLoop],
      let s := (inState q).withInput { PortIn.quiet with sigSegv := true }
      s.params.legal = true ∧ (s.state = .idle ∨ s.state = .encoding ∨ s.state = .waitCol ∨ s.state = .waitLoop) ∧
        s.abortPend = false ∧ s.now.rst = false ∧ s.now.busReq = false ∧
        (s.now.sigInt = true ∨ s.now.sigTerm = true ∨ s.now.sigHup = true ∨ s.now.sigSegv = true) := by decide

theorem witness_AbortInAColumnFinishesItThenSendsOneOffBuffer :
    (pendingAbort.Inv ∧ pendingAbort.state = .txCol ∧ pendingAbort.abortPend = true ∧
        3 * pendingAbort.encH.toNat + 1 - pendingAbort.txIdx.toNat + (3 * pendingAbort.maxLeds.toNat + 3) ≤
          pendingAbort.inputs.length ∧
        ∀ i ∈ pendingAbort.inputs, i.rst = false ∧ sinkReady i = true) ∧
      (lastByte.withInput { PortIn.quiet with sigHup := true }).Inv ∧
      abortTaken (lastByte.withInput { PortIn.quiet with sigHup := true })
        (presentsShutdown lastByte.params (lastByte.withInput { PortIn.quiet with sigHup := true }).now) = true :=
  ⟨⟨pendingAbort_inv, rfl, rfl, by decide, by decide⟩, withInput_inv lastByte_inv _, by decide⟩

theorem witness_AbortRequestsAreIgnoredWhereNoneIsTaken :
    (inState .txOff).state = .txOff ∧ (inState .done).state = .done ∧ (inState .error).state = .error ∧
      pendingAbort.abortPend = true := by decide

theorem witness_SinkFailureEntersError :
    (∀ q ∈ [SeqState.txCol, .txOff],
        ((inState q).withInput { PortIn.quiet with sinkErr := true }).Inv ∧
          ((inState q).withInput { PortIn.quiet with sinkErr := true }).now.rst = false ∧
          ((inState q).withInput { PortIn.quiet with sinkErr := true }).now.sinkErr = true) ∧
      ∃ t, step ((inState .error).withWrite 0x10 5) = .next t ∧ (inState .error).state = .error ∧ t.state ≠ .error :=
  ⟨fun q _ => ⟨withInput_inv (inState_inv q) _, rfl, rfl⟩, _, rfl, rfl, by decide⟩

theorem witness_TerminalStatesAreLeftOnlyByClearOrReset :
    (∃ t, step (inState .done) = .next t ∧ (inState .done).state = .done) ∧
      ∃ t, step ((inState .error).withWrite 0x10 5) = .next t ∧ t.state = .idle := ⟨⟨_, rfl, rfl⟩, _, rfl, rfl⟩

/-- The last byte of the off buffer. -/
def lastOffByte : State := { inState .txOff with txIdx := 5 }

theorem witness_DoneIsReachedOnlyThroughTheOffBuffer :
    lastOffByte.state ≠ .done ∧ ∃ t, step lastOffByte = .next t ∧ t.state = .done := ⟨by decide, _, rfl, rfl⟩

/-- TX_OFF after an abort, at its last byte. -/
def abortedOff : State := { inState .txOff with txIdx := 5, abortPend := true, signal := .term }

/-- Cycles in which flags are set (an ERR response, an abort, a failed command, START, the end of an encoding), and cycles in which
they are cleared (CLEAR, the end of the off buffer, START). -/
theorem witness_StatusFlagsChangeOnlyByTheirEvents :
    (∃ t, step (base.withRead 0x0C) = .next t ∧ base.busErr = false ∧ t.busErr = true) ∧
      (∃ t, step (base.withInput { PortIn.quiet with sigInt := true }) = .next t ∧ base.abortPend = false ∧
        t.abortPend = true ∧ base.signal ≠ t.signal) ∧
      (∃ t, step ((withGeometry 0 1 1).withWrite 0x10 3) = .next t ∧ (withGeometry 0 1 1).exitFlag = false ∧
        t.exitFlag = true ∧ t.errCode ≠ (withGeometry 0 1 1).errCode) ∧
      (∃ t, step ((inState .idle).withWrite 0x10 3) = .next t ∧ (inState .idle).encoded = true ∧ t.encoded = false ∧
        t.runAfterEnc ≠ (inState .idle).runAfterEnc) ∧
      (∃ t, step { inState .encoding with encY := 1 } = .next t ∧ (inState .encoding).encoded = false ∧ t.encoded = true) ∧
      (∃ t, step { base with busErr := true, signal := .term, inputs := [PortIn.quiet.withCommand 5] } = .next t ∧
        t.busErr = false ∧ t.signal ≠ .term) ∧
      (∃ t, step ((inState .error).withWrite 0x10 5) = .next t ∧ (inState .error).exitFlag = true ∧ t.exitFlag = false) ∧
      ∃ t, step abortedOff = .next t ∧ abortedOff.abortPend = true ∧ t.abortPend = false :=
  ⟨⟨_, rfl, rfl, rfl⟩, ⟨_, rfl, rfl, rfl, by decide⟩, ⟨_, rfl, rfl, rfl, by decide⟩, ⟨_, rfl, rfl, rfl, by decide⟩,
    ⟨_, rfl, rfl, rfl⟩, ⟨_, rfl, rfl, by decide⟩, ⟨_, rfl, rfl, rfl⟩, _, rfl, rfl, rfl⟩

end Sys2Proof.Tests
end

