-- ==== Sys2Proof/Proofs/Address.lean ====
section
/-! The facts about the address decoder and the words of the windows (20_memory.md R72, R75, R76, R79 to R81). -/

namespace Sys2Proof.Machine

/-! ### Unmapped addresses -/

/-- The register found at a CSR offset is at that offset (R26). -/
theorem csrOffset_of_csrAt {a : Nat} {r : Csr} (h : csrAt a = some r) : csrOffset r = a := by
  unfold csrAt at h
  split at h <;> cases h <;> rfl

theorem decodeAddress_misaligned {p : Params} {a : BitVec 26} (h : a.toNat % 4 ≠ 0) :
    decodeAddress p a = .misaligned := by
  simp only [decodeAddress]
  exact if_pos h

/-- The addresses that select nothing, aligned or not (R72, R76). -/
def UnmappedAddress (p : Params) (a : Nat) : Prop :=
  (a < 0x100 ∧ ∀ r : Csr, csrOffset r ≠ a) ∨ (0x100 ≤ a ∧ a < 0x1000) ∨ (0x1400 ≤ a ∧ a < 0x1000000) ∨
    (0x1000000 + 4 * (p.pMaxWidth * p.pMaxLeds) ≤ a ∧ a < 0x2000000) ∨
    (0x2000000 + 4 * (p.pMaxWidth * p.colStride) ≤ a ∧ a < 0x3000000) ∨ 0x3000000 ≤ a

/-- An aligned unmapped address decodes as such (R76). -/
theorem decodeAddress_unmapped {p : Params} {a : BitVec 26} (h : a.toNat % 4 = 0) (hu : UnmappedAddress p a.toNat) :
    decodeAddress p a = .unmapped := by
  unfold UnmappedAddress at hu
  simp only [decodeAddress, windowIndex]
  split
  · next h' => exact absurd h h'
  split
  · next hc =>
    split
    · next r hr =>
      have := csrOffset_of_csrAt hr
      have hno : ∀ r : Csr, csrOffset r ≠ a.toNat := by
        rcases hu with ⟨_, hno⟩ | hu
        · exact hno
        · omega
      exact absurd this (hno r)
    · rfl
  split
  · omega
  split
  · exact if_neg (by omega)
  split
  · exact if_neg (by omega)
  · rfl

/-! ### The elements of the windows -/

/-- Word i of the LUT window selects entry i (R79). -/
theorem decodeAddress_lut (p : Params) {i : Nat} (h : i < 256) :
    decodeAddress p (BitVec.ofNat 26 (0x1000 + 4 * i)) = .lut i := by
  have ha : (BitVec.ofNat 26 (0x1000 + 4 * i)).toNat = 0x1000 + 4 * i := by
    rw [BitVec.toNat_ofNat]
    omega
  simp only [decodeAddress, windowIndex, ha]
  rw [if_neg (by omega), if_neg (by omega), if_pos (by omega)]
  congr
  omega

/-- An element's row and place in it, from its index in a memory with rows of n elements. -/
theorem index_div_mod {x k n : Nat} (hk : k < n) : (x * n + k) / n = x ∧ (x * n + k) % n = k := by
  rw [Nat.mul_comm, Nat.mul_add_div (by omega), Nat.mul_add_mod, Nat.div_eq_of_lt hk, Nat.mod_eq_of_lt hk]
  simp

/-- The word of pixel (x, y) selects it (R80). -/
theorem decodeAddress_pixelAddr {p : Params} (hp : p.legal = true) {x y : Nat} (hx : x < p.pMaxWidth)
    (hy : y < p.pMaxLeds) : decodeAddress p (BitVec.ofNat 26 (pixelAddr p x y)) = .pixel x y := by
  obtain ⟨_, _, _, _, _, _, hfit, _⟩ := legal_bounds hp
  have hi := index_lt hx hy
  have ha : (BitVec.ofNat 26 (pixelAddr p x y)).toNat = 0x1000000 + 4 * (x * p.pMaxLeds + y) := by
    rw [BitVec.toNat_ofNat, pixelAddr]
    omega
  have hw : windowIndex 0x1000000 (0x1000000 + 4 * (x * p.pMaxLeds + y)) = x * p.pMaxLeds + y := by
    unfold windowIndex
    omega
  obtain ⟨hdiv, hmod⟩ := index_div_mod (x := x) hy
  simp only [decodeAddress, ha, hw]
  rw [if_neg (by omega), if_neg (by omega), if_neg (by omega), if_pos (by omega), if_pos hi, hdiv, hmod]

/-- The word of byte k of column x selects it (R81). -/
theorem decodeAddress_columnAddr {p : Params} (hp : p.legal = true) {x k : Nat} (hx : x < p.pMaxWidth)
    (hk : k < p.colStride) : decodeAddress p (BitVec.ofNat 26 (columnAddr p x k)) = .column x k := by
  obtain ⟨_, _, _, _, _, _, _, hfit⟩ := legal_bounds hp
  have hi := index_lt hx hk
  have ha : (BitVec.ofNat 26 (columnAddr p x k)).toNat = 0x2000000 + 4 * (x * p.colStride + k) := by
    rw [BitVec.toNat_ofNat, columnAddr]
    omega
  have hw : windowIndex 0x2000000 (0x2000000 + 4 * (x * p.colStride + k)) = x * p.colStride + k := by
    unfold windowIndex
    omega
  obtain ⟨hdiv, hmod⟩ := index_div_mod (x := x) hk
  simp only [decodeAddress, ha, hw]
  rw [if_neg (by omega), if_neg (by omega), if_neg (by omega), if_neg (by omega), if_pos (by omega), if_pos hi, hdiv,
    hmod]

/-! ### The words of the windows -/

/-- A BYTE32 word is its byte zero-extended (R105). -/
theorem byteWord_eq_setWidth (b : Byte) : byteWord b = b.setWidth 32 := by
  apply BitVec.eq_of_getLsbD_eq
  intro j hj
  rw [byteWord, BitVec.getLsbD_append, BitVec.getLsbD_setWidth]
  rcases Nat.lt_or_ge j 8 with h | h
  · simp [h, hj]
  · simp [Nat.not_lt.mpr h, BitVec.getLsbD_of_ge b j h]

/-- A PIX32 word has R in [7:0], G in [15:8] and B in [23:16] (R80, R104). -/
theorem pixelWord_eq_or (p : Pixel) :
    pixelWord p = (p.r.setWidth 32 ||| p.g.setWidth 32 <<< 8 ||| p.b.setWidth 32 <<< 16) := by
  apply BitVec.eq_of_getLsbD_eq
  intro j hj
  have above : ∀ (b : Byte) {n : Nat}, 8 ≤ n → b.getLsbD n = false := fun b _ h => BitVec.getLsbD_of_ge b _ h
  simp only [pixelWord, BitVec.getLsbD_append, BitVec.getLsbD_or, BitVec.getLsbD_shiftLeft, BitVec.getLsbD_setWidth, hj]
  rcases Nat.lt_or_ge j 8 with h8 | h8
  · simp [h8, show j < 16 by omega]
  have hr := above p.r h8
  rcases Nat.lt_or_ge j 16 with h16 | h16
  · simp [hr, h16, show ¬j < 8 by omega, show j - 8 < 8 by omega, show j - 8 < 32 by omega]
  have hg := above p.g (n := j - 8) (by omega)
  have hb : j - 8 - 8 = j - 16 := by omega
  rcases Nat.lt_or_ge j 24 with h24 | h24
  · simp [hr, hg, hb, show ¬j < 8 by omega, show ¬j - 8 < 8 by omega, show ¬j < 16 by omega,
      show j - 16 < 8 by omega, show j - 16 < 32 by omega]
  · simp [hr, hg, hb, above p.b (n := j - 16) (by omega), show ¬j < 8 by omega, show ¬j - 8 < 8 by omega]

end Sys2Proof.Machine
end

