-- ==== Sys2Proof/Proofs/BusCycle.lean ====
section
/-! What a cycle with a bus access, or with an ERR response, answers (20_memory.md R73, R77; 10_state.md R47, R48). -/

namespace Sys2Proof.Machine

/-! ### ERR responses -/

/-- An access is answered ERR exactly when its effect is to set BUS_ERR, and ERR is always the same response (R73, R77). -/
theorem accessResp_cases (s : State) (a : Access) :
    (accessWrite s a = .busErr ∧ accessResp s a = errResp) ∨
      (accessWrite s a ≠ .busErr ∧ (accessResp s a).err = false) := by
  cases a with
  | none => exact .inr ⟨nofun, rfl⟩
  | read t =>
    simp only [accessWrite, accessResp]
    cases busRead s t with
    | none => exact .inl ⟨rfl, rfl⟩
    | some v => exact .inr ⟨nofun, rfl⟩
  | write t v =>
    simp only [accessWrite, accessResp]
    by_cases h : busWrite s t v = .busErr
    · exact .inl ⟨h, if_pos h⟩
    · exact .inr ⟨h, by rw [if_neg h]; rfl⟩

theorem engineCycle_out {s t : State} {sh : Bool} {w : BusWrite} {r : BusResp} (h : engineCycle s sh w r = .next t) :
    t.out.bus = r := by
  obtain ⟨-, -, rfl⟩ := engineCycle_next_iff.mp h
  rfl

theorem commandCycle_out {s t u : State} (h : commandCycle s t = .next u) : u.out.bus = okay 0 := by
  obtain ⟨-, rfl⟩ := commandCycle_next_iff.mp h
  rfl

/-- A command that has an effect of its own, or else is rejected, is rejected where it is answered ERR (R204). -/
theorem rejected_of_err {s t u : State} {accept : Bool}
    (h : (if accept then commandCycle s u else rejectCommand s) = .next t) (he : t.out.bus.err = true) :
    rejectCommand s = .next t := by
  cases accept with
  | false => exact h
  | true => simp [commandCycle_out h, okay] at he

/-- A command answered ERR is a rejected command (R204). -/
theorem exec_err {i : Instr} {s t : State} (h : exec i s = .next t) (he : t.out.bus.err = true) :
    rejectCommand s = .next t := by
  cases i with
  | nop => simp [engineCycle_out h, okay] at he
  | shutdown => simp [engineCycle_out h, okay] at he
  | encode => exact rejected_of_err h he
  | run => exact rejected_of_err h he
  | start => exact rejected_of_err h he
  | clear => exact rejected_of_err h he

/-- An access answered ERR is the same cycle as a rejected command: BUS_ERR beside the engine (R77). -/
theorem accessCycle_of_busErr {s : State} {a : Access} (h : accessWrite s a = .busErr) :
    accessCycle s a = rejectCommand s := by
  rcases accessResp_cases s a with ⟨-, hr⟩ | ⟨hw, -⟩
  · rw [accessCycle, h, hr, rejectCommand]
  · exact absurd h hw

/-- A cycle without reset that issues no command is its access (R47). -/
theorem step_access {s : State} {a : Access} (hr : s.now.rst = false) (hp : presented s.params s.now = .access a) :
    step s = accessCycle s a := by
  unfold step
  rw [hp]
  simp [hr]

/-- Every step without reset that is answered ERR is BUS_ERR beside the engine's own transition (R77, R204, R229). -/
theorem step_err {s t : State} (hr : s.now.rst = false) (h : step s = .next t) (he : t.out.bus.err = true) :
    rejectCommand s = .next t := by
  cases hp : presented s.params s.now with
  | access a =>
    rw [step_access hr hp] at h
    rcases accessResp_cases s a with ⟨hw, -⟩ | ⟨-, hok⟩
    · rwa [accessCycle_of_busErr hw] at h
    · rw [engineCycle_out h, hok] at he
      cases he
  | command w =>
    unfold step at h
    simp only [hr, hp, Bool.false_eq_true, if_false] at h
    split at h
    · exact exec_err h he
    · exact h

/-- BUS_ERR beside the engine's transition is the cycle without a transaction, but for BUS_ERR and the response (R77). -/
theorem rejectCommand_withBusErr {s t : State} (hr : s.now.rst = false) (h : rejectCommand s = .next t) :
    ∃ u, step s.withoutBus = .next u ∧ t = u.withBusErr := by
  obtain ⟨hl, hf, rfl⟩ := engineCycle_next_iff.mp h
  exact ⟨_, (step_withoutBus s hr).trans (engineCycle_next_iff.mpr ⟨hl, hf, rfl⟩), rfl⟩

/-! ### Accesses of a state with the invariant -/

/-- A transaction to an address that selects nothing is an access whose one effect is BUS_ERR (R75 to R77). -/
theorem presented_unmapped {s : State} (hq : s.now.busReq = true)
    (hg : decodeAddress s.params s.now.busAddr = .misaligned ∨ decodeAddress s.params s.now.busAddr = .unmapped) :
    ∃ a, presented s.params s.now = .access a ∧ accessWrite s a = .busErr := by
  simp only [presented, hq, if_true]
  rcases hg with hg | hg <;> rw [hg]
  · cases s.now.busWe <;> exact ⟨_, rfl, rfl⟩
  · cases s.now.busWe <;> exact ⟨_, rfl, rfl⟩

/-- What a read returns does not depend on the cycle's input ports (R73). -/
theorem busRead_withInput (s : State) (i : PortIn) (g : BusTarget) : busRead (s.withInput i) g = busRead s g := by
  cases g with
  | csr r => cases r <;> rfl
  | _ => rfl

/-- A read that finds a word completes with it and OKAY (R73, R84). -/
theorem step_withRead {s : State} {a : Nat} {v : Word} (hi : s.Inv) (hr : s.now.rst = false)
    (hv : busRead s (decodeAddress s.params (BitVec.ofNat 26 a)) = some v) :
    ∃ t, step (s.withRead a) = .next t ∧ t.out.bus = okay v := by
  have hresp : accessResp (s.withRead a) (.read (decodeAddress s.params (BitVec.ofNat 26 a))) = okay v := by
    simp only [accessResp, State.withRead, busRead_withInput, hv]
  exact ⟨_, (step_access (s := s.withRead a) hr rfl).trans (engineCycle_inv (withInput_inv hi _) _ _ _), hresp⟩

/-- A write to an address other than CMD completes with its bus effect beside the engine's transition (R47, R48, R73). -/
theorem step_withWrite {s : State} {a : Nat} {g : BusTarget} (v : Word) (hi : s.Inv) (hr : s.now.rst = false)
    (hg : decodeAddress s.params (BitVec.ofNat 26 a) = g) (hc : g ≠ .csr .cmd) :
    step (s.withWrite a v) =
      .next ((applyBusWrite (engine (s.withWrite a v) false) (busWrite s g v)).tick
        { bus := if busWrite s g v = .busErr then errResp else okay 0, stream := streamOut s }) := by
  have hp : presented (s.withWrite a v).params (s.withWrite a v).now = .access (.write g v) := by
    subst hg
    exact if_neg hc
  exact (step_access (s := s.withWrite a v) hr hp).trans (engineCycle_inv (withInput_inv hi _) _ _ _)

/-- A write that has no effect but BUS_ERR completes with ERR (R77). -/
theorem step_withWrite_err {s : State} {a : Nat} {g : BusTarget} {v : Word} (hi : s.Inv) (hr : s.now.rst = false)
    (hg : decodeAddress s.params (BitVec.ofNat 26 a) = g) (hc : g ≠ .csr .cmd) (he : busWrite s g v = .busErr) :
    ∃ t, step (s.withWrite a v) = .next t ∧ t.out.bus = { rdata := 0, err := true } ∧ t.pix = s.pix := by
  have h := step_withWrite v hi hr hg hc
  rw [he] at h
  exact ⟨_, h, rfl, (engine_frame (s.withWrite a v) false).pix⟩

end Sys2Proof.Machine
end

