-- ==== Sys2Proof/Proofs/Memory.lean ====
section
/-! The statements about the host bus and the memories behind its windows (20_memory.md). -/

namespace Sys2Proof.Machine

/-- Settles O14: a step answered ERR is a rejected command or an access that does the same. -/
theorem errResponseWritesOnlyBusErr : Obligations.ErrResponseWritesOnlyBusErr :=
  fun _ _ hr h he => rejectCommand_withBusErr hr (step_err hr h he)

/-- Settles O15: every address named decodes to nothing, so the access has no effect but BUS_ERR. -/
theorem misalignedAndUnmappedGetErr : Obligations.MisalignedAndUnmappedGetErr := by
  intro s hi hr hq haddr
  have hg : decodeAddress s.params s.now.busAddr = .misaligned ∨ decodeAddress s.params s.now.busAddr = .unmapped := by
    by_cases ha : s.now.busAddr.toNat % 4 = 0
    · exact .inr (decodeAddress_unmapped ha (haddr.resolve_left (fun h => h ha)))
    · exact .inl (decodeAddress_misaligned ha)
  obtain ⟨a, hp, hw⟩ := presented_unmapped hq hg
  have hstep := (step_access hr hp).trans (accessCycle_of_busErr hw)
  have hnext := engineCycle_inv hi false .busErr errResp
  obtain ⟨u, hu, htu⟩ := rejectCommand_withBusErr hr hnext
  exact ⟨_, u, hstep.trans hnext, rfl, rfl, hu, htu⟩

/-- A window word that reads as a byte and that no write changes: a read completes with the byte zero-extended and OKAY, a write
with ERR (R79, R81). -/
theorem readOnlyByte_accesses {s : State} {a : Nat} {g : BusTarget} {b : Byte} (hi : s.Inv) (hr : s.now.rst = false)
    (hg : decodeAddress s.params (BitVec.ofNat 26 a) = g) (hread : busRead s g = some (byteWord b))
    (hwrite : ∀ v, busWrite s g v = .busErr) (hc : g ≠ .csr .cmd) :
    (∃ t, step (s.withRead a) = .next t ∧ t.out.bus = { rdata := b.setWidth 32, err := false }) ∧
      ∀ v : Word, ∃ t, step (s.withWrite a v) = .next t ∧ t.out.bus = { rdata := 0, err := true } := by
  constructor
  · rw [← hg, byteWord_eq_setWidth] at hread
    exact step_withRead hi hr hread
  · intro v
    obtain ⟨t, ht, hb, -⟩ := step_withWrite_err hi hr hg hc (hwrite v)
    exact ⟨t, ht, hb⟩

/-- Settles O20: the address decodes to the entry, which reads as its byte and which no write changes. -/
theorem lutWindowReadsTheTable : Obligations.LutWindowReadsTheTable :=
  fun s _ hi hr hlt => readOnlyByte_accesses hi hr (decodeAddress_lut s.params hlt) rfl (fun _ => rfl) nofun

/-- Settles O21: the address decodes to the byte of CBM, which a host can read and not write. -/
theorem columnWindowReadsTheBuffers : Obligations.ColumnWindowReadsTheBuffers :=
  fun _ _ _ hi hr hx hk =>
    readOnlyByte_accesses hi hr (decodeAddress_columnAddr hi.params_legal hx hk) rfl (fun _ => rfl) nofun

/-- A pixel reads the same from states with the same PIX and parameters (R24). -/
theorem readPixel_congr {s t : State} (hp : t.params = s.params) (hpix : t.pix = s.pix) (x y : Nat) :
    readPixel t x y = readPixel s x y := by
  simp only [readPixel, hp, hpix]

/-- A pixel write outside ENCODING completes with OKAY, and its pixel is written to the state the engine leaves (R80). -/
theorem step_withWrite_pixel {s : State} {x y : Nat} (v : Word) (hi : s.Inv) (hr : s.now.rst = false)
    (hx : x < s.params.pMaxWidth) (hy : y < s.params.pMaxLeds) (he : s.state ≠ .encoding) :
    step (s.withWrite (pixelAddr s.params x y) v) =
      .next ((writePixel (engine (s.withWrite (pixelAddr s.params x y) v) false) x y (pixelOfWord v)).tick
        { bus := okay 0, stream := streamOut s }) := by
  have hw : busWrite s (.pixel x y) v = .pixel x y v := if_neg he
  have h := step_withWrite v hi hr (decodeAddress_pixelAddr hi.params_legal hx hy) nofun
  rwa [hw] at h

/-- Settles O22: the engine writes no pixel, so reads after a pixel write are those of the memory. -/
theorem pixelWindowStoresAndReadsPixels : Obligations.PixelWindowStoresAndReadsPixels := by
  intro s x y v hi hr hx hy
  have hg := decodeAddress_pixelAddr hi.params_legal hx hy
  constructor
  · obtain ⟨t, ht, hb⟩ := step_withRead hi hr (congrArg (busRead s) hg)
    exact ⟨t, ht, by rw [hb]; rfl, by rw [hb, ← pixelWord_eq_or]; rfl⟩
  by_cases he : s.state = .encoding
  · obtain ⟨t, ht, hb, hpix⟩ := step_withWrite_err (v := v) hi hr hg nofun (if_pos he)
    exact ⟨t, ht, fun h => absurd he h, fun _ => ⟨hb, hpix⟩⟩
  · have frame := engine_frame (s.withWrite (pixelAddr s.params x y) v) false
    have hL : (engine (s.withWrite (pixelAddr s.params x y) v) false).params.pMaxLeds = s.params.pMaxLeds :=
      congrArg Params.pMaxLeds frame.params
    refine ⟨_, step_withWrite_pixel v hi hr hx hy he, fun _ => ⟨rfl, ?_, ?_⟩, fun h => absurd h he⟩
    · exact readPixel_writePixel_same _ x y (pixelOfWord v)
    · intro x' y' hy' hne
      calc readPixel (writePixel (engine (s.withWrite (pixelAddr s.params x y) v) false) x y (pixelOfWord v)) x' y'
          = readPixel (engine (s.withWrite (pixelAddr s.params x y) v) false) x' y' :=
            readPixel_writePixel_other _ _ (hL ▸ hy) (hL ▸ hy') hne
        _ = readPixel s x' y' := readPixel_congr frame.params frame.pix x' y'

end Sys2Proof.Machine
end

