-- ==== Sys2Proof/Proofs/Gamma.lean ====
section
/-! The statements about the gamma LUT (40_gamma_lut.md). Squaring turns the curve of R120 into the exact integer form of R121, in
which one finite check compares every entry of the table with the curve. -/

namespace Sys2Proof.Machine

/-! ### The table and the integer form -/

/-- `LUT[i] & 0x7F`, which R123 calls k(i). -/
def gammaLevel (i : Byte) : Nat := (gamma i &&& 0x7F).toNat

theorem gammaLevel_le (i : Byte) : gammaLevel i ≤ 127 := by
  rw [gammaLevel, BitVec.toNat_and]
  exact Nat.and_le_right

/-- The table, entry by entry: bit 7 is set (R123), the test of R121 fails above the level, and below it the test passes without
equality. -/
theorem gamma_table : ∀ i : Byte,
    (gamma i).toNat = 0x80 + gammaLevel i ∧
      254 ^ 2 * i.toNat ^ 5 < (2 * gammaLevel i + 1) ^ 2 * 255 ^ 5 ∧
      (gammaLevel i ≠ 0 → (2 * gammaLevel i - 1) ^ 2 * 255 ^ 5 < 254 ^ 2 * i.toNat ^ 5) := by decide

theorem gamma_toNat (i : Byte) : (gamma i).toNat = 0x80 + gammaLevel i := (gamma_table i).1

theorem gammaLevel_upper (i : Byte) : 254 ^ 2 * i.toNat ^ 5 < (2 * gammaLevel i + 1) ^ 2 * 255 ^ 5 := (gamma_table i).2.1

theorem gammaLevel_lower {i : Byte} (h : gammaLevel i ≠ 0) :
    (2 * gammaLevel i - 1) ^ 2 * 255 ^ 5 < 254 ^ 2 * i.toNat ^ 5 := (gamma_table i).2.2 h

theorem gamma_eq_or (i : Byte) : gamma i = 0x80 ||| BitVec.ofNat 8 (gammaLevel i) := by
  have disjoint_or : ∀ k ≤ 127, ((0x80 : Byte) ||| BitVec.ofNat 8 k).toNat = 0x80 + k := by decide
  exact BitVec.eq_of_toNat_eq ((gamma_toNat i).trans (disjoint_or _ (gammaLevel_le i)).symm)

/-! ### Monotonicity -/

/-- Levels follow the order of the indices: a drop would put `i^5` above `j^5` in the integer form (R124). -/
theorem gammaLevel_mono {i j : Byte} (h : i.toNat ≤ j.toNat) : gammaLevel i ≤ gammaLevel j := by
  by_contra hdrop
  have hsucc : 2 * gammaLevel j + 1 ≤ 2 * gammaLevel i - 1 := by omega
  have : 254 ^ 2 * i.toNat ^ 5 < 254 ^ 2 * i.toNat ^ 5 := calc
    254 ^ 2 * i.toNat ^ 5 ≤ 254 ^ 2 * j.toNat ^ 5 := by gcongr
    _ < (2 * gammaLevel j + 1) ^ 2 * 255 ^ 5 := gammaLevel_upper j
    _ ≤ (2 * gammaLevel i - 1) ^ 2 * 255 ^ 5 := by gcongr
    _ < 254 ^ 2 * i.toNat ^ 5 := gammaLevel_lower (by omega)
  exact this.false

theorem gamma_mono {i j : Byte} (h : i.toNat ≤ j.toNat) : (gamma i).toNat ≤ (gamma j).toNat := by
  rw [gamma_toNat, gamma_toNat]
  exact Nat.add_le_add_left (gammaLevel_mono h) _

/-- Settles O7: the levels are monotone, and the table steps from 0x80 to 0x81 between 27 and 28. -/
theorem gammaIsMonotone : Obligations.GammaIsMonotone := by
  refine ⟨fun _ _ => gamma_mono, fun i => ⟨fun h => ?_, fun h => ?_⟩⟩
  · by_contra hi
    have hstep : (gamma 28).toNat ≤ (gamma i).toNat := gamma_mono (by change 28 ≤ i.toNat; omega)
    rw [h] at hstep
    exact absurd hstep (by decide)
  · have hflat : (gamma i).toNat ≤ (gamma 27).toNat := gamma_mono h
    have hoff : (gamma 27).toNat = 0x80 := by decide
    have hbit := gamma_toNat i
    exact BitVec.eq_of_toNat_eq (by change (gamma i).toNat = 0x80; omega)

/-! ### The real curve -/

/-- The curve `(n/255)^2.5 * 127` that R120 rounds. -/
noncomputable def gammaCurve (n : Nat) : ℝ := ((n : ℝ) / 255) ^ (5 / 2 : ℝ) * 127

theorem gammaCurve_nonneg (n : Nat) : 0 ≤ gammaCurve n := by
  unfold gammaCurve
  positivity

/-- Squaring removes the half exponent (R121). -/
theorem sq_two_mul_gammaCurve (n : Nat) : (2 * gammaCurve n) ^ 2 * 255 ^ 5 = 254 ^ 2 * (n : ℝ) ^ 5 := by
  have hpow : (((n : ℝ) / 255) ^ (5 / 2 : ℝ)) ^ 2 = ((n : ℝ) / 255) ^ 5 := by
    rw [← Real.rpow_mul_natCast (by positivity), ← Real.rpow_natCast]
    norm_num
  rw [gammaCurve, mul_pow, mul_pow, hpow]
  ring

/-- A half integer lies below the curve exactly when its integer test says so (R121). -/
theorem lt_two_mul_gammaCurve {a n : Nat} : (a : ℝ) < 2 * gammaCurve n ↔ a ^ 2 * 255 ^ 5 < 254 ^ 2 * n ^ 5 := by
  rw [← sq_lt_sq₀ a.cast_nonneg (mul_nonneg two_pos.le (gammaCurve_nonneg n)),
    ← mul_lt_mul_iff_left₀ (show (0 : ℝ) < 255 ^ 5 by positivity), sq_two_mul_gammaCurve]
  exact_mod_cast Iff.rfl

/-- A half integer lies above the curve exactly when its integer test says so (R121). -/
theorem two_mul_gammaCurve_lt {a n : Nat} : 2 * gammaCurve n < a ↔ 254 ^ 2 * n ^ 5 < a ^ 2 * 255 ^ 5 := by
  rw [← sq_lt_sq₀ (mul_nonneg two_pos.le (gammaCurve_nonneg n)) a.cast_nonneg,
    ← mul_lt_mul_iff_left₀ (show (0 : ℝ) < 255 ^ 5 by positivity), sq_two_mul_gammaCurve]
  exact_mod_cast Iff.rfl

/-- An entry's level lies strictly within a half of the curve, so the curve meets no rounding tie (R121). -/
theorem abs_gammaCurve_sub_gammaLevel_lt (i : Byte) : |gammaCurve i.toNat - gammaLevel i| < 1 / 2 := by
  have habove := two_mul_gammaCurve_lt.mpr (gammaLevel_upper i)
  push_cast at habove
  rw [abs_sub_lt_iff]
  refine ⟨by linarith, ?_⟩
  by_cases hzero : gammaLevel i = 0
  · have hnonneg := gammaCurve_nonneg i.toNat
    rw [hzero, Nat.cast_zero]
    linarith
  · have hbelow := lt_two_mul_gammaCurve.mpr (gammaLevel_lower hzero)
    rw [Nat.cast_sub (by omega)] at hbelow
    push_cast at hbelow
    linarith

/-! ### Rounding -/

/-- The integer strictly within a half of a number is the only one within a half of it. -/
theorem eq_of_abs_sub_le_half {x : ℝ} {n k : ℤ} (hk : |x - k| < 1 / 2) (hn : |x - n| ≤ 1 / 2) : n = k := by
  have hnear : |((n - k : ℤ) : ℝ)| < 1 := calc
    |((n - k : ℤ) : ℝ)| = |(x - k) - (x - n)| := by push_cast; ring_nf
    _ ≤ |x - k| + |x - n| := abs_sub _ _
    _ < 1 := by linarith
  have : |n - k| < 1 := by exact_mod_cast hnear
  exact sub_eq_zero.mp (Int.abs_lt_one_iff.mp this)

/-- Rounding half up gives the level (R120). -/
theorem floor_gammaCurve (i : Byte) : ⌊gammaCurve i.toNat + 1 / 2⌋₊ = gammaLevel i := by
  obtain ⟨habove, hbelow⟩ := abs_sub_lt_iff.mp (abs_gammaCurve_sub_gammaLevel_lt i)
  have hnonneg := gammaCurve_nonneg i.toNat
  exact (Nat.floor_eq_iff (by linarith)).mpr ⟨by linarith, by linarith⟩

/-- Settles O5: the floor is the level, which is the integer strictly nearest to the curve. -/
theorem gammaIsTheTransferFunction : Obligations.GammaIsTheTransferFunction := by
  intro i
  have hfloor : ⌊((i.toNat : ℝ) / 255) ^ (5 / 2 : ℝ) * 127 + 1 / 2⌋₊ = gammaLevel i := floor_gammaCurve i
  rw [hfloor]
  refine ⟨gamma_eq_or i, gammaLevel_le i, fun n hn => ?_, ?_⟩
  · exact eq_of_abs_sub_le_half (k := gammaLevel i) (abs_gammaCurve_sub_gammaLevel_lt i) hn
  · rw [gamma_toNat]
    exact Nat.le_add_right _ _

end Sys2Proof.Machine
end

