-- ==== Sys2Proof/Proofs/EncodingCycle.lean ====
section
/-! What an ENCODING cycle without reset and without an abort does (41_formatter.md R142 to R145): the bytes it writes, the move of
the cursor, and how it ends. -/

namespace Sys2Proof.Machine

/-! ### The bytes of a column buffer -/

/-- The layout of R146: at place k of column x stands lane `k % 3` of FORMAT_PIXEL of pixel `k / 3`, and behind the last pixel the
framing byte 0x00. -/
def encodedByte (s : State) (x k : Nat) : Byte :=
  if k = 3 * s.encH.toNat then 0
  else if k % 3 = 0 then formatLane0 (readPixel s x (k / 3))
  else if k % 3 = 1 then formatLane1 (readPixel s x (k / 3))
  else formatLane2 (readPixel s x (k / 3))

theorem encodedByte_framing (s : State) (x : Nat) : encodedByte s x (3 * s.encH.toNat) = 0 := if_pos rfl

/-- The three bytes of a row are FORMAT_PIXEL of its pixel (R143, R146). -/
theorem encodedByte_row {s : State} {y : Nat} (x : Nat) (hy : y < s.encH.toNat) :
    (encodedByte s x (3 * y), encodedByte s x (3 * y + 1), encodedByte s x (3 * y + 2)) = formatPixel (readPixel s x y) := by
  have h0 : encodedByte s x (3 * y) = formatLane0 (readPixel s x y) := by
    rw [encodedByte, if_neg (by omega), if_pos (by omega), show 3 * y / 3 = y by omega]
  have h1 : encodedByte s x (3 * y + 1) = formatLane1 (readPixel s x y) := by
    rw [encodedByte, if_neg (by omega), if_neg (by omega), if_pos (by omega), show (3 * y + 1) / 3 = y by omega]
  have h2 : encodedByte s x (3 * y + 2) = formatLane2 (readPixel s x y) := by
    rw [encodedByte, if_neg (by omega), if_neg (by omega), if_neg (by omega), show (3 * y + 2) / 3 = y by omega]
  rw [h0, h1, h2, formatPixel]

/-- The layout depends on the height and the pixels alone. -/
theorem encodedByte_congr {s t : State} (hp : t.params = s.params) (hh : t.encH = s.encH) (hpix : t.pix = s.pix) (x k : Nat) :
    encodedByte t x k = encodedByte s x k := by
  simp only [encodedByte, hh, readPixel_congr hp hpix]

/-- Memories that hold an image of height h have every byte of its column buffers (R7, R141). -/
theorem lt_colStride {p : Params} {h k : Nat} (hfit : h ≤ p.pMaxLeds) (hk : k ≤ 3 * h) : k < p.colStride := by
  unfold Params.colStride
  omega

/-! ### What a step writes to CBM -/

theorem encodingStep_pixel {s : State} (h : s.encY.toNat < s.encH.toNat) : encodingStep s = pixelStep s := if_pos h

theorem encodingStep_trailing {s : State} (h : s.encY.toNat = s.encH.toNat) : encodingStep s = trailingStep s :=
  (if_neg h.not_lt).trans (if_pos h)

theorem readColumn_writeColumn (s : State) {x k x' k' : Nat} (b : Byte) (hk : k < s.params.colStride)
    (hk' : k' < s.params.colStride) :
    readColumn (writeColumn s x k b) x' k' = if x' = x ∧ k' = k then b else readColumn s x' k' := by
  split
  · next h =>
    obtain ⟨rfl, rfl⟩ := h
    exact readColumn_writeColumn_same s x' k' b
  · next h =>
    exact readColumn_writeColumn_other s b hk hk' (fun e => h (Prod.mk.inj e))

/-- The pixel step, as three writes and the move of the cursor (R142). -/
theorem pixelStep_writes (s : State) :
    pixelStep s =
      { writeColumn (writeColumn (writeColumn s s.encX.toNat (3 * s.encY.toNat)
          (formatLane0 (readPixel s s.encX.toNat s.encY.toNat))) s.encX.toNat (3 * s.encY.toNat + 1)
          (formatLane1 (readPixel s s.encX.toNat s.encY.toNat))) s.encX.toNat (3 * s.encY.toNat + 2)
          (formatLane2 (readPixel s s.encX.toNat s.encY.toNat)) with
        encY := s.encY + 1 } := rfl

/-- The pixel step writes the layout's three bytes of the row at the cursor (R142). -/
theorem readColumn_pixelStep {s : State} {k : Nat} (x : Nat) (hy : s.encY.toNat < s.encH.toNat)
    (hfit : s.encH.toNat ≤ s.params.pMaxLeds) (hk : k < s.params.colStride) :
    readColumn (pixelStep s) x k =
      if x = s.encX.toNat ∧ k / 3 = s.encY.toNat then encodedByte s x k else readColumn s x k := by
  have h2 : 3 * s.encY.toNat + 2 < s.params.colStride := lt_colStride hfit (by omega)
  have h1 : 3 * s.encY.toNat + 1 < s.params.colStride := by omega
  have h0 : 3 * s.encY.toNat < s.params.colStride := by omega
  have hwrites : readColumn (pixelStep s) x k =
      if x = s.encX.toNat ∧ k = 3 * s.encY.toNat + 2 then formatLane2 (readPixel s s.encX.toNat s.encY.toNat)
      else if x = s.encX.toNat ∧ k = 3 * s.encY.toNat + 1 then formatLane1 (readPixel s s.encX.toNat s.encY.toNat)
      else if x = s.encX.toNat ∧ k = 3 * s.encY.toNat then formatLane0 (readPixel s s.encX.toNat s.encY.toNat)
      else readColumn s x k := by
    rw [pixelStep_writes]
    refine (readColumn_writeColumn _ _ (by exact h2) (by exact hk)).trans ?_
    rw [readColumn_writeColumn _ _ (by exact h1) (by exact hk), readColumn_writeColumn _ _ h0 hk]
  rw [hwrites]
  by_cases hat : x = s.encX.toNat ∧ k / 3 = s.encY.toNat
  · obtain ⟨rfl, hkY⟩ := hat
    obtain ⟨h0, h1, h2⟩ : encodedByte s s.encX.toNat (3 * s.encY.toNat) = _ ∧ _ ∧ _ := by
      simpa only [formatPixel, Prod.mk.injEq] using encodedByte_row s.encX.toNat hy
    obtain rfl | rfl | rfl : k = 3 * s.encY.toNat ∨ k = 3 * s.encY.toNat + 1 ∨ k = 3 * s.encY.toNat + 2 := by omega
    · simp [h0]
    · simp [h1, hkY]
    · simp [h2, hkY]
  · rw [if_neg hat, if_neg (by omega), if_neg (by omega), if_neg (by omega)]

/-- The trailing step before the last column writes the framing byte and moves to the next column (R144). -/
theorem trailingStep_next {s : State} (h : s.encX.toNat + 1 < s.encW.toNat) :
    trailingStep s = { writeColumn s s.encX.toNat (3 * s.encH.toNat) 0 with encX := s.encX + 1, encY := 0 } := if_pos h

/-- The trailing step of the last column writes the framing byte and completes the encoding (R144). -/
theorem trailingStep_last {s : State} (h : ¬s.encX.toNat + 1 < s.encW.toNat) :
    trailingStep s = completeEncoding (writeColumn s s.encX.toNat (3 * s.encH.toNat) 0) := if_neg h

/-- Completing the encoding writes neither CBM, nor the latched geometry, nor RUN_AFTER_ENC (R145). -/
theorem completeEncoding_keeps (s : State) :
    (completeEncoding s).cbm = s.cbm ∧ (completeEncoding s).encW = s.encW ∧ (completeEncoding s).encH = s.encH ∧
      (completeEncoding s).runAfterEnc = s.runAfterEnc := by
  unfold completeEncoding
  split <;> exact ⟨rfl, rfl, rfl, rfl⟩

/-- The trailing step writes one byte of CBM, and neither the latched geometry nor RUN_AFTER_ENC (R144, R145). -/
theorem trailingStep_keeps (s : State) :
    (trailingStep s).cbm = (writeColumn s s.encX.toNat (3 * s.encH.toNat) 0).cbm ∧ (trailingStep s).encW = s.encW ∧
      (trailingStep s).encH = s.encH ∧ (trailingStep s).runAfterEnc = s.runAfterEnc := by
  by_cases h : s.encX.toNat + 1 < s.encW.toNat
  · rw [trailingStep_next h]
    exact ⟨rfl, rfl, rfl, rfl⟩
  · rw [trailingStep_last h]
    exact completeEncoding_keeps _

/-- A step at cursor (X, Y) writes the bytes of row Y of column X as the layout has them, and no other byte (R142, R144). -/
theorem readColumn_encodingStep {s : State} {k : Nat} (x : Nat) (hy : s.encY.toNat ≤ s.encH.toNat)
    (hfit : s.encH.toNat ≤ s.params.pMaxLeds) (hk : k < s.params.colStride) :
    readColumn (encodingStep s) x k =
      if k ≤ 3 * s.encH.toNat ∧ x = s.encX.toNat ∧ k / 3 = s.encY.toNat then encodedByte s x k else readColumn s x k := by
  rcases Nat.lt_or_eq_of_le hy with hlt | heq
  · rw [encodingStep_pixel hlt, readColumn_pixelStep x hlt hfit hk]
    exact if_congr (by omega) rfl rfl
  · rw [encodingStep_trailing heq, readColumn, (trailingStep_frame s).params, (trailingStep_keeps s).1]
    refine (readColumn_writeColumn s 0 (lt_colStride hfit le_rfl) hk).trans ?_
    by_cases hat : x = s.encX.toNat ∧ k = 3 * s.encH.toNat
    · rw [if_pos hat, if_pos (by omega), hat.2, encodedByte_framing]
    · rw [if_neg hat, if_neg (by omega)]

/-! ### The cursor, and the end of the encoding -/

/-- No step of the formatter writes the latched geometry or RUN_AFTER_ENC (R142 to R145). -/
theorem encodingStep_geometry (s : State) :
    (encodingStep s).encW = s.encW ∧ (encodingStep s).encH = s.encH ∧ (encodingStep s).runAfterEnc = s.runAfterEnc := by
  unfold encodingStep
  split
  · rw [pixelStep_eq]
    exact ⟨rfl, rfl, rfl⟩
  split
  · exact (trailingStep_keeps s).2
  · exact ⟨rfl, rfl, rfl⟩

/-- The cursor is at the trailing step of the last column. -/
def State.atLastStep (s : State) : Prop := s.encY.toNat = s.encH.toNat ∧ s.encX.toNat + 1 = s.encW.toNat

/-- The number of steps before the cursor (R146): H + 1 for each column before its own, and one for each row above. -/
def State.cursorIndex (s : State) : Nat := s.encX.toNat * (s.encH.toNat + 1) + s.encY.toNat

/-- The last step is number W*(H+1) (R146). -/
theorem cursorIndex_succ_iff {s : State} (hi : s.Inv) (he : s.state = .encoding) :
    s.cursorIndex + 1 = s.encW.toNat * (s.encH.toNat + 1) ↔ s.atLastStep := by
  obtain ⟨-, hx, hy⟩ := hi.cursor_inside he
  unfold State.cursorIndex State.atLastStep
  constructor
  · intro hend
    have hcols : (s.encX.toNat + 1) * (s.encH.toNat + 1) ≤ s.encW.toNat * (s.encH.toNat + 1) := Nat.mul_le_mul_right _ hx
    rw [Nat.add_one_mul] at hcols
    have hrow : s.encY.toNat = s.encH.toNat := by omega
    refine ⟨hrow, Nat.eq_of_mul_eq_mul_right (show 0 < s.encH.toNat + 1 by omega) ?_⟩
    rw [Nat.add_one_mul]
    omega
  · rintro ⟨hrow, hcol⟩
    rw [← hcol, Nat.add_one_mul]
    omega

/-- Moving the cursor inside the image keeps the invariant (R142, R144). -/
theorem moveCursor_inv {s : State} {x y : Half} (h : s.Inv) (he : s.state = .encoding) (hx : x.toNat < s.encW.toNat)
    (hy : y.toNat ≤ s.encH.toNat) : State.Inv { s with encX := x, encY := y } :=
  { h with cursor_inside := fun _ => ⟨(h.cursor_inside he).1, hx, hy⟩ }

/-- BUS_ERR is no part of the invariant. -/
theorem busErr_inv {s : State} (h : s.Inv) (e : Bool) : State.Inv { s with busErr := e } := { h with }

/-- The pixel step keeps the invariant and moves the cursor one step on (R142). -/
theorem pixelStep_continues {s : State} (h : s.Inv) (he : s.state = .encoding) (hy : s.encY.toNat < s.encH.toNat) :
    (pixelStep s).Inv ∧ (pixelStep s).state = .encoding ∧ (pixelStep s).cursorIndex = s.cursorIndex + 1 := by
  obtain ⟨-, hW, -, hH⟩ := h.geometry_fits (.inr he)
  obtain ⟨-, hx, -⟩ := h.cursor_inside he
  have hwrite : ∀ (t : State) (k : Nat) (b : Byte), t.Inv → t.params = s.params → k < 3 * s.encY.toNat + 3 →
      (writeColumn t s.encX.toNat k b).Inv := by
    intro t k b ht hp hk
    refine writeColumn_inv ?_ ?_ b ht <;> rw [hp]
    · omega
    · exact lt_colStride hH (by omega)
  have hnext : (s.encY + 1).toNat = s.encY.toNat + 1 := toNat_succ_of_lt hy
  refine ⟨?_, ?_, ?_⟩
  · rw [pixelStep_writes]
    exact moveCursor_inv (hwrite _ _ _ (hwrite _ _ _ (hwrite s _ _ h rfl (by omega)) rfl (by omega)) rfl (by omega)) he hx
      (hnext.trans_le hy)
  · rw [pixelStep_eq]
    exact he
  · rw [pixelStep_eq]
    simp only [State.cursorIndex, hnext, Nat.add_assoc]

/-- The trailing step before the last column keeps the invariant and moves the cursor one step on (R144). -/
theorem trailingStep_continues {s : State} (h : s.Inv) (he : s.state = .encoding) (hy : s.encY.toNat = s.encH.toNat)
    (hx : s.encX.toNat + 1 < s.encW.toNat) :
    (trailingStep s).Inv ∧ (trailingStep s).state = .encoding ∧ (trailingStep s).cursorIndex = s.cursorIndex + 1 := by
  obtain ⟨-, hW, -, hH⟩ := h.geometry_fits (.inr he)
  have hnext : (s.encX + 1).toNat = s.encX.toNat + 1 := toNat_succ_of_lt (b := s.encW) (by omega)
  rw [trailingStep_next hx]
  have hwritten := writeColumn_inv (x := s.encX.toNat) (by omega) (lt_colStride hH le_rfl) 0 h
  refine ⟨moveCursor_inv hwritten he (hnext.trans_lt hx) (Nat.zero_le _), he, ?_⟩
  calc (s.encX + 1).toNat * (s.encH.toNat + 1) + 0
      = s.encX.toNat * (s.encH.toNat + 1) + s.encH.toNat + 1 := by rw [hnext, Nat.add_one_mul]; rfl
    _ = s.cursorIndex + 1 := by rw [State.cursorIndex, hy]

/-- Every step but the last stays in ENCODING with the cursor one step on (R142, R144). -/
theorem encodingStep_continues {s : State} (h : s.Inv) (he : s.state = .encoding) (hlast : ¬s.atLastStep) :
    (encodingStep s).Inv ∧ (encodingStep s).state = .encoding ∧ (encodingStep s).cursorIndex = s.cursorIndex + 1 := by
  obtain ⟨-, hx, hy⟩ := h.cursor_inside he
  rcases Nat.lt_or_eq_of_le hy with hlt | heq
  · rw [encodingStep_pixel hlt]
    exact pixelStep_continues h he hlt
  · rw [encodingStep_trailing heq]
    exact trailingStep_continues h he heq (Nat.lt_of_le_of_ne hx fun hcol => hlast ⟨heq, hcol⟩)

/-- The last step completes the encoding (R144, R145). -/
theorem encodingStep_completes {s : State} (hlast : s.atLastStep) :
    (encodingStep s).encoded = true ∧ (encodingStep s).state = if s.runAfterEnc then .txCol else .idle := by
  obtain ⟨hrow, hcol⟩ := hlast
  rw [encodingStep_trailing hrow, trailingStep_last (by omega), completeEncoding, writeColumn_runAfterEnc]
  split <;> exact ⟨rfl, rfl⟩

/-! ### The cycle -/

/-- An undisturbed cycle in ENCODING is the formatter's step; the host can do no more than set BUS_ERR (R48, R80, R142, R204). -/
theorem step_undisturbed_encoding {s : State} (hi : s.Inv) (he : s.state = .encoding)
    (hu : undisturbed s.params s.now = true) :
    ∃ e o, step s = .next (State.tick { encodingStep s with busErr := e } o) := by
  obtain ⟨hr, hreq⟩ : s.now.rst = false ∧ abortReq s.now (presentsShutdown s.params s.now) = false := by
    simpa [undisturbed] using hu
  have hengine : engine s (presentsShutdown s.params s.now) = encodingStep s := by
    rw [engine_of_no_abort (by rw [abortTaken, hreq]; rfl), stateStep, he]
    rfl
  obtain ⟨w, r, hallowed, hconfig, hstep⟩ := busy_step hi hr (by rw [he]; rfl)
  rw [hengine] at hstep
  cases w with
  | none => exact ⟨_, _, hstep⟩
  | busErr => exact ⟨true, _, hstep⟩
  | config c v => exact absurd rfl (hconfig c v)
  | pixel x y v => exact absurd he hallowed.1

end Sys2Proof.Machine
end

