-- ==== Sys2Proof/Proofs/Formatter.lean ====
section
/-! The statements about the formatter (41_formatter.md). A whole encoding is an induction over its cycles: after n of them the
bytes of the first n steps stand as the layout has them, and every other byte of CBM is what it was. -/

namespace Sys2Proof.Machine

/-- Settles O35: each lane is its definition, and the table sets bit 7 (R123). -/
theorem formatPixelIsBlueRedGreen : Obligations.FormatPixelIsBlueRedGreen :=
  ⟨fun _ _ _ => rfl, fun v => by rw [gamma_eq_or, BitVec.getLsbD_or]; rfl, by decide, by decide⟩

/-! ### The first n steps of an encoding -/

/-- State t has what n steps of the encoding begun in s leave: byte k of column x is written in step `x*(H+1) + k/3`, counted
from 0, if the layout has it (R142, R144, R147). -/
structure EncodedTo (s : State) (n : Nat) (t : State) : Prop where
  params : t.params = s.params
  encW : t.encW = s.encW
  encH : t.encH = s.encH
  runAfterEnc : t.runAfterEnc = s.runAfterEnc
  pix : t.pix = s.pix
  column : ∀ x k, k < s.params.colStride →
    readColumn t x k =
      if k ≤ 3 * s.encH.toNat ∧ x * (s.encH.toNat + 1) + k / 3 < n then encodedByte s x k else readColumn s x k

/-- State t stands in ENCODING at step n of the encoding begun in s. -/
structure EncodingAt (s : State) (n : Nat) (t : State) : Prop extends EncodedTo s n t where
  inv : t.Inv
  encoding : t.state = .encoding
  cursor : t.cursorIndex = n
  inputs : t.inputs = s.inputs.drop n

/-- Nothing is written before the first step. -/
theorem encodingAt_start {s : State} (hi : s.Inv) (he : s.state = .encoding) (hx : s.encX = 0) (hy : s.encY = 0) :
    EncodingAt s 0 s where
  params := rfl
  encW := rfl
  encH := rfl
  runAfterEnc := rfl
  pix := rfl
  column _ _ _ := (if_neg fun h => absurd h.2 (Nat.not_lt_zero _)).symm
  inv := hi
  encoding := he
  cursor := by simp [State.cursorIndex, hx, hy]
  inputs := rfl

/-- A step number names one row of one column. -/
theorem stepIndex_eq_iff {x y x' y' h : Nat} (hy : y ≤ h) (hy' : y' ≤ h) :
    x * (h + 1) + y = x' * (h + 1) + y' ↔ x = x' ∧ y = y' := by
  obtain ⟨hdiv, hmod⟩ := index_div_mod (x := x) (Nat.lt_succ_of_le hy)
  obtain ⟨hdiv', hmod'⟩ := index_div_mod (x := x') (Nat.lt_succ_of_le hy')
  constructor
  · intro e
    exact ⟨by rw [← hdiv, ← hdiv', e], by rw [← hmod, ← hmod', e]⟩
  · rintro ⟨rfl, rfl⟩
    rfl

/-- The step at the cursor adds its bytes to those of the steps before it (R142, R144). -/
theorem EncodingAt.encodedTo_succ {s t : State} {n : Nat} (h : EncodingAt s n t) : EncodedTo s (n + 1) (encodingStep t) := by
  obtain ⟨-, -, hy⟩ := h.inv.cursor_inside h.encoding
  obtain ⟨-, -, -, hfit⟩ := h.inv.geometry_fits (.inr h.encoding)
  have frame := encodingStep_frame t
  obtain ⟨hW, hH, hrun⟩ := encodingStep_geometry t
  refine ⟨frame.params.trans h.params, hW.trans h.encW, hH.trans h.encH, hrun.trans h.runAfterEnc, frame.pix.trans h.pix, ?_⟩
  intro x k hk
  rw [readColumn_encodingStep x hy hfit (by rwa [h.params]), encodedByte_congr h.params h.encH h.pix, h.column x k hk, h.encH]
  have hcursor := h.cursor
  rw [State.cursorIndex, h.encH] at hcursor
  rw [h.encH] at hy
  have hnow : k ≤ 3 * s.encH.toNat →
      (x * (s.encH.toNat + 1) + k / 3 = n ↔ x = t.encX.toNat ∧ k / 3 = t.encY.toNat) := fun hk' => by
    rw [← hcursor]
    exact stepIndex_eq_iff (by omega) hy
  rw [← ite_or]
  exact if_congr (by omega) rfl rfl

/-- BUS_ERR and the end of a cycle are no part of the encoding (R48). -/
theorem EncodedTo.endCycle {s t : State} {n : Nat} (h : EncodedTo s n t) (e : Bool) (o : PortOut) :
    EncodedTo s n (State.tick { t with busErr := e } o) :=
  ⟨h.params, h.encW, h.encH, h.runAfterEnc, h.pix, h.column⟩

/-- The number of cycles of an encoding (R146). -/
def State.encodingCycles (s : State) : Nat := s.encW.toNat * (s.encH.toNat + 1)

/-- A step is the last exactly when it is number W*(H+1) (R146). -/
theorem EncodingAt.atLastStep_iff {s t : State} {n : Nat} (h : EncodingAt s n t) : t.atLastStep ↔ n + 1 = s.encodingCycles := by
  rw [← cursorIndex_succ_iff h.inv h.encoding, h.cursor, h.encW, h.encH, State.encodingCycles]

/-- An undisturbed cycle before the last goes on to the next step. -/
theorem EncodingAt.next {s t : State} {n : Nat} (h : EncodingAt s n t) (hu : undisturbed t.params t.now = true)
    (hn : n + 1 ≠ s.encodingCycles) : ∃ u, step t = .next u ∧ EncodingAt s (n + 1) u := by
  obtain ⟨e, o, hstep⟩ := step_undisturbed_encoding h.inv h.encoding hu
  obtain ⟨hinv, hstate, hcursor⟩ := encodingStep_continues h.inv h.encoding (h.atLastStep_iff.not.mpr hn)
  refine ⟨_, hstep, { h.encodedTo_succ.endCycle e o with
    inv := tick_inv (busErr_inv hinv e) o, encoding := hstate, cursor := hcursor.trans (by rw [h.cursor]), inputs := ?_ }⟩
  rw [tick_inputs, (encodingStep_frame t).inputs, h.inputs, List.tail_drop]

/-- An undisturbed last cycle completes the encoding (R145). -/
theorem EncodingAt.last {s t : State} {n : Nat} (h : EncodingAt s n t) (hu : undisturbed t.params t.now = true)
    (hn : n + 1 = s.encodingCycles) :
    ∃ u, step t = .next u ∧ EncodedTo s (n + 1) u ∧ u.encoded = true ∧
      u.state = if s.runAfterEnc then .txCol else .idle := by
  obtain ⟨e, o, hstep⟩ := step_undisturbed_encoding h.inv h.encoding hu
  obtain ⟨hencoded, hstate⟩ := encodingStep_completes (h.atLastStep_iff.mpr hn)
  exact ⟨_, hstep, h.encodedTo_succ.endCycle e o, hencoded, by rw [← h.runAfterEnc]; exact hstate⟩

/-! ### The run -/

/-- One more cycle of a run, from a state in ENCODING, which offers no byte (R162). -/
theorem run_succ_encoding {s u t : State} {n : Nat} (hafter : after n s = some u) (hrecv : received n s = [])
    (he : u.state = .encoding) (hstep : step u = .next t) : after (n + 1) s = some t ∧ received (n + 1) s = [] := by
  have hsilent : handshake u = false := by simp [handshake, streamOut, he]
  exact ⟨by rw [after_add n 1 hafter]; simp [after, hstep],
    by rw [received_add n 1 hafter, hrecv]; simp [received, hsilent, hstep]⟩

/-- The current input ports n cycles on are the listed ones of place n. -/
theorem now_mem_take {s t : State} {n m : Nat} (h : t.inputs = s.inputs.drop n) (hn : n < m) (hm : m ≤ s.inputs.length) :
    t.now ∈ s.inputs.take m := by
  have hlt : n < s.inputs.length := by omega
  have hnow : t.now = s.inputs[n] := by rw [State.now, h, List.drop_eq_getElem_cons hlt]
  rw [hnow]
  exact List.mem_take_iff_getElem.mpr ⟨n, by omega, rfl⟩

/-- An encoding begins, and its W*(H+1) cycles bring neither reset nor an abort request. -/
structure UndisturbedEncoding (s : State) : Prop where
  inv : s.Inv
  encoding : s.state = .encoding
  encX : s.encX = 0
  encY : s.encY = 0
  listed : s.encodingCycles ≤ s.inputs.length
  quiet : ∀ i ∈ s.inputs.take s.encodingCycles, undisturbed s.params i = true

theorem UndisturbedEncoding.now {s t : State} {n : Nat} (h : UndisturbedEncoding s) (ht : EncodingAt s n t)
    (hn : n < s.encodingCycles) : undisturbed t.params t.now = true := by
  rw [ht.params]
  exact h.quiet _ (now_mem_take ht.inputs hn h.listed)

/-- Every one of the W*(H+1) cycles begins in ENCODING at its own step, and no byte has been sent (R146). -/
theorem UndisturbedEncoding.run {s : State} (h : UndisturbedEncoding s) (n : Nat) (hn : n < s.encodingCycles) :
    ∃ u, after n s = some u ∧ received n s = [] ∧ EncodingAt s n u := by
  induction n with
  | zero => exact ⟨s, rfl, rfl, encodingAt_start h.inv h.encoding h.encX h.encY⟩
  | succ n ih =>
    obtain ⟨u, hafter, hrecv, hat⟩ := ih (by omega)
    obtain ⟨t, hstep, hat'⟩ := hat.next (h.now hat (by omega)) (by omega)
    obtain ⟨hafter', hrecv'⟩ := run_succ_encoding hafter hrecv hat.encoding hstep
    exact ⟨t, hafter', hrecv', hat'⟩

/-- The W*(H+1) cycles leave a complete encoding, and no byte has been sent (R145, R146). -/
theorem UndisturbedEncoding.complete {s : State} (h : UndisturbedEncoding s) :
    ∃ t, after s.encodingCycles s = some t ∧ received s.encodingCycles s = [] ∧ EncodedTo s s.encodingCycles t ∧
      t.encoded = true ∧ t.state = if s.runAfterEnc then .txCol else .idle := by
  obtain ⟨-, hx, -⟩ := h.inv.cursor_inside h.encoding
  have hpos : 0 < s.encodingCycles := Nat.mul_pos (by omega) (Nat.succ_pos _)
  obtain ⟨n, hn⟩ : ∃ n, n + 1 = s.encodingCycles := ⟨s.encodingCycles - 1, by omega⟩
  obtain ⟨u, hafter, hrecv, hat⟩ := h.run n (by omega)
  obtain ⟨t, hstep, hcolumns, hencoded, hstate⟩ := hat.last (h.now hat (by omega)) hn
  obtain ⟨hafter', hrecv'⟩ := run_succ_encoding hafter hrecv hat.encoding hstep
  rw [← hn]
  exact ⟨t, hafter', hrecv', hcolumns, hencoded, hstate⟩

/-! ### The layout -/

/-- A byte of the layout is written within W*(H+1) steps exactly if its column is below W (R146, R147). -/
theorem written_iff {s : State} {x k : Nat} (hk : k ≤ 3 * s.encH.toNat) :
    x * (s.encH.toNat + 1) + k / 3 < s.encodingCycles ↔ x < s.encW.toNat := by
  constructor
  · intro h
    by_contra hx
    have : s.encodingCycles ≤ x * (s.encH.toNat + 1) := Nat.mul_le_mul_right _ (Nat.not_lt.mp hx)
    omega
  · intro hx
    exact index_lt hx (by omega)

/-- A complete encoding has the layout's byte where there is one, and the old byte elsewhere (R146 to R148). -/
theorem EncodedTo.column_complete {s t : State} {x k : Nat} (h : EncodedTo s s.encodingCycles t) (hk : k < s.params.colStride) :
    readColumn t x k = if k ≤ 3 * s.encH.toNat ∧ x < s.encW.toNat then encodedByte s x k else readColumn s x k := by
  rw [h.column x k hk]
  exact if_congr (and_congr_right written_iff) rfl rfl

/-- Settles O38: the run ends complete, and the layout is read off byte by byte. -/
theorem encodingBuildsEveryColumnBuffer : Obligations.EncodingBuildsEveryColumnBuffer := by
  intro s hi he hx hy hlen hu
  have h : UndisturbedEncoding s := ⟨hi, he, hx, hy, hlen, hu⟩
  obtain ⟨-, -, -, hfit⟩ := hi.geometry_fits (.inr he)
  obtain ⟨t, hafter, hrecv, hcolumns, hencoded, hstate⟩ := h.complete
  have hbyte : ∀ {x k}, x < s.encW.toNat → k ≤ 3 * s.encH.toNat → readColumn t x k = encodedByte s x k :=
    fun hx hk => (hcolumns.column_complete (lt_colStride hfit hk)).trans (if_pos ⟨hk, hx⟩)
  refine ⟨t, hafter, hrecv, ?_, hstate, hencoded, hcolumns.encW, hcolumns.encH, hcolumns.pix, ?_, ?_, ?_⟩
  · intro n hn
    obtain ⟨u, hu, -, hat⟩ := h.run n hn
    exact ⟨u, hu, hat.encoding⟩
  · intro x y hx hy
    rw [hbyte hx (by omega), hbyte hx (by omega), hbyte hx (by omega)]
    exact encodedByte_row x hy
  · intro x hx
    exact (hbyte hx le_rfl).trans (encodedByte_framing s x)
  · intro x k _ hk hout
    exact (hcolumns.column_complete hk).trans (if_neg (by omega))

end Sys2Proof.Machine
end

