-- ==== Sys2Proof/Proofs/OutputCycle.lean ====
section
/-! What a cycle that offers a byte can do (42_sequencer.md R162, R163, R169): the engine's own transition beside a bus effect that
writes no configuration. A byte that is offered and not taken stays offered (R177). -/

namespace Sys2Proof.Machine

/-! ### What a bus effect in a busy state keeps -/

theorem SameConfig.trans {s t u : State} (h : SameConfig s t) (k : SameConfig t u) : SameConfig s u :=
  ⟨k.params.trans h.params, k.width.trans h.width, k.height.trans h.height, k.maxLeds.trans h.maxLeds,
    k.repeatCount.trans h.repeatCount, k.colDelay.trans h.colDelay, k.loopDelay.trans h.loopDelay, k.blank.trans h.blank⟩

theorem SameEncoding.trans {s t u : State} (h : SameEncoding s t) (k : SameEncoding t u) : SameEncoding s u :=
  ⟨k.encoded.trans h.encoded, k.runAfterEnc.trans h.runAfterEnc, k.encW.trans h.encW, k.encH.trans h.encH,
    k.encX.trans h.encX, k.encY.trans h.encY⟩

theorem EngineFrame.sameConfig {s t : State} (h : EngineFrame s t) : SameConfig s t :=
  ⟨h.params, h.width, h.height, h.maxLeds, h.repeatCount, h.colDelay, h.loopDelay, h.blank⟩

theorem OutputFrame.sameEncoding {s t : State} (h : OutputFrame s t) : SameEncoding s t :=
  ⟨h.encoded, h.runAfterEnc, h.encW, h.encH, h.encX, h.encY⟩

theorem BusFrame.sameEncoding {s t : State} (h : BusFrame s t) : SameEncoding s t :=
  ⟨h.encoded, h.runAfterEnc, h.encW, h.encH, h.encX, h.encY⟩

/-- Only a quiescent state lets the host write configuration (R78, R254). -/
theorem BusWriteAllowed.ne_config {s : State} {w : BusWrite} (hw : BusWriteAllowed s w) (hb : s.state.quiescent = false)
    (c : ConfigReg) (v : Word) : w ≠ .config c v := by
  rintro rfl
  cases hb.symm.trans hw

theorem applyBusWrite_sameConfig (s : State) {w : BusWrite} (hw : ∀ c v, w ≠ .config c v) :
    SameConfig s (applyBusWrite s w) := by
  cases w with
  | config c v => exact absurd rfl (hw c v)
  | none => exact ⟨rfl, rfl, rfl, rfl, rfl, rfl, rfl, rfl⟩
  | busErr => exact ⟨rfl, rfl, rfl, rfl, rfl, rfl, rfl, rfl⟩
  | pixel x y v => exact ⟨rfl, rfl, rfl, rfl, rfl, rfl, rfl, rfl⟩

/-- Writing a pixel that exists keeps the invariant (R24, R80). -/
theorem writePixel_inv {s : State} {x y : Nat} (hxy : pixelExists s.params x y = true) (p : Pixel) (h : s.Inv) :
    (writePixel s x y p).Inv :=
  { h with
    pix_wf := writePixel_wf x y p h.pix_wf
    pix_exists := fun c hc => by
      obtain ⟨hx, hy⟩ : x < s.params.pMaxWidth ∧ y < s.params.pMaxLeds := by simpa [pixelExists] using hxy
      have hlt := index_lt hx hy
      have haddr : pixelAddr s.params x y = 0x1000000 + 4 * (x * s.params.pMaxLeds + y) := rfl
      have channel : ∀ i < 3, ∀ b : Byte, c = (pixelAddr s.params x y + i, b) →
          0x1000000 ≤ c.1 ∧ c.1 < 0x1000000 + 4 * (s.params.pMaxWidth * s.params.pMaxLeds) ∧ c.1 % 4 < 3 := by
        rintro i hi b rfl
        dsimp only
        omega
      rcases mem_of_mem_write hc with hb | hc
      · exact channel 2 (by omega) _ hb
      rcases mem_of_mem_write hc with hg | hc
      · exact channel 1 (by omega) _ hg
      rcases mem_of_mem_write hc with hr | hc
      · exact channel 0 (by omega) _ hr
      · exact h.pix_exists c hc }

/-- A bus effect of a busy state keeps the invariant (R48, R254). -/
theorem applyBusWrite_inv {s : State} {w : BusWrite} (h : s.Inv) (hw : BusWriteAllowed s w) (hc : ∀ c v, w ≠ .config c v) :
    (applyBusWrite s w).Inv := by
  cases w with
  | none => exact h
  | busErr => exact busErr_inv h true
  | config c v => exact absurd rfl (hc c v)
  | pixel x y v => exact writePixel_inv hw.2 _ h

/-! ### The offer -/

theorem streamOut_valid_iff (s : State) : (streamOut s).valid = true ↔ s.state = .txCol ∨ s.state = .txOff := by
  unfold streamOut
  cases s.state <;> simp

/-- The offer depends on STATE, the position, CBM and the sizes alone (R162). -/
theorem streamOut_congr {s t : State} (hstate : t.state = s.state) (hcol : t.curCol = s.curCol) (hidx : t.txIdx = s.txIdx)
    (hcbm : t.cbm = s.cbm) (hH : t.encH = s.encH) (hc : SameConfig s t) : streamOut t = streamOut s := by
  simp only [streamOut, readColumn, hstate, hcol, hidx, hcbm, hH, hc.params, hc.maxLeds]

theorem streamOut_cycleEnd (s : State) {w : BusWrite} (hw : ∀ c v, w ≠ .config c v) (o : PortOut) :
    streamOut ((applyBusWrite s w).tick o) = streamOut s := by
  have frame := applyBusWrite_frame s w
  exact streamOut_congr (s := s) (t := applyBusWrite s w) frame.state frame.curCol frame.txIdx frame.cbm frame.encH
    (applyBusWrite_sameConfig s hw)

/-! ### The cycle of an offered byte -/

/-- A state that offers a byte is busy (R23, R162). -/
theorem busy_of_output {s : State} (hs : s.state = .txCol ∨ s.state = .txOff) : s.state.quiescent = false := by
  rcases hs with hs | hs <;> rw [hs] <;> rfl

theorem quiescent_of_idle {s : State} (h : s.state = .idle) : s.state.quiescent = true := by
  rw [h]
  rfl

/-- Only a quiescent state accepts a command that has an effect of its own (R204). -/
theorem CommandEffect.quiescent {s u : State} (h : CommandEffect s u) : s.state.quiescent = true := by
  cases h with
  | encode ha =>
    simp only [acceptsEncode, Bool.and_eq_true, decide_eq_true_eq] at ha
    exact quiescent_of_idle ha.1
  | run ha =>
    simp only [acceptsRun, Bool.and_eq_true, decide_eq_true_eq] at ha
    obtain ⟨⟨hidle, -⟩, -⟩ := ha
    exact quiescent_of_idle hidle
  | start ha =>
    simp only [acceptsStart, Bool.and_eq_true, decide_eq_true_eq] at ha
    exact quiescent_of_idle ha.1
  | clear ha =>
    simp only [acceptsClear, Bool.and_eq_true] at ha
    exact ha.1

/-- A step without reset of a busy state is the engine's transition beside a bus effect that writes no configuration. -/
theorem busy_step_cases {s t : State} (hb : s.state.quiescent = false) (hr : s.now.rst = false) (h : step s = .next t) :
    ∃ sh w o, (∀ c v, w ≠ .config c v) ∧ t = (applyBusWrite (engine s sh) w).tick o := by
  obtain ⟨-, ⟨hrst, -⟩ | ⟨-, heffect⟩⟩ := step_cases h
  · cases hr.symm.trans hrst
  · cases heffect with
    | engine sh w r hw _ ht => exact ⟨sh, w, _, hw.ne_config hb, ht⟩
    | command u hu _ => cases hb.symm.trans hu.quiescent

/-- A sink failure in an output state enters ERROR, whatever abort is requested (R163, R169, R215). -/
theorem engine_sinkErr {s : State} (hs : s.state = .txCol ∨ s.state = .txOff) (he : s.now.sinkErr = true) (sh : Bool) :
    engine s sh = enterError s .deviceWriteFailure := by
  have hno : abortTaken s sh = false := by
    rcases hs with hs | hs <;> simp [abortTaken, hs, he, SeqState.abortable]
  rw [engine_of_no_abort hno]
  rcases hs with hs | hs
  · simp [stateStep, hs, txColStep, he]
  · simp [stateStep, hs, txOffStep, he]

/-- In an output state a sink that is not ready holds the transition back (R163, R169). -/
theorem stateStep_stalled {s : State} (hs : s.state = .txCol ∨ s.state = .txOff) (he : s.now.sinkErr = false)
    (ho : s.now.outReady = false) (a : Bool) : stateStep s a = s := by
  rcases hs with hs | hs
  · simp [stateStep, hs, txColStep, he, ho]
  · simp [stateStep, hs, txOffStep, he, ho]

/-- A stalled cycle keeps the offer: the engine does no more than latch an abort (R177, R222). -/
theorem streamOut_engine_stalled {s : State} (hs : s.state = .txCol ∨ s.state = .txOff) (he : s.now.sinkErr = false)
    (ho : s.now.outReady = false) (sh : Bool) : streamOut (engine s sh) = streamOut s := by
  unfold engine
  rw [stateStep_stalled hs he ho, stateStep_stalled hs he ho]
  split
  · rfl
  · rfl

/-- Settles O46: the sink fails, or the byte stalls, or the cycle is a reset. -/
theorem offerIsStable : Obligations.OfferIsStable := by
  intro s t hvalid hno h
  have hs := (streamOut_valid_iff s).mp hvalid
  refine ⟨fun hr he => ?_, fun hr he => ?_, fun hr => ?_⟩
  · have ho : s.now.outReady = false := by simpa [handshake, hvalid, hr, he] using hno
    obtain ⟨sh, w, o, hw, rfl⟩ := busy_step_cases (busy_of_output hs) hr h
    exact (streamOut_cycleEnd _ hw o).trans (streamOut_engine_stalled hs he ho sh)
  · obtain ⟨sh, w, o, hw, rfl⟩ := busy_step_cases (busy_of_output hs) hr h
    rw [streamOut_cycleEnd _ hw, engine_sinkErr hs he]
    exact ⟨(applyBusWrite_frame _ w).state, rfl⟩
  · obtain ⟨-, ⟨-, rfl⟩ | ⟨hrst, -⟩⟩ := step_cases h
    · rfl
    · cases hr.symm.trans hrst

end Sys2Proof.Machine
end

