-- ==== Sys2Proof/Proofs/OffBuffer.lean ====
section
/-! The statement about the off buffer (42_sequencer.md R169, R170): a run through TX_OFF is an induction over its bytes. -/

namespace Sys2Proof.Machine

/-! ### What TX_OFF keeps -/

/-- What no cycle of TX_OFF writes: ITER, CUR_COL, SIGNAL, CBM, the configuration and the encoding's registers. -/
structure KeptInTxOff (s t : State) : Prop where
  iter : t.iter = s.iter
  curCol : t.curCol = s.curCol
  signal : t.signal = s.signal
  cbm : t.cbm = s.cbm
  config : SameConfig s t
  encoding : SameEncoding s t

theorem KeptInTxOff.refl (s : State) : KeptInTxOff s s :=
  ⟨rfl, rfl, rfl, rfl, (EngineFrame.refl s).sameConfig, (OutputFrame.refl s).sameEncoding⟩

theorem KeptInTxOff.trans {s t u : State} (h : KeptInTxOff s t) (k : KeptInTxOff t u) : KeptInTxOff s u :=
  ⟨k.iter.trans h.iter, k.curCol.trans h.curCol, k.signal.trans h.signal, k.cbm.trans h.cbm, h.config.trans k.config,
    h.encoding.trans k.encoding⟩

theorem txOffStep_kept (s : State) : KeptInTxOff s (txOffStep s) := by
  have frame := txOffStep_frame s
  have hpos : (txOffStep s).iter = s.iter ∧ (txOffStep s).curCol = s.curCol ∧ (txOffStep s).signal = s.signal := by
    unfold txOffStep
    split_ifs <;> exact ⟨rfl, rfl, rfl⟩
  obtain ⟨hiter, hcol, hsignal⟩ := hpos
  exact ⟨hiter, hcol, hsignal, frame.cbm, frame.sameConfig, frame.sameEncoding⟩

theorem cycleEnd_kept (s : State) {w : BusWrite} (hw : ∀ c v, w ≠ .config c v) (o : PortOut) :
    KeptInTxOff s ((applyBusWrite s w).tick o) := by
  have frame := applyBusWrite_frame s w
  exact ⟨frame.iter, frame.curCol, frame.signal, frame.cbm, { applyBusWrite_sameConfig s hw with },
    { frame.sameEncoding with }⟩

/-! ### The cycle -/

/-- In TX_OFF no abort is taken (R218, R224). -/
theorem engine_txOff {s : State} (hs : s.state = .txOff) (sh : Bool) : engine s sh = txOffStep s := by
  rw [engine_of_no_abort (by simp [abortTaken, hs, SeqState.abortable]), stateStep, hs]

/-- A cycle of TX_OFF without reset is its own transition beside a bus effect that writes no configuration (R169, R254). -/
theorem step_txOff {s : State} (hi : s.Inv) (hs : s.state = .txOff) (hr : s.now.rst = false) :
    ∃ w o, BusWriteAllowed s w ∧ (∀ c v, w ≠ .config c v) ∧ step s = .next ((applyBusWrite (txOffStep s) w).tick o) := by
  obtain ⟨w, r, hallowed, hconfig, hstep⟩ := busy_step hi hr (busy_of_output (.inr hs))
  rw [engine_txOff hs] at hstep
  exact ⟨w, _, hallowed, hconfig, hstep⟩

/-- A byte before the last is followed by the next one (R169). -/
theorem txOffStep_next {s : State} (hk : sinkReady s.now = true) (hidx : s.txIdx.toNat < 3 * s.maxLeds.toNat + 2) :
    txOffStep s = { s with txIdx := s.txIdx + 1 } := by
  obtain ⟨ho, he⟩ : s.now.outReady = true ∧ s.now.sinkErr = false := by simpa [sinkReady] using hk
  simp [txOffStep, he, ho, hidx]

/-- The last byte ends the run in DONE (R169, R227). -/
theorem txOffStep_last {s : State} (hk : sinkReady s.now = true) (hidx : s.txIdx.toNat = 3 * s.maxLeds.toNat + 2) :
    txOffStep s = { s with txIdx := 0, exitFlag := false, abortPend := false, state := .done } := by
  obtain ⟨ho, he⟩ : s.now.outReady = true ∧ s.now.sinkErr = false := by simpa [sinkReady] using hk
  simp [txOffStep, he, ho, hidx]

/-- Moving inside the off buffer keeps the invariant (R169). -/
theorem offMove_inv {s : State} {k : BitVec 32} (h : s.Inv) (hs : s.state = .txOff) (hk : k.toNat ≤ 3 * s.maxLeds.toNat + 2) :
    State.Inv { s with txIdx := k } :=
  { h with
    column_byte := fun e => absurd (hs.symm.trans e) nofun
    off_byte := fun _ => hk }

/-- Byte k of an off buffer as the sink receives it (R162, R170). -/
def offByte (maxLeds k : Nat) : Byte × Bool := (0x80, decide (k = 3 * maxLeds + 2))

theorem offStream_eq_map_offByte (maxLeds : Nat) : offStream maxLeds = (List.range (3 * maxLeds + 3)).map (offByte maxLeds) := rfl

theorem streamOut_txOff {s : State} (hs : s.state = .txOff) :
    streamOut s = { valid := true, data := 0x80, last := decide (s.txIdx.toNat = 3 * s.maxLeds.toNat + 2) } := by
  simp [streamOut, hs]

/-! ### The first n bytes of an off buffer -/

/-- State t stands at byte n of the off buffer begun in s. -/
structure OffBufferAt (s : State) (n : Nat) (t : State) : Prop where
  inv : t.Inv
  txOff : t.state = .txOff
  txIdx : t.txIdx.toNat = n
  inputs : t.inputs = s.inputs.drop n
  kept : KeptInTxOff s t

theorem offBufferAt_start {s : State} (hi : s.Inv) (hs : s.state = .txOff) (hidx : s.txIdx = 0) : OffBufferAt s 0 s :=
  ⟨hi, hs, by rw [hidx]; rfl, rfl, .refl s⟩

/-- A handshake before the last byte goes on to the next byte (R169). -/
theorem OffBufferAt.next {s t : State} {n : Nat} (h : OffBufferAt s n t) (hr : t.now.rst = false)
    (hk : sinkReady t.now = true) (hn : n < 3 * s.maxLeds.toNat + 2) : ∃ u, step t = .next u ∧ OffBufferAt s (n + 1) u := by
  obtain ⟨w, o, hallowed, hconfig, hstep⟩ := step_txOff h.inv h.txOff hr
  have hlt : t.txIdx.toNat < 3 * t.maxLeds.toNat + 2 := by rw [h.txIdx, h.kept.config.maxLeds]; exact hn
  have hsucc : (t.txIdx + 1).toNat = t.txIdx.toNat + 1 := by
    have := t.maxLeds.isLt
    bv_omega
  have hmove := txOffStep_next hk hlt
  have hkept := (h.kept.trans (txOffStep_kept t)).trans (cycleEnd_kept _ hconfig o)
  rw [hmove] at hstep hkept
  have hinv : State.Inv { t with txIdx := t.txIdx + 1 } := offMove_inv h.inv h.txOff (by omega)
  have frame := applyBusWrite_frame { t with txIdx := t.txIdx + 1 } w
  refine ⟨_, hstep, tick_inv (applyBusWrite_inv hinv hallowed hconfig) o, frame.state.trans h.txOff, ?_, ?_, hkept⟩
  · rw [tick_txIdx, frame.txIdx, hsucc, h.txIdx]
  · rw [tick_inputs, frame.inputs, h.inputs, List.tail_drop]

/-- The handshake of the last byte ends the run in DONE, with EXIT and ABORT_PEND 0 (R169, R227). -/
theorem OffBufferAt.last {s t : State} (h : OffBufferAt s (3 * s.maxLeds.toNat + 2) t) (hr : t.now.rst = false)
    (hk : sinkReady t.now = true) :
    ∃ u, step t = .next u ∧ u.state = .done ∧ u.exitFlag = false ∧ u.abortPend = false ∧ KeptInTxOff s u := by
  obtain ⟨w, o, -, hconfig, hstep⟩ := step_txOff h.inv h.txOff hr
  have hend := txOffStep_last hk (by rw [h.txIdx, h.kept.config.maxLeds])
  have frame := applyBusWrite_frame (txOffStep t) w
  exact ⟨_, hstep, frame.state.trans (by rw [hend]), frame.exitFlag.trans (by rw [hend]), frame.abortPend.trans (by rw [hend]),
    (h.kept.trans (txOffStep_kept t)).trans (cycleEnd_kept _ hconfig o)⟩

/-! ### The run -/

/-- One more cycle of a run, in which the sink takes the offered byte (R162). -/
theorem run_succ_handshake {s u t : State} {n : Nat} (hafter : after n s = some u) (hh : handshake u = true)
    (hstep : step u = .next t) :
    after (n + 1) s = some t ∧ received (n + 1) s = received n s ++ [((streamOut u).data, (streamOut u).last)] :=
  ⟨by rw [after_add n 1 hafter]; simp [after, hstep], by rw [received_add n 1 hafter]; simp [received, hh, hstep]⟩

/-- An off buffer begins, and its 3*MAX_LEDS + 3 cycles bring no reset and a sink that takes every byte. -/
structure ReadyOffBuffer (s : State) : Prop where
  inv : s.Inv
  txOff : s.state = .txOff
  txIdx : s.txIdx = 0
  listed : 3 * s.maxLeds.toNat + 3 ≤ s.inputs.length
  ready : ∀ i ∈ s.inputs.take (3 * s.maxLeds.toNat + 3), i.rst = false ∧ sinkReady i = true

theorem ReadyOffBuffer.now {s t : State} {n : Nat} (h : ReadyOffBuffer s) (ht : OffBufferAt s n t)
    (hn : n < 3 * s.maxLeds.toNat + 3) : t.now.rst = false ∧ sinkReady t.now = true :=
  h.ready _ (now_mem_take ht.inputs hn h.listed)

/-- The cycle of byte n sends byte n, whatever it leads to (R162, R170). -/
theorem ReadyOffBuffer.send {s t u : State} {n : Nat} (h : ReadyOffBuffer s) (ht : OffBufferAt s n t)
    (hn : n < 3 * s.maxLeds.toNat + 3) (hafter : after n s = some t)
    (hrecv : received n s = (List.range n).map (offByte s.maxLeds.toNat)) (hstep : step t = .next u) :
    after (n + 1) s = some u ∧ received (n + 1) s = (List.range (n + 1)).map (offByte s.maxLeds.toNat) := by
  obtain ⟨hr, hk⟩ := h.now ht hn
  have hoffer := streamOut_txOff ht.txOff
  rw [ht.txIdx, ht.kept.config.maxLeds] at hoffer
  have hh : handshake t = true := by
    obtain ⟨ho, he⟩ : t.now.outReady = true ∧ t.now.sinkErr = false := by simpa [sinkReady] using hk
    simp [handshake, hoffer, hr, ho, he]
  obtain ⟨hafter', hrecv'⟩ := run_succ_handshake hafter hh hstep
  refine ⟨hafter', ?_⟩
  rw [hrecv', hrecv, hoffer, List.range_succ, List.map_append]
  rfl

/-- Each of the 3*MAX_LEDS + 3 cycles begins in TX_OFF at its own byte, with the bytes before it sent (R170). -/
theorem ReadyOffBuffer.run {s : State} (h : ReadyOffBuffer s) (n : Nat) (hn : n < 3 * s.maxLeds.toNat + 3) :
    ∃ u, after n s = some u ∧ received n s = (List.range n).map (offByte s.maxLeds.toNat) ∧ OffBufferAt s n u := by
  induction n with
  | zero => exact ⟨s, rfl, rfl, offBufferAt_start h.inv h.txOff h.txIdx⟩
  | succ n ih =>
    obtain ⟨u, hafter, hrecv, hat⟩ := ih (by omega)
    obtain ⟨hr, hk⟩ := h.now hat (by omega)
    obtain ⟨t, hstep, hat'⟩ := hat.next hr hk (by omega)
    obtain ⟨hafter', hrecv'⟩ := h.send hat (by omega) hafter hrecv hstep
    exact ⟨t, hafter', hrecv', hat'⟩

/-- Settles O45: the run stands at the last byte after 3*MAX_LEDS + 2 cycles, and one more sends it and ends in DONE. -/
theorem offBufferIsSentWhole : Obligations.OffBufferIsSentWhole := by
  intro s hi hs hidx hlen hready
  have h : ReadyOffBuffer s := ⟨hi, hs, hidx, hlen, hready⟩
  obtain ⟨u, hafter, hrecv, hat⟩ := h.run (3 * s.maxLeds.toNat + 2) (by omega)
  obtain ⟨hr, hk⟩ := h.now hat (by omega)
  obtain ⟨t, hstep, hdone, hexit, hpend, kept⟩ := hat.last hr hk
  obtain ⟨hafter', hrecv'⟩ := h.send hat (by omega) hafter hrecv hstep
  exact ⟨hrecv', t, hafter', hdone, hexit, hpend, kept.iter, kept.curCol, kept.signal, kept.cbm, kept.config, kept.encoding⟩

end Sys2Proof.Machine
end

