-- ==== Sys2Proof/Proofs/SinkPorts.lean ====
section
/-! The statements about the cycles in which `sink_err` and `sink_avail` matter (42_sequencer.md R178, R179). Replacing input ports
that neither the engine nor the command of the cycle reads does not change the step. -/

namespace Sys2Proof.Machine

/-! ### Ports that the engine does not see -/

/-- With input ports i in the current cycle the same aborts are taken, and the engine's transition is the same. -/
structure SameEngine (s : State) (i : PortIn) : Prop where
  abort : ∀ sh, abortTaken (s.withInput i) sh = abortTaken s sh
  engine : ∀ sh, engine (s.withInput i) sh = (engine s sh).withInput i

theorem SameEngineInputs.sameEngine {s : State} {i : PortIn} (h : SameEngineInputs s.now i) : SameEngine s i :=
  ⟨abortTaken_withInput h, engine_withInput h⟩

/-- Outside TX_COL and TX_OFF no transition reads the input ports (R142, R144, R165, R168). -/
theorem stateStep_withInput_of_noOutput {s : State} (hcol : s.state ≠ .txCol) (hoff : s.state ≠ .txOff) (i : PortIn) (a : Bool) :
    stateStep (s.withInput i) a = (stateStep s a).withInput i := by
  unfold stateStep
  rw [encodingStep_withInput, waitColStep_withInput, waitLoopStep_withInput, withInput_state]
  cases hs : s.state with
  | txCol => exact absurd hs hcol
  | txOff => exact absurd hs hoff
  | _ => cases a <;> rfl

/-- Outside TX_COL and TX_OFF the engine does not see `sink_err` (R179, R219). -/
theorem sameEngine_sinkErr {s : State} (hcol : s.state ≠ .txCol) (hoff : s.state ≠ .txOff) (e : Bool) :
    SameEngine s { s.now with sinkErr := e } := by
  have habort : ∀ sh, abortTaken (s.withInput { s.now with sinkErr := e }) sh = abortTaken s sh := fun sh => by
    simp [abortTaken, abortReq, hcol]
  refine ⟨habort, fun sh => ?_⟩
  unfold engine
  rw [habort, stateStep_withInput_of_noOutput hcol hoff, stateStep_withInput_of_noOutput hcol hoff]
  cases abortTaken s sh <;> rfl

theorem SameEngine.engineCycle_eq {s : State} {i : PortIn} (h : SameEngine s i) (sh : Bool) (w : BusWrite) (r : BusResp) :
    engineCycle (s.withInput i) sh w r = engineCycle s sh w r := by
  unfold engineCycle
  rw [withInput_params, h.abort, engineFault_withInput, h.engine, streamOut_withInput, tick_applyBusWrite_withInput]

/-! ### Ports that a command does not see -/

/-- The cycle's command samples `sink_avail`: it is RUN or START, and accepted (R178). -/
def samplesSink (s : State) : Instr → Bool
  | .nop => false
  | .encode => false
  | .run => acceptsRun s
  | .start => acceptsStart s
  | .shutdown => false
  | .clear => false

theorem encodeEffect_withInput (s : State) (i : PortIn) : encodeEffect (s.withInput i) = (encodeEffect s).withInput i := by
  have hcheck : checkGeometry (s.withInput i) = checkGeometry s := rfl
  unfold encodeEffect
  rw [hcheck]
  split_ifs <;> rfl

theorem runEffect_withInput {s : State} {i : PortIn} (h : i.sinkAvail = s.now.sinkAvail) :
    runEffect (s.withInput i) = (runEffect s).withInput i := by
  unfold runEffect
  rw [withInput_now, h, withInput_maxLeds, withInput_params, withInput_encH]
  split_ifs <;> rfl

theorem startEffect_withInput {s : State} {i : PortIn} (h : i.sinkAvail = s.now.sinkAvail) :
    startEffect (s.withInput i) = (startEffect s).withInput i := by
  have hcheck : checkGeometry (s.withInput i) = checkGeometry s := rfl
  unfold startEffect
  rw [withInput_now, h, hcheck]
  split_ifs <;> rfl

/-- A command with an effect of its own answers alike if the ports change neither the engine nor, where it is accepted, the effect. -/
theorem acceptOrReject_withInput {s t u : State} {i : PortIn} {accept : Bool} (h : SameEngine s i)
    (hu : accept = true → u = t.withInput i) :
    (if accept then commandCycle (s.withInput i) u else rejectCommand (s.withInput i)) =
      if accept then commandCycle s t else rejectCommand s := by
  cases accept with
  | false => exact h.engineCycle_eq false .busErr errResp
  | true => rw [hu rfl]; rfl

/-- A command sees of the input ports what the engine sees, and `sink_avail` where it samples the sink (R178, R204). -/
theorem exec_withInput {s : State} {i : PortIn} (h : SameEngine s i) (c : Instr)
    (hc : samplesSink s c = true → i.sinkAvail = s.now.sinkAvail) : exec c (s.withInput i) = exec c s := by
  cases c with
  | nop => exact h.engineCycle_eq false .none (okay 0)
  | shutdown => exact h.engineCycle_eq true .none (okay 0)
  | encode =>
    have ha : acceptsEncode (s.withInput i) = acceptsEncode s := by rw [acceptsEncode, h.abort]; rfl
    simp only [exec, execEncode, ha]
    exact acceptOrReject_withInput h fun _ => encodeEffect_withInput s i
  | run =>
    have ha : acceptsRun (s.withInput i) = acceptsRun s := by rw [acceptsRun, h.abort]; rfl
    simp only [exec, execRun, ha]
    exact acceptOrReject_withInput h fun hacc => runEffect_withInput (hc hacc)
  | start =>
    have ha : acceptsStart (s.withInput i) = acceptsStart s := by rw [acceptsStart, h.abort]; rfl
    simp only [exec, execStart, ha]
    exact acceptOrReject_withInput h fun hacc => startEffect_withInput (hc hacc)
  | clear =>
    have ha : acceptsClear (s.withInput i) = acceptsClear s := by rw [acceptsClear, h.abort]; rfl
    simp only [exec, execClear, ha]
    exact acceptOrReject_withInput h fun _ => rfl

/-! ### The step -/

/-- A bus access sees only the bus ports (R73). -/
theorem accessCycle_withInput {s : State} {i : PortIn} (h : SameEngine s i) (a : Access) :
    accessCycle (s.withInput i) a = accessCycle s a := by
  have hw : accessWrite (s.withInput i) a = accessWrite s a := by
    cases a with
    | none => rfl
    | read g => simp only [accessWrite, busRead_withInput]
    | write g v => rfl
  have hr : accessResp (s.withInput i) a = accessResp s a := by
    cases a with
    | none => rfl
    | read g => simp only [accessResp, busRead_withInput]
    | write g v => rfl
  rw [accessCycle, hw, hr]
  exact h.engineCycle_eq false _ _

/-- What reset and the bus see of two input ports is the same (R73, R250). -/
structure SameHostInputs (i j : PortIn) : Prop where
  rst : j.rst = i.rst
  busReq : j.busReq = i.busReq
  busWe : j.busWe = i.busWe
  busAddr : j.busAddr = i.busAddr
  busWdata : j.busWdata = i.busWdata

theorem SameHostInputs.presented_eq {i j : PortIn} (h : SameHostInputs i j) (p : Params) : presented p j = presented p i := by
  simp only [presented, h.busReq, h.busWe, h.busAddr, h.busWdata]

/-- A step sees of the input ports `rst`, the bus, what the engine sees, and `sink_avail` where a command samples the sink. -/
theorem step_withInput {s : State} {i : PortIn} (h : SameEngine s i) (hh : SameHostInputs s.now i)
    (hc : ∀ w c, presented s.params s.now = .command w → decode w = .ok c → samplesSink s c = true →
      i.sinkAvail = s.now.sinkAvail) : step (s.withInput i) = step s := by
  have hreset : resetCycle (s.withInput i) = resetCycle s := by
    rw [resetCycle, withInput_now, hh.busReq]
    rfl
  unfold step
  rw [withInput_now, withInput_params, hh.rst, hh.presented_eq, hreset]
  cases hp : presented s.params s.now with
  | access a => simp only [accessCycle_withInput h]
  | command w =>
    cases hd : decode w with
    | error e => simp only [hd, illegalCommand, rejectCommand, h.engineCycle_eq]
    | ok c => simp only [hd, exec_withInput h c (hc w c hp hd)]

/-- Settles O51: outside the output states the engine does not see `sink_err`, and nothing else of a step reads it. -/
theorem sinkErrActsOnlyInOutputStates : Obligations.SinkErrActsOnlyInOutputStates :=
  fun _ e hcol hoff => step_withInput (sameEngine_sinkErr hcol hoff e) ⟨rfl, rfl, rfl, rfl, rfl⟩ fun _ _ _ _ _ => rfl

/-- Settles O52: the engine never sees `sink_avail`, and no command of the cycle samples it. -/
theorem sinkAvailIsSampledOnlyByRunAndStart : Obligations.SinkAvailIsSampledOnlyByRunAndStart := by
  intro s e hrun hstart
  have same : SameEngineInputs s.now { s.now with sinkAvail := e } := ⟨rfl, rfl, rfl, rfl, rfl, rfl⟩
  refine step_withInput same.sameEngine ⟨rfl, rfl, rfl, rfl, rfl⟩ fun w c hp hd hc => ?_
  cases c with
  | run => cases (hrun w hp hd).symm.trans hc
  | start => cases (hstart w hp hd).symm.trans hc
  | _ => cases hc

end Sys2Proof.Machine
end

