-- ==== Sys2Proof/Proofs/Control.lean ====
section
/-! The statements about NOP and the illegal opcodes (43_control.md R200, R203): a cycle in which the engine goes on as it would
without a transaction. -/

namespace Sys2Proof.Machine

/-! ### Illegal opcodes -/

/-- The opcode field is the word's low four bits (R101). -/
theorem opField_toNat (w : Word) : (opField w).toNat = w.toNat % 16 := by
  simp [opField]

/-- A word whose opcode is 0x6 to 0xF decodes to no command (R103). -/
theorem decode_illegal {w : Word} (h : 6 ≤ w.toNat % 16) : decode w = .error (.illegalOpcode (opField w)) := by
  rw [← opField_toNat] at h
  unfold decode decodeOp
  split
  case h_7 => rfl
  all_goals omega

/-- Offset 0x10 selects CMD in every instantiation (R26, R72). -/
theorem decodeAddress_cmd (p : Params) : decodeAddress p 0x10 = .csr .cmd := rfl

/-- A write to offset 0x10 presents a command, whatever the word (R30). -/
theorem presented_withWrite_cmd (s : State) (w : Word) :
    presented (s.withWrite 0x10 w).params (s.withWrite 0x10 w).now = .command w :=
  if_pos (decodeAddress_cmd s.params)

/-- A word presented to CMD that decodes to no command is a rejected command (R203, R204). -/
theorem step_of_decode_error {s : State} {w : Word} {e : DecodeReject} (hr : s.now.rst = false)
    (hp : presented s.params s.now = .command w) (hd : decode w = .error e) : step s = rejectCommand s := by
  unfold step
  rw [hp]
  simp only [hr, hd]
  rfl

/-- A rejected command leaves the same whatever the bus write it came by (R204). -/
theorem rejectCommand_withWrite (s : State) (a : Nat) (v : Word) : rejectCommand (s.withWrite a v) = rejectCommand s :=
  engineCycle_withInput (s := s)
    (i := { s.now with busReq := true, busWe := true, busAddr := BitVec.ofNat 26 a, busWdata := v })
    ⟨rfl, rfl, rfl, rfl, rfl, rfl⟩ false .busErr errResp

/-- A CMD write of an illegal opcode is a rejected command of the cycle it is presented in (R203). -/
theorem step_withWrite_illegal {s : State} {w : Word} (hr : s.now.rst = false) (hw : 6 ≤ w.toNat % 16) :
    step (s.withWrite 0x10 w) = rejectCommand s :=
  (step_of_decode_error (s := s.withWrite 0x10 w) hr (presented_withWrite_cmd s w) (decode_illegal hw)).trans
    (rejectCommand_withWrite s 0x10 w)

/-- Settles O34: the word decodes to no command, and a rejected command is BUS_ERR beside the engine's own transition. -/
theorem illegalOpcodesAreRejected : Obligations.IllegalOpcodesAreRejected := by
  intro s w hi hr hw
  have hnext := engineCycle_inv hi false .busErr errResp
  obtain ⟨u, hu, ht⟩ := rejectCommand_withBusErr hr hnext
  exact ⟨u, hu, ht ▸ (step_withWrite_illegal hr hw).trans hnext⟩

/-! ### Quiescent states -/

theorem quiescent_iff (q : SeqState) : q.quiescent = true ↔ q = .idle ∨ q = .done ∨ q = .error := by
  cases q <;> decide

/-- In a quiescent state with no abort taken the engine does nothing (R226). -/
theorem engine_quiescent {s : State} {sh : Bool} (hq : s.state.quiescent = true) (ha : abortTaken s sh = false) :
    engine s sh = s := by
  rw [engine_of_no_abort ha]
  rcases (quiescent_iff s.state).mp hq with h | h | h <;> simp [stateStep, h]

/-- In a quiescent state the engine accesses no memory and no delay counter (log entry 5). -/
theorem engineFault_quiescent {s : State} (hq : s.state.quiescent = true) (a : Bool) : engineFault s a = none := by
  rcases (quiescent_iff s.state).mp hq with h | h | h <;> simp [engineFault, h]

/-- In a quiescent state no byte is offered (R162). -/
theorem streamOut_quiescent {s : State} (hq : s.state.quiescent = true) : streamOut s = silentStream := by
  rcases (quiescent_iff s.state).mp hq with h | h | h <;> simp [streamOut, silentStream, h]

/-- An engine cycle of a quiescent state with no abort taken does nothing but its bus effect (R47, R226). -/
theorem engineCycle_quiescent {s : State} {sh : Bool} (hl : s.params.legal = true) (hq : s.state.quiescent = true)
    (ha : abortTaken s sh = false) (w : BusWrite) (r : BusResp) :
    engineCycle s sh w r = .next ((applyBusWrite s w).tick { bus := r, stream := silentStream }) :=
  engineCycle_next_iff.mpr
    ⟨hl, engineFault_quiescent hq _, by rw [engine_quiescent hq ha, streamOut_quiescent hq]⟩

/-! ### NOP -/

/-- NOP is the engine's own cycle, answered OKAY (R200). -/
theorem exec_nop (s : State) : exec .nop s = engineCycle s false .none (okay 0) := rfl

/-- NOP is the same cycle without a transaction (R200). -/
theorem exec_nop_eq_step_withoutBus {s : State} (hr : s.now.rst = false) : exec .nop s = step s.withoutBus :=
  (exec_nop s).trans (step_withoutBus s hr).symm

/-- Settles O26: NOP is the engine's own cycle, which does nothing in a quiescent state without an abort. -/
theorem nopHasNoEffect : Obligations.NopHasNoEffect := by
  constructor
  · intro s hi hr
    have hnext := (exec_nop s).trans (engineCycle_inv hi false .none (okay 0))
    exact ⟨_, hnext, (exec_nop_eq_step_withoutBus hr).symm.trans hnext, rfl⟩
  · intro s hl hs ha
    exact (exec_nop s).trans (engineCycle_quiescent hl ((quiescent_iff s.state).mpr hs) ha .none (okay 0))

end Sys2Proof.Machine
end

section
/-! The statements about reset and about the configuration of a busy block (70_reset_and_hazards.md R250, R251, R254). -/

namespace Sys2Proof.Machine

/-! ### The configuration in a busy state -/

/-- The end of a cycle keeps the configuration (R10). -/
theorem tick_sameConfig (s : State) (o : PortOut) : SameConfig s (s.tick o) :=
  ⟨rfl, rfl, rfl, rfl, rfl, rfl, rfl, rfl⟩

/-- No step without reset of a busy state changes the configuration: neither the engine nor the bus effect writes it (R254). -/
theorem busy_step_sameConfig {s t : State} (hb : s.state.quiescent = false) (hr : s.now.rst = false) (h : step s = .next t) :
    SameConfig s t := by
  obtain ⟨sh, w, o, hw, rfl⟩ := busy_step_cases hb hr h
  have hengine : SameConfig s (engine s sh) := (engine_frame s sh).sameConfig
  have hbus : SameConfig (engine s sh) (applyBusWrite (engine s sh) w) := applyBusWrite_sameConfig _ hw
  exact (hengine.trans hbus).trans (tick_sameConfig _ o)

/-- The busy states are those that R254 lists (R23). -/
theorem busy_iff (q : SeqState) :
    q.quiescent = false ↔ q = .encoding ∨ q = .txCol ∨ q = .waitCol ∨ q = .waitLoop ∨ q = .txOff := by
  cases q <;> decide

/-- The offset of a register selects it in every instantiation (R26, R72). -/
theorem decodeAddress_csrOffset (p : Params) (r : Csr) : decodeAddress p (BitVec.ofNat 26 (csrOffset r)) = .csr r := by
  cases r <;> rfl

/-- A configuration register is not CMD (R26). -/
theorem configCsr_ne_cmd (r : ConfigReg) : BusTarget.csr (configCsr r) ≠ .csr .cmd := by
  cases r <;> nofun

/-- A configuration register is written through its own CSR (R78). -/
theorem configReg?_configCsr (r : ConfigReg) : configReg? (configCsr r) = some r := by
  cases r <;> rfl

/-- A busy state lets no configuration write through (R78, R254). -/
theorem busWrite_configCsr_busy {s : State} (hb : s.state.quiescent = false) (r : ConfigReg) (v : Word) :
    busWrite s (.csr (configCsr r)) v = .busErr := by
  simp only [busWrite, configReg?_configCsr, hb, Bool.false_eq_true, if_false]

/-- A write whose effect is BUS_ERR is a rejected command of the cycle it is presented in (R77). -/
theorem step_withWrite_busErr {s : State} {a : Nat} {g : BusTarget} {v : Word} (hr : s.now.rst = false)
    (hg : decodeAddress s.params (BitVec.ofNat 26 a) = g) (hc : g ≠ .csr .cmd) (he : busWrite s g v = .busErr) :
    step (s.withWrite a v) = rejectCommand s := by
  have hp : presented (s.withWrite a v).params (s.withWrite a v).now = .access (.write g v) := by
    subst hg
    exact if_neg hc
  calc
    step (s.withWrite a v) = accessCycle (s.withWrite a v) (.write g v) := step_access (s := s.withWrite a v) hr hp
    _ = rejectCommand (s.withWrite a v) := accessCycle_of_busErr he
    _ = rejectCommand s := rejectCommand_withWrite s a v

/-- Settles O24: the engine and the bus effects of a busy state write no configuration, and a configuration write is rejected. -/
theorem configurationIsFrozenWhileBusy : Obligations.ConfigurationIsFrozenWhileBusy := by
  intro s hs hr
  have hb := (busy_iff s.state).mpr hs
  refine ⟨fun t h => busy_step_sameConfig hb hr h, fun r v t h => ?_⟩
  rw [step_withWrite_busErr hr (decodeAddress_csrOffset s.params (configCsr r)) (configCsr_ne_cmd r)
    (busWrite_configCsr_busy hb r v)] at h
  exact engineCycle_out h

/-! ### Reset -/

/-- Reset overrides whatever else the cycle presents (R229, R250). -/
theorem step_reset {s : State} (hr : s.now.rst = true) : step s = resetCycle s := if_pos hr

/-- The response of a reset cycle: ERR exactly for a transaction, the read data 0 (R73, R250, log entry 15). -/
theorem resetResp_eq (req : Bool) : (if req then errResp else okay 0) = { rdata := 0, err := req } := by
  cases req <;> rfl

/-- Settles O8: a reset cycle is `resetState` with its response and the silent stream. -/
theorem resetCycleLeavesTheResetState : Obligations.ResetCycleLeavesTheResetState := by
  intro s hl hr
  have hnext := (step_reset hr).trans (resetCycle_next_iff.mpr ⟨hl, rfl⟩)
  rw [resetResp_eq] at hnext
  exact hnext

/-- A step with reset leaves the reset state of an admitted instantiation (R49, R250). -/
theorem step_reset_cases {s t : State} (hr : s.now.rst = true) (h : step s = .next t) :
    s.params.legal = true ∧ ∃ o, t = (resetState s).tick o := by
  obtain ⟨hl, ht⟩ := resetCycle_next_iff.mp ((step_reset hr).symm.trans h)
  exact ⟨hl, _, ht⟩

/-- Every field of STATUS is 0 after reset (R31, R251). -/
theorem statusWord_resetState (s : State) (o : PortOut) : statusWord ((resetState s).tick o) = 0 := by
  simp [statusWord, flagBit, AbortCause.code, ErrCode.code, SeqState.code]

/-- CAP0 is `P_MAX_WIDTH << 16 | P_MAX_LEDS` in an admitted instantiation, whose parameters fit their halves (R5, R28). -/
theorem cap0Word_eq_shift_or {p : Params} (hp : p.legal = true) :
    cap0Word p = BitVec.ofNat 32 (p.pMaxWidth <<< 16 ||| p.pMaxLeds) := by
  obtain ⟨-, hleds, -, hwidth, -⟩ := legal_bounds hp
  have hshift : p.pMaxWidth <<< 16 < 2 ^ 32 := by
    rw [Nat.shiftLeft_eq]
    omega
  apply BitVec.eq_of_toNat_eq
  rw [cap0Word, BitVec.toNat_append, BitVec.toNat_ofNat, BitVec.toNat_ofNat, BitVec.toNat_ofNat,
    Nat.mod_eq_of_lt (by omega : p.pMaxWidth < 2 ^ 16), Nat.mod_eq_of_lt (by omega : p.pMaxLeds < 2 ^ 16),
    Nat.mod_eq_of_lt (Nat.or_lt_two_pow hshift (by omega))]

/-- Settles O9: the registers are read in the reset state, whose parameters are those before it. -/
theorem outputsAfterReset : Obligations.OutputsAfterReset := by
  refine ⟨fun s t hr h => ?_, by decide, by decide⟩
  obtain ⟨hl, o, rfl⟩ := step_reset_cases hr h
  exact ⟨rfl, rfl, congrArg some (statusWord_resetState s o), rfl, congrArg some (cap0Word_eq_shift_or hl), rfl⟩

end Sys2Proof.Machine
end

