-- ==== Sys2Proof/Proofs/EngineInvariant.lean ====
section
/-! What each transition of the engine keeps of the invariant (41_formatter.md R142 to R145, 42_sequencer.md R163 to R169), with and
without an abort. -/

namespace Sys2Proof.Machine

/-! ### The flags outside ERROR, and states at rest -/

theorem State.Inv.errCode_none {s : State} (h : s.Inv) (hs : s.state ≠ .error) : s.errCode = .none :=
  Decidable.byContradiction fun hc => hs (h.error_code.mp hc)

theorem State.Inv.exitFlag_false {s : State} (h : s.Inv) (hs : s.state ≠ .error) : s.exitFlag = false :=
  Bool.eq_false_iff.mpr fun hx => hs (h.exit_flag.mp hx)

/-- No abort is pending where none waits for its column or its off buffer (R22, R219 to R223). -/
theorem State.Inv.abortPend_false {s : State} (h : s.Inv) (hcol : s.state ≠ .txCol) (hoff : s.state ≠ .txOff)
    (he : s.state ≠ .error) : s.abortPend = false := by
  rw [Bool.eq_false_iff]
  intro hp
  rcases (h.abort_pending hp).1 with hs | hs | hs
  · exact hcol hs
  · exact hoff hs
  · exact he hs

/-- Where no abort is pending and no run has failed, the three flags are clear (R45). -/
theorem State.Inv.flagsClear {s : State} (h : s.Inv) (hcol : s.state ≠ .txCol) (hoff : s.state ≠ .txOff)
    (he : s.state ≠ .error) : s.errCode = .none ∧ s.exitFlag = false ∧ s.abortPend = false :=
  ⟨h.errCode_none he, h.exitFlag_false he, h.abortPend_false hcol hoff he⟩

/-- The part of the invariant that speaks of the parameters and the memories alone. -/
structure State.MemoriesFit (s : State) : Prop where
  params_legal : s.params.legal = true
  pix_wf : Memory.wf s.pix
  cbm_wf : Memory.wf s.cbm
  pix_exists : ∀ c ∈ s.pix,
    0x1000000 ≤ c.1 ∧ c.1 < 0x1000000 + 4 * (s.params.pMaxWidth * s.params.pMaxLeds) ∧ c.1 % 4 < 3
  cbm_exists : ∀ c ∈ s.cbm,
    0x2000000 ≤ c.1 ∧ c.1 < 0x2000000 + 4 * (s.params.pMaxWidth * s.params.colStride) ∧ c.1 % 4 = 0

theorem State.Inv.memoriesFit {s : State} (h : s.Inv) : s.MemoriesFit :=
  ⟨h.params_legal, h.pix_wf, h.cbm_wf, h.pix_exists, h.cbm_exists⟩

/-- A state at rest, IDLE or DONE with its flags clear, has the invariant if its memories and its encoding do. -/
theorem inv_of_atRest {t : State} (hm : t.MemoriesFit) (hs : t.state = .idle ∨ t.state = .done)
    (hg : t.encoded = true →
      1 ≤ t.encW.toNat ∧ t.encW.toNat ≤ t.params.pMaxWidth ∧ 1 ≤ t.encH.toNat ∧ t.encH.toNat ≤ t.params.pMaxLeds)
    (hcode : t.errCode = .none) (hexit : t.exitFlag = false) (hpend : t.abortPend = false) : t.Inv := by
  have rest : ∀ q, q ≠ SeqState.idle → q ≠ .done → t.state ≠ q := by
    rintro q hidle hdone rfl
    exact hs.elim hidle hdone
  have herr : t.state ≠ .error := rest .error nofun nofun
  have henc : t.state ≠ .encoding := rest .encoding nofun nofun
  have hcol : t.state ≠ .txCol := rest .txCol nofun nofun
  have hwait : t.state ≠ .waitCol := rest .waitCol nofun nofun
  have hloop : t.state ≠ .waitLoop := rest .waitLoop nofun nofun
  exact
    { hm with
      geometry_fits := fun hh => hg (hh.resolve_right henc)
      cursor_inside := fun e => absurd e henc
      column_inside := by simp [hcol, hwait, hloop]
      column_byte := fun e => absurd e hcol
      off_byte := fun e => absurd e (rest .txOff nofun nofun)
      strip_fits := by simp [henc, hcol, hwait, hloop]
      delay_left := by simp [hwait, hloop]
      loop_column := fun e => absurd e hloop
      error_code := by simp [hcode, herr]
      exit_flag := by simp [hexit, herr]
      abort_pending := by simp [hpend]
      iterations_left := by rcases hs with hs | hs <;> simp [State.running, hs] }

/-! ### The formatter -/

/-- Output starts with its invariant: at column 0 of an encoding whose geometry fits the memories and the strip (R145, R160). -/
theorem startColumns_inv {t : State} (hm : t.MemoriesFit) (hs : t.state = .txCol) (hencoded : t.encoded = true)
    (hg : 1 ≤ t.encW.toNat ∧ t.encW.toNat ≤ t.params.pMaxWidth ∧ 1 ≤ t.encH.toNat ∧ t.encH.toNat ≤ t.params.pMaxLeds)
    (hstrip : t.encH.toNat ≤ t.maxLeds.toNat ∧ t.maxLeds.toNat ≤ t.params.pMaxLeds) (hcol : t.curCol = 0) (hidx : t.txIdx = 0)
    (hcode : t.errCode = .none) (hexit : t.exitFlag = false) (hpend : t.abortPend = false)
    (hiter : t.repeatCount.toNat ≠ 0 → t.iter.toNat < t.repeatCount.toNat) : t.Inv :=
  { hm with
    geometry_fits := fun _ => hg
    cursor_inside := by simp [hs]
    column_inside := fun _ => ⟨hencoded, by rw [hcol]; exact hg.1⟩
    column_byte := fun _ => by rw [hidx]; exact Nat.zero_le _
    off_byte := by simp [hs]
    strip_fits := fun _ => hstrip
    delay_left := by simp [hs]
    loop_column := by simp [hs]
    error_code := by simp [hcode, hs]
    exit_flag := by simp [hexit, hs]
    abort_pending := by simp [hpend]
    iterations_left := fun _ => hiter }

/-- Completing the encoding keeps the invariant (R145). -/
theorem completeEncoding_inv {s : State} (h : s.Inv) (he : s.state = .encoding) : (completeEncoding s).Inv := by
  have hg := h.geometry_fits (.inr he)
  obtain ⟨hcode, hexit, hpend⟩ := h.flagsClear (by simp [he]) (by simp [he]) (by simp [he])
  unfold completeEncoding
  split
  · next hrun =>
    exact startColumns_inv { h.memoriesFit with } rfl rfl hg (h.strip_fits (.inl he)) rfl rfl hcode hexit hpend
      (h.iterations_left (by simp [State.running, he, hrun]))
  · exact inv_of_atRest { h.memoriesFit with } (.inl rfl) (fun _ => hg) hcode hexit hpend

/-- The formatter's step keeps the invariant (R142, R144). -/
theorem encodingStep_inv {s : State} (h : s.Inv) (he : s.state = .encoding) : (encodingStep s).Inv := by
  by_cases hlast : s.atLastStep
  · obtain ⟨hrow, hcol⟩ := hlast
    obtain ⟨-, hW, -, hH⟩ := h.geometry_fits (.inr he)
    rw [encodingStep_trailing hrow, trailingStep_last (by omega)]
    exact completeEncoding_inv (writeColumn_inv (by omega) (lt_colStride hH le_rfl) 0 h) he
  · exact (encodingStep_continues h he hlast).1

/-! ### The sequencer -/

/-- The states between a column and the next, or the next iteration (R163, R165, R168). -/
def SeqState.output (q : SeqState) : Prop := q = .txCol ∨ q = .waitCol ∨ q = .waitLoop

/-- Going to the off buffer keeps the invariant whatever becomes of ITER and WAIT_LEFT (R164, R167). -/
theorem toOffBuffer_move_inv {s : State} (h : s.Inv) (hs : s.state.output) (it : BitVec 32) (left : BitVec 64) :
    State.Inv { s with state := .txOff, txIdx := 0, iter := it, waitLeft := left } :=
  { toOffBuffer_inv h (by rcases hs with hs | hs | hs <;> simp [hs]) with
    delay_left := by simp
    iterations_left := nofun }

/-- The end of an iteration keeps the invariant: REPEAT is reached, or ITER stays below it (R167). -/
theorem endOfIteration_inv {s : State} (h : s.Inv) (hs : s.state.output) (hp : s.abortPend = false)
    (hlast : s.curCol.toNat + 1 = s.encW.toNat) (idx : BitVec 32) (left : BitVec 64) :
    (endOfIteration { s with txIdx := idx, waitLeft := left }).Inv := by
  obtain ⟨hencoded, hcol⟩ := h.column_inside hs
  have hrunning : s.running = true := by rcases hs with hs | hs | hs <;> simp [State.running, hs]
  have hpend : s.abortPend = true → ∀ q, q = SeqState.txCol := by simp [hp]
  simp only [endOfIteration]
  split
  · exact toOffBuffer_move_inv h hs _ _
  next hmore =>
  have hiter : s.repeatCount.toNat ≠ 0 → (s.iter + 1).toNat < s.repeatCount.toNat := fun hn => by
    have hlt := h.iterations_left hrunning hn
    rw [toNat_succ_of_lt hlt]
    exact Nat.lt_of_le_of_ne hlt fun e => hmore ⟨hn, e⟩
  split
  · next hdelay =>
    obtain ⟨hcycles, hone⟩ := delayCycles_toNat h.params_legal hdelay.2
    exact outputMove_inv h hs (.inr (.inr rfl)) hcol nofun (fun _ => hcycles.symm ▸ hone) (fun _ => hlast)
      (fun e => hpend e _) hiter
  · exact outputMove_inv h hs (.inl rfl) (Nat.lt_of_le_of_lt (Nat.zero_le _) hcol) (fun _ => Nat.zero_le _) (by simp)
      nofun (fun _ => rfl) hiter

/-- The move to the next column keeps the invariant (R166). -/
theorem advanceColumn_inv {s : State} (h : s.Inv) (hs : s.state.output) (hp : s.abortPend = false) (idx : BitVec 32)
    (left : BitVec 64) : (advanceColumn { s with txIdx := idx, waitLeft := left }).Inv := by
  obtain ⟨hencoded, hcol⟩ := h.column_inside hs
  have hiter : s.repeatCount.toNat ≠ 0 → s.iter.toNat < s.repeatCount.toNat :=
    h.iterations_left (by rcases hs with hs | hs | hs <;> simp [State.running, hs])
  unfold advanceColumn
  split
  · next hnext =>
    exact outputMove_inv h hs (.inl rfl) (by rw [toNat_succ_of_lt hcol]; exact hnext) (fun _ => Nat.zero_le _) (by simp)
      nofun (fun _ => rfl) hiter
  · next hend =>
    have hlast : s.curCol.toNat + 1 = s.encW.toNat := Nat.le_antisymm hcol (Nat.not_lt.mp hend)
    exact endOfIteration_inv h hs hp hlast idx left

/-- The last handshake of a column keeps the invariant: the off buffer after an abort, else the delay or the next column (R164). -/
theorem columnDone_inv {s : State} (h : s.Inv) (hs : s.state = .txCol) (a : Bool) : (columnDone s a).Inv := by
  have hout : s.state.output := .inl hs
  obtain ⟨hencoded, hcol⟩ := h.column_inside hout
  simp only [columnDone]
  split
  · exact toOffBuffer_move_inv h hout _ _
  next hno =>
  obtain ⟨hp, -⟩ : s.abortPend = false ∧ a = false := by simpa using hno
  split
  · next hdelay =>
    obtain ⟨hcycles, hone⟩ := delayCycles_toNat h.params_legal hdelay
    exact outputMove_inv h hout (.inr (.inl rfl)) hcol nofun (fun _ => hcycles.symm ▸ hone) nofun (by simp [hp])
      (h.iterations_left (by simp [State.running, hs]))
  · exact advanceColumn_inv h hout hp _ _

/-- Moving inside the column keeps the invariant (R163). -/
theorem nextByte_inv {s : State} (h : s.Inv) (hs : s.state = .txCol) (hidx : s.txIdx.toNat < 3 * s.encH.toNat) :
    State.Inv { s with txIdx := s.txIdx + 1 } := by
  have hsucc : (s.txIdx + 1).toNat = s.txIdx.toNat + 1 := by
    have := s.encH.isLt
    bv_omega
  exact { h with
    column_byte := fun _ => hsucc.trans_le hidx
    off_byte := fun e => absurd (hs.symm.trans e) nofun }

theorem txColStep_inv {s : State} (h : s.Inv) (hs : s.state = .txCol) (a : Bool) : (txColStep s a).Inv := by
  unfold txColStep
  split
  · exact enterError_inv nofun h
  split
  · split
    · next hidx => exact nextByte_inv h hs hidx
    · exact columnDone_inv h hs a
  · exact h

/-- A delay with more than one cycle left is not spent by counting down (R165). -/
theorem countDown_inv {s : State} (h : s.Inv) (hs : s.state = .waitCol ∨ s.state = .waitLoop) (hne : s.waitLeft ≠ 1) :
    State.Inv { s with waitLeft := s.waitLeft - 1 } :=
  { h with
    delay_left := fun hw => by
      have := h.delay_left hs
      bv_omega }

theorem waitColStep_inv {s : State} (h : s.Inv) (hs : s.state = .waitCol) : (waitColStep s).Inv := by
  unfold waitColStep
  split
  · exact advanceColumn_inv h (.inr (.inl hs)) (h.abortPend_false (by simp [hs]) (by simp [hs]) (by simp [hs])) _ _
  · next hne => exact countDown_inv h (.inl hs) hne

theorem waitLoopStep_inv {s : State} (h : s.Inv) (hs : s.state = .waitLoop) : (waitLoopStep s).Inv := by
  have hout : s.state.output := .inr (.inr hs)
  unfold waitLoopStep
  split
  · exact outputMove_inv h hout (.inl rfl) (Nat.lt_of_le_of_lt (Nat.zero_le _) (h.column_inside hout).2)
      (fun _ => Nat.zero_le _) (by simp) nofun (fun _ => rfl) (h.iterations_left (by simp [State.running, hs]))
  · next hne => exact countDown_inv h (.inr hs) hne

theorem txOffStep_inv {s : State} (h : s.Inv) (hs : s.state = .txOff) : (txOffStep s).Inv := by
  unfold txOffStep
  split
  · exact enterError_inv nofun h
  split
  · split
    · next hidx =>
      refine offMove_inv h hs ?_
      have := s.maxLeds.isLt
      bv_omega
    · exact inv_of_atRest { h.memoriesFit with } (.inr rfl) (fun e => h.geometry_fits (.inl e))
        (h.errCode_none (by simp [hs])) rfl rfl
  · exact h

/-! ### The engine -/

/-- The transition of a STATE keeps the invariant, with an abort only where one can be taken (R218). -/
theorem stateStep_inv {s : State} (h : s.Inv) (a : Bool) : (stateStep s a).Inv := by
  unfold stateStep
  split
  · next hs =>
    split
    · exact toOffBuffer_inv h (by simp [hs])
    · exact h
  · next hs =>
    split
    · exact toOffBuffer_inv h (by simp [hs])
    · exact encodingStep_inv h hs
  · next hs => exact txColStep_inv h hs a
  · next hs =>
    split
    · exact toOffBuffer_inv h (by simp [hs])
    · exact waitColStep_inv h hs
  · next hs =>
    split
    · exact toOffBuffer_inv h (by simp [hs])
    · exact waitLoopStep_inv h hs
  · next hs => exact txOffStep_inv h hs
  · exact h
  · exact h

/-- An abort that is taken leaves its column to be finished, or goes to the off buffer (R220 to R223). -/
theorem stateStep_abort_state {s : State} (hs : s.state.abortable = true) (he : ¬(s.state = .txCol ∧ s.now.sinkErr = true)) :
    (stateStep s true).state = .txCol ∨ (stateStep s true).state = .txOff := by
  cases hst : s.state with
  | idle => exact .inr (by simp [stateStep, hst])
  | encoding => exact .inr (by simp [stateStep, hst])
  | waitCol => exact .inr (by simp [stateStep, hst])
  | waitLoop => exact .inr (by simp [stateStep, hst])
  | txCol =>
    have hok : s.now.sinkErr = false := by simpa [hst] using he
    simp only [stateStep, hst, txColStep, hok, Bool.false_eq_true, if_false]
    split_ifs
    · exact .inl rfl
    · exact .inr (by simp [columnDone])
    · exact .inl hst
  | txOff => simp [hst, SeqState.abortable] at hs
  | done => simp [hst, SeqState.abortable] at hs
  | error => simp [hst, SeqState.abortable] at hs

/-- The engine's transition keeps the invariant (R47, R219). -/
theorem engine_inv {s : State} (h : s.Inv) (sh : Bool) : (engine s sh).Inv := by
  cases hab : abortTaken s sh with
  | false =>
    rw [engine_of_no_abort hab]
    exact stateStep_inv h false
  | true =>
    obtain ⟨hreq, habortable, -, hsink⟩ := (abortTaken_iff s sh).mp hab
    rw [engine_of_abort hab]
    exact latchAbort_inv (stateStep_inv h true) (abortCause_ne_none hreq) (stateStep_abort_state habortable hsink)

end Sys2Proof.Machine
end

