-- ==== Sys2Proof/Proofs/Invariant.lean ====
section
/-! The statements about the invariant of the block: it holds at reset, every step keeps it, and it excludes every fault. -/

namespace Sys2Proof.Machine

/-! ### The bus effect -/

/-- In a quiescent state the engine does nothing, or goes to the first byte of the off buffer (R220, R226). -/
theorem engine_of_quiescent {s : State} (hq : s.state.quiescent = true) (sh : Bool) :
    engine s sh = s ∨ (engine s sh).state = .txOff ∧ (engine s sh).txIdx = 0 := by
  cases hab : abortTaken s sh with
  | false => exact .inl (engine_quiescent hq hab)
  | true =>
    right
    rw [engine_of_abort hab]
    rcases (quiescent_iff s.state).mp hq with hs | hs | hs
    · simp [stateStep, hs]
    · simp [abortTaken, hs, SeqState.abortable] at hab
    · simp [abortTaken, hs, SeqState.abortable] at hab

/-- A configuration write keeps the invariant where no output depends on the configuration yet (R78). -/
theorem configWrite_inv {s : State} (h : s.Inv) (hs : s.state.quiescent = true ∨ s.state = .txOff ∧ s.txIdx = 0)
    (c : ConfigReg) (v : Word) : (applyBusWrite s (.config c v)).Inv := by
  have hoff : s.state = .txOff → s.txIdx = 0 := fun e => hs.elim (by simp [e, SeqState.quiescent]) And.right
  have hbusy : ∀ q, q.quiescent = false → q ≠ .txOff → s.state ≠ q := by
    rintro q hq hne rfl
    exact hs.elim (by simp [hq]) fun h => hne h.1
  have hrunning : s.running = false := by
    rcases hs with hs | ⟨hs, -⟩
    · rcases (quiescent_iff s.state).mp hs with hs | hs | hs <;> simp [State.running, hs]
    · simp [State.running, hs]
  cases c with
  | maxLeds =>
    exact { h with
      off_byte := fun e => by
        have hidx := hoff e
        simp [applyBusWrite, hidx]
      strip_fits := by
        rintro (e | e | e | e) <;> exact absurd e (hbusy _ rfl nofun) }
  | repeatCount => exact { h with iterations_left := fun e => by cases hrunning.symm.trans e }
  | _ => exact { h with }

/-- The engine's transition beside an allowed bus effect keeps the invariant (R47, R48). -/
theorem engine_applyBusWrite_inv {s : State} {w : BusWrite} (h : s.Inv) (hw : BusWriteAllowed s w) (sh : Bool) :
    (applyBusWrite (engine s sh) w).Inv := by
  have hengine := engine_inv h sh
  cases w with
  | none => exact hengine
  | busErr => exact busErr_inv hengine true
  | config c v =>
    refine configWrite_inv hengine ?_ c v
    rcases engine_of_quiescent hw sh with he | he
    · rw [he]
      exact .inl hw
    · exact .inr he
  | pixel x y v => exact writePixel_inv (by rw [(engine_frame s sh).params]; exact hw.2) _ hengine

/-! ### The commands -/

/-- The geometry check passes exactly for a geometry that the memories and the strip hold (R141). -/
theorem checkGeometry_none_iff (s : State) :
    checkGeometry s = .none ↔
      (1 ≤ s.width.toNat ∧ s.width.toNat ≤ s.params.pMaxWidth ∧ 1 ≤ s.height.toNat ∧ 1 ≤ s.maxLeds.toNat ∧
          s.maxLeds.toNat ≤ s.params.pMaxLeds) ∧ s.height.toNat ≤ s.maxLeds.toNat := by
  unfold checkGeometry
  split_ifs <;> simp only [false_iff, true_iff] <;> omega

/-- An encoding begins with its invariant: the cursor at (0, 0) of a geometry that fits (R140, R161). -/
theorem startEncoding_inv {t : State} (hm : t.MemoriesFit) (hs : t.state = .encoding) (hencoded : t.encoded = false)
    (hg : 1 ≤ t.encW.toNat ∧ t.encW.toNat ≤ t.params.pMaxWidth ∧ 1 ≤ t.encH.toNat ∧ t.encH.toNat ≤ t.params.pMaxLeds)
    (hstrip : t.encH.toNat ≤ t.maxLeds.toNat ∧ t.maxLeds.toNat ≤ t.params.pMaxLeds) (hx : t.encX = 0) (hy : t.encY = 0)
    (hcode : t.errCode = .none) (hexit : t.exitFlag = false) (hpend : t.abortPend = false)
    (hiter : t.runAfterEnc = true → t.iter = 0) : t.Inv :=
  { hm with
    geometry_fits := fun _ => hg
    cursor_inside := fun _ => ⟨hencoded, by rw [hx]; exact hg.1, by rw [hy]; exact Nat.zero_le _⟩
    column_inside := by simp [hs]
    column_byte := by simp [hs]
    off_byte := by simp [hs]
    strip_fits := fun _ => hstrip
    delay_left := by simp [hs]
    loop_column := by simp [hs]
    error_code := by simp [hcode, hs]
    exit_flag := by simp [hexit, hs]
    abort_pending := by simp [hpend]
    iterations_left := fun hrun hn => by
      rw [hiter (by simpa [State.running, hs] using hrun)]
      exact Nat.pos_of_ne_zero hn }

theorem encodeEffect_inv {s : State} (h : s.Inv) (hs : s.state = .idle) : (encodeEffect s).Inv := by
  unfold encodeEffect
  split
  · next hc =>
    obtain ⟨⟨hw, hw', hh, -, hm⟩, htall⟩ := (checkGeometry_none_iff s).mp hc
    obtain ⟨hcode, hexit, hpend⟩ := h.flagsClear (by simp [hs]) (by simp [hs]) (by simp [hs])
    exact startEncoding_inv { h.memoriesFit with } rfl rfl ⟨hw, hw', hh, htall.trans hm⟩ ⟨htall, hm⟩ rfl rfl hcode hexit
      hpend nofun
  · next hc => exact enterError_inv hc h

theorem startEffect_inv {s : State} (h : s.Inv) (hs : s.state = .idle) : (startEffect s).Inv := by
  unfold startEffect
  split
  · exact enterError_inv nofun h
  split
  · next hc =>
    obtain ⟨⟨hw, hw', hh, -, hm⟩, htall⟩ := (checkGeometry_none_iff s).mp hc
    obtain ⟨hcode, hexit, hpend⟩ := h.flagsClear (by simp [hs]) (by simp [hs]) (by simp [hs])
    exact startEncoding_inv { h.memoriesFit with } rfl rfl ⟨hw, hw', hh, htall.trans hm⟩ ⟨htall, hm⟩ rfl rfl hcode hexit
      hpend (fun _ => rfl)
  · next hc => exact enterError_inv hc h

theorem runEffect_inv {s : State} (h : s.Inv) (hs : s.state = .idle) (hencoded : s.encoded = true) : (runEffect s).Inv := by
  unfold runEffect
  split
  · exact enterError_inv nofun h
  split
  · exact enterError_inv nofun h
  next hleds =>
  split
  · exact enterError_inv nofun h
  next htall =>
  obtain ⟨hcode, hexit, hpend⟩ := h.flagsClear (by simp [hs]) (by simp [hs]) (by simp [hs])
  exact startColumns_inv { h.memoriesFit with } rfl hencoded (h.geometry_fits (.inl hencoded))
    ⟨Nat.not_lt.mp htall, Nat.not_lt.mp fun hm => hleds (.inr hm)⟩ rfl rfl hcode hexit hpend Nat.pos_of_ne_zero

/-- What an accepted command leaves has the invariant (R140, R160, R161, R202). -/
theorem CommandEffect.inv {s u : State} (h : s.Inv) (hu : CommandEffect s u) : u.Inv := by
  cases hu with
  | encode ha =>
    simp only [acceptsEncode, Bool.and_eq_true, decide_eq_true_eq] at ha
    exact encodeEffect_inv h ha.1
  | run ha =>
    simp only [acceptsRun, Bool.and_eq_true, decide_eq_true_eq] at ha
    obtain ⟨⟨hs, hencoded⟩, -⟩ := ha
    exact runEffect_inv h hs hencoded
  | start ha =>
    simp only [acceptsStart, Bool.and_eq_true, decide_eq_true_eq] at ha
    exact startEffect_inv h ha.1
  | clear _ => exact inv_of_atRest { h.memoriesFit with } (.inl rfl) (fun e => h.geometry_fits (.inl e)) rfl rfl rfl

/-! ### Reset -/

theorem resetOf_inv {p : Params} (hp : p.legal = true) : (State.resetOf p).Inv :=
  inv_of_atRest ⟨hp, .nil, .nil, nofun, nofun⟩ (.inl rfl) nofun rfl rfl rfl

theorem resetState_inv {s : State} (h : s.Inv) : (resetState s).Inv :=
  inv_of_atRest { h.memoriesFit with } (.inl rfl) nofun rfl rfl rfl

/-- Settles O10: the reset state is at rest, with nothing listed in its memories. -/
theorem invariantHoldsAtReset : Obligations.InvariantHoldsAtReset :=
  ⟨fun _ hp => resetOf_inv hp, resetOf_inv (by decide)⟩

/-! ### The step -/

/-- Settles O11: reset, the engine beside a bus effect, and an accepted command each keep the invariant. -/
theorem stepKeepsTheInvariant : Obligations.StepKeepsTheInvariant := by
  intro s t h hstep
  obtain ⟨-, ⟨-, rfl⟩ | ⟨-, heffect⟩⟩ := step_cases hstep
  · exact tick_inv (resetState_inv h) _
  · cases heffect with
    | engine sh w r hw _ ht =>
      subst ht
      exact tick_inv (engine_applyBusWrite_inv h hw sh) _
    | command u hu ht =>
      subst ht
      exact tick_inv (hu.inv h) _

/-! ### Stops -/

/-- A command's cycle is an engine cycle whose bus effect is at most BUS_ERR or, where the command is accepted with an effect of its
own, a command cycle (R204). -/
theorem exec_shape {P : Host.Outcome State Fault Refusal → Prop} {s : State}
    (hengine : ∀ sh w r, w = .none ∨ w = .busErr → P (engineCycle s sh w r))
    (hcommand : ∀ u, CommandEffect s u → P (commandCycle s u)) (i : Instr) : P (exec i s) := by
  have haccept : ∀ (accept : Bool) u, (accept = true → CommandEffect s u) →
      P (if accept then commandCycle s u else rejectCommand s)
    | true, u, hu => hcommand u (hu rfl)
    | false, _, _ => hengine false .busErr errResp (.inr rfl)
  cases i with
  | nop => exact hengine false .none (okay 0) (.inl rfl)
  | shutdown => exact hengine true .none (okay 0) (.inl rfl)
  | encode => exact haccept _ _ .encode
  | run => exact haccept _ _ .run
  | start => exact haccept _ _ .start
  | clear => exact haccept _ _ .clear

/-- A step is a reset cycle, an access beside the engine, or a command's cycle (R47). -/
theorem step_shape {P : Host.Outcome State Fault Refusal → Prop} {s : State} (hreset : s.now.rst = true → P (resetCycle s))
    (haccess : ∀ a, s.now.rst = false → presented s.params s.now = .access a → P (accessCycle s a))
    (hengine : ∀ sh w r, w = .none ∨ w = .busErr → P (engineCycle s sh w r))
    (hcommand : ∀ u, CommandEffect s u → P (commandCycle s u)) : P (step s) := by
  unfold step
  split
  · next hr => exact hreset hr
  next hr =>
  split
  · split
    · exact exec_shape hengine hcommand _
    · exact hengine false .busErr errResp (.inr rfl)
  · next a hp => exact haccess a (by simpa using hr) hp

/-- Settles O12: every shape of a cycle completes where the instantiation is admitted and the engine's access exists (log entry 5). -/
theorem stepNeverStopsUnderTheInvariant : Obligations.StepNeverStopsUnderTheInvariant := by
  intro s h
  refine step_shape (P := fun o => ∃ t, o = .next t) (fun _ => ?_) (fun a _ _ => ?_) (fun sh w r _ => ?_) (fun u _ => ?_)
  · exact ⟨_, resetCycle_next_iff.mpr ⟨h.params_legal, rfl⟩⟩
  · exact ⟨_, engineCycle_inv h _ _ _⟩
  · exact ⟨_, engineCycle_inv h sh w r⟩
  · exact ⟨_, commandCycle_next_iff.mpr ⟨h.params_legal, rfl⟩⟩

/-- Settles O13: every shape of a cycle looks at the parameters first (log entry 4). -/
theorem illegalParametersFault : Obligations.IllegalParametersFault := by
  intro s hl
  have hreset : resetCycle s = .fault .illegalParameters := by simp [resetCycle, hl]
  have hengine : ∀ sh w r, engineCycle s sh w r = .fault .illegalParameters := fun _ _ _ => by simp [engineCycle, hl]
  have hcommand : ∀ u, commandCycle s u = .fault .illegalParameters := fun _ => by simp [commandCycle, hl]
  exact ⟨step_shape (P := (· = .fault .illegalParameters)) (fun _ => hreset) (fun _ _ _ => hengine _ _ _)
      (fun sh w r _ => hengine sh w r) (fun u _ => hcommand u),
    exec_shape (P := (· = .fault .illegalParameters)) (fun sh w r _ => hengine sh w r) (fun u _ => hcommand u)⟩

end Sys2Proof.Machine
end

