-- ==== Sys2Proof/Proofs/Decoding.lean ====
section
/-! The statements about CMD32 words (30_encoding.md R100 to R107) and the table in its exact integer form (40_gamma_lut.md R121). -/

namespace Sys2Proof.Machine

/-! ### Words and commands -/

/-- The opcode map, both ways: an opcode decodes to the one command that has it (R102). -/
theorem decodeOp_ok_iff (op : BitVec 4) (i : Instr) : decodeOp op = .ok i ↔ op = opcode i := by
  cases i <;> revert op <;> decide

/-- A word decodes to the command whose opcode stands in its low four bits (R101, R107). -/
theorem decode_ok_iff (w : Word) (i : Instr) : decode w = .ok i ↔ opField w = opcode i := decodeOp_ok_iff _ i

/-- A word is its ignored bits followed by its opcode (R101). -/
theorem append_opField (w : Word) : w.extractLsb' 4 28 ++ opField w = w := by
  apply BitVec.eq_of_getLsbD_eq
  intro j hj
  rw [opField, BitVec.getLsbD_append, BitVec.getLsbD_extractLsb', BitVec.getLsbD_extractLsb']
  by_cases hlow : j < 4
  · simp [hlow]
  · simp [hlow, show j - 4 < 28 by omega, show 4 + (j - 4) = j by omega]

/-- Settles O1: the opcode survives encoding, and a word is rebuilt from its opcode and its own ignored bits. -/
theorem decodeAndEncodeAgree : Obligations.DecodeAndEncodeAgree := by
  intro i _
  refine ⟨fun ignored => ?_, fun w hw => ⟨w.extractLsb' 4 28, ?_⟩⟩
  · exact (decode_ok_iff _ i).mpr (Laws.OpcodeField.opField_append ignored (opcode i))
  · rw [encodeWith, ← (decode_ok_iff w i).mp hw, append_opField]

/-- Every opcode below 6 is a command's (R102). -/
theorem decodeOp_of_lt {op : BitVec 4} (h : op.toNat < 6) : ∃ i, decodeOp op = .ok i := by
  have hop : op.toNat = 0 ∨ op.toNat = 1 ∨ op.toNat = 2 ∨ op.toNat = 3 ∨ op.toNat = 4 ∨ op.toNat = 5 := by omega
  rcases hop with h | h | h | h | h | h <;> simp [decodeOp, h]

/-- Settles O2: the opcode is below 6 and a command's, or it is illegal. -/
theorem decodeIsTotalByOpcode : Obligations.DecodeIsTotalByOpcode := by
  intro w
  rcases Nat.lt_or_ge (w.toNat % 16) 6 with hlt | hge
  · obtain ⟨i, hi⟩ := decodeOp_of_lt ((opField_toNat w).trans_lt hlt)
    refine .inl ⟨⟨i, hi, ?_⟩, hlt⟩
    rw [← opField_toNat, (decodeOp_ok_iff _ i).mp hi]
  · exact .inr ⟨decode_illegal hge, hge⟩

/-- Settles O3: each word's low four bits are looked up in the map. -/
theorem writtenWordsDecode : Obligations.WrittenWordsDecode := ⟨rfl, rfl, rfl, rfl, rfl, rfl, rfl, rfl⟩

/-! ### Commands on the bus -/

/-- A cycle without reset that presents a command runs it (R204). -/
theorem step_command {s : State} {w : Word} {i : Instr} (hr : s.now.rst = false)
    (hp : presented s.params s.now = .command w) (hd : decode w = .ok i) : step s = exec i s := by
  unfold step
  rw [hp]
  simp only [hr, hd]
  rfl

/-- A bus write to CMD presents a command in every instantiation (R30, R74). -/
theorem presented_withCommand (p : Params) (i : PortIn) (w : Word) : presented p (i.withCommand w) = .command w :=
  if_pos (decodeAddress_cmd p)

/-- Settles O4: the step decodes the word presented and adds nothing around the command. -/
theorem stepRunsTheDecodedCommand : Obligations.StepRunsTheDecodedCommand :=
  ⟨fun _ _ _ hr hp hd => step_command hr hp hd,
    fun s p w _ hd => step_command (s := s.withInput (p.withCommand w)) rfl (presented_withCommand s.params p w) hd⟩

/-! ### The gamma table -/

/-- The integer test of R121 passes exactly up to the level, and never with equality. -/
theorem gammaTest_iff (i : Byte) {m : Nat} (hm : 1 ≤ m) :
    ((2 * m - 1) ^ 2 * 255 ^ 5 < 254 ^ 2 * i.toNat ^ 5 ↔ m ≤ gammaLevel i) ∧
      (2 * m - 1) ^ 2 * 255 ^ 5 ≠ 254 ^ 2 * i.toNat ^ 5 := by
  rcases Nat.lt_or_ge (gammaLevel i) m with hgt | hle
  · have habove : 254 ^ 2 * i.toNat ^ 5 < (2 * m - 1) ^ 2 * 255 ^ 5 := calc
      254 ^ 2 * i.toNat ^ 5 < (2 * gammaLevel i + 1) ^ 2 * 255 ^ 5 := gammaLevel_upper i
      _ ≤ (2 * m - 1) ^ 2 * 255 ^ 5 := by
        gcongr
        omega
    exact ⟨iff_of_false habove.not_gt (Nat.not_le.mpr hgt), habove.ne'⟩
  · have hbelow : (2 * m - 1) ^ 2 * 255 ^ 5 < 254 ^ 2 * i.toNat ^ 5 := calc
      (2 * m - 1) ^ 2 * 255 ^ 5 ≤ (2 * gammaLevel i - 1) ^ 2 * 255 ^ 5 := by gcongr
      _ < 254 ^ 2 * i.toNat ^ 5 := gammaLevel_lower (by omega)
    exact ⟨iff_of_true hbelow hle, hbelow.ne⟩

/-- The number of m that pass the test is the level (R121, R123). -/
theorem gammaCount_eq (i : Byte) : gammaCount i.toNat = gammaLevel i := by
  have htest : ∀ m, decide ((2 * (m + 1) - 1) ^ 2 * 255 ^ 5 ≤ 254 ^ 2 * i.toNat ^ 5) = decide (m < gammaLevel i) := by
    intro m
    obtain ⟨hiff, hne⟩ := gammaTest_iff i (Nat.succ_pos m)
    rw [decide_eq_decide, ← Nat.succ_le_iff, ← hiff]
    exact ⟨fun h => Nat.lt_of_le_of_ne h hne, Nat.le_of_lt⟩
  rw [gammaCount, List.filter_congr fun m _ => htest m, ← List.Ico.zero_bot, List.Ico.filter_lt, List.Ico.length]
  exact Nat.min_eq_right (gammaLevel_le i)

/-- Settles O6: the count is the level, which the table carries in its low seven bits. -/
theorem gammaMatchesTheExactIntegerForm : Obligations.GammaMatchesTheExactIntegerForm := by
  intro i
  rw [gammaCount_eq]
  have hbit : ∀ i : Byte, gamma i &&& 0x80 = 0x80 := by decide
  exact ⟨gamma_eq_or i, hbit i, rfl, fun m hm _ => (gammaTest_iff i hm).2⟩

end Sys2Proof.Machine
end

