-- ==== Sys2Proof/Proofs/Registers.lean ====
section
/-! The statements about the registers and about the bus accesses that select them (10_state.md R26 to R43, 20_memory.md R78, R84). -/

namespace Sys2Proof.Machine

/-! ### Addresses -/

/-- Settles O16: each element's address is decoded back to it. -/
theorem windowAddressesDecodeToElements : Obligations.WindowAddressesDecodeToElements :=
  fun p hp => ⟨fun _ _ => decodeAddress_pixelAddr hp, fun _ _ => decodeAddress_columnAddr hp, fun _ => decodeAddress_lut p,
    decodeAddress_csrOffset p⟩

/-! ### The words of the registers -/

/-- A word of two halves (R28, R35, R36). -/
theorem halves_eq (hi lo : Half) : hi ++ lo = BitVec.ofNat 32 (hi.toNat * 65536 + lo.toNat) := by
  apply BitVec.eq_of_toNat_eq
  have hhi := hi.isLt
  have hlo := lo.isLt
  rw [BitVec.toNat_append, BitVec.toNat_ofNat, ← Nat.shiftLeft_add_eq_or_of_lt hlo, Nat.shiftLeft_eq]
  omega

theorem halfWord_eq (h : Half) : halfWord h = BitVec.ofNat 32 h.toNat := by
  rw [halfWord, halves_eq]
  simp

theorem cap0Word_eq {p : Params} (hp : p.legal = true) : cap0Word p = BitVec.ofNat 32 (p.pMaxWidth * 65536 + p.pMaxLeds) := by
  obtain ⟨-, hleds, -, hwidth, -⟩ := legal_bounds hp
  rw [cap0Word, halves_eq, BitVec.toNat_ofNat, BitVec.toNat_ofNat, Nat.mod_eq_of_lt (by omega), Nat.mod_eq_of_lt (by omega)]

/-- The layout of STATUS, bit by bit (R31). -/
theorem statusWord_bit (s : State) (j : Nat) :
    (statusWord s).getLsbD j =
      if j < 3 then s.state.code.getLsbD j
      else if j = 3 then s.encoded else if j = 4 then s.abortPend else if j = 5 then s.busErr else if j = 6 then s.exitFlag
      else if j < 8 then false else if j < 11 then s.errCode.code.getLsbD (j - 8)
      else if j = 11 then false else if j < 15 then s.signal.code.getLsbD (j - 12)
      else if j = 15 then s.runAfterEnc else false := by
  rcases Nat.lt_or_ge j 16 with hlt | hge
  · simp only [statusWord, BitVec.getLsbD_append, flagBit]
    interval_cases j <;> simp
  · simp only [statusWord, BitVec.getLsbD_append]
    repeat rw [if_neg (by omega)]
    simp

/-- A field of a word, from its bits. -/
theorem extractLsb'_eq_of_bits {w : Word} {start len : Nat} {x : BitVec len}
    (h : ∀ j < len, w.getLsbD (start + j) = x.getLsbD j) : w.extractLsb' start len = x := by
  apply BitVec.eq_of_getLsbD_eq
  intro j hj
  simp [hj, h j hj]

/-- Settles O19: every field is read off the layout. -/
theorem statusFieldsAreInPlace : Obligations.StatusFieldsAreInPlace := by
  intro s
  have hbit := statusWord_bit s
  have hstate : (statusWord s).extractLsb' 0 3 = s.state.code := extractLsb'_eq_of_bits fun j hj => by
    rw [hbit, Nat.zero_add, if_pos hj]
  have herr : (statusWord s).extractLsb' 8 3 = s.errCode.code := extractLsb'_eq_of_bits fun j hj => by
    rw [hbit]
    interval_cases j <;> rfl
  have hsignal : (statusWord s).extractLsb' 12 3 = s.signal.code := extractLsb'_eq_of_bits fun j hj => by
    rw [hbit]
    interval_cases j <;> rfl
  have hreserved : (statusWord s).extractLsb' 16 16 = 0 := extractLsb'_eq_of_bits fun j hj => by
    rw [hbit]
    repeat rw [if_neg (by omega)]
    simp
  exact ⟨hstate, hbit 3, hbit 4, hbit 5, hbit 6, hbit 7, herr, hbit 11, hsignal, hbit 15, hreserved⟩

/-! ### Reads -/

/-- A read is the engine's own cycle, but for the response, and for BUS_ERR where it finds no word (R77, R84). -/
theorem accessCycle_read {s t : State} {g : BusTarget} (hr : s.now.rst = false) (h : accessCycle s (.read g) = .next t) :
    ∃ u, step s.withoutBus = .next u ∧
      t = { u with busErr := u.busErr || t.out.bus.err, out := { u.out with bus := t.out.bus } } := by
  obtain ⟨hl, hf, rfl⟩ := engineCycle_next_iff.mp h
  refine ⟨_, (step_withoutBus s hr).trans (engineCycle_next_iff.mpr ⟨hl, hf, rfl⟩), ?_⟩
  cases hv : busRead s g with
  | none => simp [accessWrite, accessResp, hv, applyBusWrite, State.tick, errResp]
  | some v => simp [accessWrite, accessResp, hv, applyBusWrite, State.tick, okay]

/-- Settles O17: the cycle presents a read, which is the engine's own cycle but for the response. -/
theorem readsHaveNoSideEffect : Obligations.ReadsHaveNoSideEffect := by
  intro s t hr hq hwe h
  have hp : presented s.params s.now = .access (.read (decodeAddress s.params s.now.busAddr)) := by
    simp [presented, hq, hwe]
  exact accessCycle_read hr ((step_access hr hp).symm.trans h)

/-- A read that finds a word leaves BUS_ERR as it was (R77). -/
theorem step_withRead_busErr {s : State} {a : Nat} {v : Word} (hi : s.Inv) (hr : s.now.rst = false)
    (hv : busRead s (decodeAddress s.params (BitVec.ofNat 26 a)) = some v) :
    ∃ t, step (s.withRead a) = .next t ∧ t.out.bus = okay v ∧ t.busErr = s.busErr := by
  obtain ⟨t, ht, hb⟩ := step_withRead hi hr hv
  obtain ⟨u, hu, htu⟩ := readsHaveNoSideEffect (s.withRead a) t hr rfl rfl ht
  obtain ⟨-, -, rfl⟩ := engineCycle_next_iff.mp ((step_withoutBus (s.withRead a) hr).symm.trans hu)
  refine ⟨t, ht, hb, ?_⟩
  rw [htu, hb]
  exact (Bool.or_false _).trans (engine_frame (s.withRead a) false).busErr

/-- Settles O18: the register's offset decodes to it, its word is read, and each word is that of its fields. -/
theorem registerReadsReturnTheirWord : Obligations.RegisterReadsReturnTheirWord := by
  intro s r hi hr
  constructor
  · cases r with
    | cap0 => exact cap0Word_eq hi.params_legal
    | curCol => exact halfWord_eq s.curCol
    | encGeom => exact halves_eq s.encH s.encW
    | encPos => exact halves_eq s.encY s.encX
    | width => exact halfWord_eq s.width
    | height => exact halfWord_eq s.height
    | maxLeds => exact halfWord_eq s.maxLeds
    | ctrl =>
      simp only [csrWord]
      cases s.blank <;> rfl
    | _ => rfl
  · exact step_withRead_busErr hi hr (congrArg (busRead s) (decodeAddress_csrOffset s.params r))

/-! ### Configuration writes -/

/-- A half of a word, zero-extended, is the word masked to it (R37 to R39). -/
theorem halfWord_extract (v : Word) : halfWord (v.extractLsb' 0 16) = v &&& 0xFFFF := by
  apply BitVec.eq_of_toNat_eq
  have hmask : (v &&& 0xFFFF).toNat = v.toNat % 2 ^ 16 := (BitVec.toNat_and v 0xFFFF).trans (Nat.and_two_pow_sub_one_eq_mod _ 16)
  rw [halfWord_eq, hmask]
  simp only [BitVec.extractLsb'_toNat, Nat.shiftRight_zero, BitVec.toNat_ofNat]
  omega

/-- Bit 0 of a word, zero-extended, is the word masked to it (R43). -/
theorem flagWord_getLsbD (v : Word) : (0 : BitVec 31) ++ flagBit (v.getLsbD 0) = v &&& 1 := by
  apply BitVec.eq_of_getLsbD_eq
  intro j hj
  rw [BitVec.getLsbD_append, BitVec.getLsbD_and]
  cases j with
  | zero => simp [flagBit]
  | succ j => simp [BitVec.getLsbD_one]

/-- The word of a configuration register is part of the configuration. -/
theorem csrWord_of_sameConfig {s t : State} (h : SameConfig s t) (r : ConfigReg) :
    csrWord t (configCsr r) = csrWord s (configCsr r) := by
  cases r with
  | width => exact congrArg halfWord h.width
  | height => exact congrArg halfWord h.height
  | maxLeds => exact congrArg halfWord h.maxLeds
  | repeatCount => exact h.repeatCount
  | colDelay => exact h.colDelay
  | loopDelay => exact h.loopDelay
  | ctrl => exact congrArg (fun b => (0 : BitVec 31) ++ flagBit b) h.blank

/-- A configuration write stores the word masked to the register's field (R78). -/
theorem csrWord_configWrite_same (s : State) (r : ConfigReg) (v : Word) :
    csrWord (applyBusWrite s (.config r v)) (configCsr r) = v &&& configMask r := by
  have hall : v &&& 0xFFFFFFFF = v := BitVec.and_allOnes
  cases r with
  | width => exact halfWord_extract v
  | height => exact halfWord_extract v
  | maxLeds => exact halfWord_extract v
  | ctrl => exact flagWord_getLsbD v
  | _ => exact hall.symm

/-- A configuration write leaves every other register alone (R78). -/
theorem csrWord_configWrite_other (s : State) {r r' : ConfigReg} (v : Word) (h : r' ≠ r) :
    csrWord (applyBusWrite s (.config r v)) (configCsr r') = csrWord s (configCsr r') := by
  cases r <;> cases r' <;> trivial

/-- Settles O23: in a quiescent state the write is let through, and the engine writes no configuration. -/
theorem quiescentConfigurationWritesStore : Obligations.QuiescentConfigurationWritesStore := by
  intro s r v hi hr hs
  have hw : busWrite s (.csr (configCsr r)) v = .config r v := by
    simp [busWrite, configReg?_configCsr, (quiescent_iff s.state).mpr hs]
  have hstep := step_withWrite v hi hr (decodeAddress_csrOffset s.params (configCsr r)) (configCsr_ne_cmd r)
  rw [hw] at hstep
  have htick : ∀ (u : State) o c, csrWord (u.tick o) (configCsr c) = csrWord u (configCsr c) :=
    fun u o => csrWord_of_sameConfig (tick_sameConfig u o)
  refine ⟨_, hstep, rfl, ?_, fun r' hne => ?_⟩
  · rw [htick]
    exact csrWord_configWrite_same _ r v
  · rw [htick, csrWord_configWrite_other _ v hne]
    exact csrWord_of_sameConfig (engine_frame (s.withWrite _ v) false).sameConfig r'

/-! ### The bus beside the engine -/

/-- A bus effect writes the same over a state as over what the engine made of it: the elements it writes are not the engine's (R48). -/
theorem applyBusWrite_of_engineFrame {s t : State} (h : EngineFrame s t) (w : BusWrite) :
    applyBusWrite t w =
      { t with
        width := (applyBusWrite s w).width, height := (applyBusWrite s w).height, maxLeds := (applyBusWrite s w).maxLeds,
        repeatCount := (applyBusWrite s w).repeatCount, colDelay := (applyBusWrite s w).colDelay,
        loopDelay := (applyBusWrite s w).loopDelay, blank := (applyBusWrite s w).blank, pix := (applyBusWrite s w).pix,
        busErr := (applyBusWrite s w).busErr } := by
  cases w with
  | none =>
    simp only [applyBusWrite, ← h.width, ← h.height, ← h.maxLeds, ← h.repeatCount, ← h.colDelay, ← h.loopDelay, ← h.blank,
      ← h.pix, ← h.busErr]
  | busErr =>
    simp only [applyBusWrite, ← h.width, ← h.height, ← h.maxLeds, ← h.repeatCount, ← h.colDelay, ← h.loopDelay, ← h.blank,
      ← h.pix]
  | pixel x y v =>
    simp only [applyBusWrite, writePixel, ← h.params, ← h.width, ← h.height, ← h.maxLeds, ← h.repeatCount, ← h.colDelay,
      ← h.loopDelay, ← h.blank, ← h.pix, ← h.busErr]
  | config r v =>
    cases r <;>
      simp only [applyBusWrite, ← h.width, ← h.height, ← h.maxLeds, ← h.repeatCount, ← h.colDelay, ← h.loopDelay, ← h.blank,
        ← h.pix, ← h.busErr]

/-- Settles O25: the engine's transition keeps what the bus effect reads and writes. -/
theorem busAndEngineWriteDisjointElements : Obligations.BusAndEngineWriteDisjointElements :=
  fun s sh w => applyBusWrite_of_engineFrame (engine_frame s sh) w

end Sys2Proof.Machine
end

