-- ==== Sys2Proof/Proofs/SequencerSteps.lean ====
section
/-! One equation for each case of the sequencer's steps (42_sequencer.md R163 to R169), and what a cycle without a transaction
answers (10_state.md R47). -/

namespace Sys2Proof.Machine

/-! ### A cycle without a transaction -/

/-- A cycle without reset and without a transaction is an engine cycle answered OKAY (R47, R73). -/
theorem step_noBus {s : State} (hr : s.now.rst = false) (hq : s.now.busReq = false) :
    step s = engineCycle s false .none (okay 0) :=
  step_access (a := .none) hr (by simp [presented, hq])

/-- Without an abort such a cycle is the transition of its STATE (R47). -/
theorem step_noBus_noAbort {s : State} (hl : s.params.legal = true) (hr : s.now.rst = false) (hq : s.now.busReq = false)
    (ha : abortTaken s false = false) (hf : engineFault s false = none) :
    step s = .next ((stateStep s false).tick { bus := okay 0, stream := streamOut s }) :=
  (step_noBus hr hq).trans
    (engineCycle_next_iff.mpr ⟨hl, ha.symm ▸ hf, by rw [engine_of_no_abort ha]; rfl⟩)

/-- With an abort it is the state's abort rule, with the cause latched (R219). -/
theorem step_noBus_abort {s : State} (hl : s.params.legal = true) (hr : s.now.rst = false) (hq : s.now.busReq = false)
    (ha : abortTaken s false = true) (hf : engineFault s true = none) :
    step s = .next ((latchAbort (stateStep s true) (abortCause s.now false)).tick
      { bus := okay 0, stream := streamOut s }) :=
  (step_noBus hr hq).trans
    (engineCycle_next_iff.mpr ⟨hl, ha.symm ▸ hf, by rw [engine_of_abort ha]; rfl⟩)

/-! ### The transition of a STATE (R47) -/

theorem stateStep_encoding {s : State} (hs : s.state = .encoding) : stateStep s false = encodingStep s := by
  rw [stateStep, hs]
  rfl

theorem stateStep_txCol {s : State} (hs : s.state = .txCol) (a : Bool) : stateStep s a = txColStep s a := by
  rw [stateStep, hs]

theorem stateStep_waitCol {s : State} (hs : s.state = .waitCol) : stateStep s false = waitColStep s := by
  rw [stateStep, hs]
  rfl

theorem stateStep_waitLoop {s : State} (hs : s.state = .waitLoop) : stateStep s false = waitLoopStep s := by
  rw [stateStep, hs]
  rfl

theorem stateStep_txOff {s : State} (hs : s.state = .txOff) (a : Bool) : stateStep s a = txOffStep s := by
  rw [stateStep, hs]

/-! ### The end of an iteration (R167) -/

theorem endOfIteration_last {s : State} (hn : s.repeatCount.toNat ≠ 0) (hi : s.iter.toNat + 1 = s.repeatCount.toNat) :
    endOfIteration s = toOffBuffer { s with iter := s.iter + 1 } := if_pos ⟨hn, hi⟩

/-- Another iteration is due: infinite mode, or REPEAT is not reached. -/
theorem not_lastIteration {s : State} (h : s.repeatCount.toNat = 0 ∨ s.iter.toNat + 1 ≠ s.repeatCount.toNat) :
    ¬(s.repeatCount.toNat ≠ 0 ∧ s.iter.toNat + 1 = s.repeatCount.toNat) := fun hh => h.elim hh.1 fun hne => hne hh.2

theorem endOfIteration_delay {s : State} (h : s.repeatCount.toNat = 0 ∨ s.iter.toNat + 1 ≠ s.repeatCount.toNat)
    (hb : s.blank = true) (hd : 0 < s.loopDelay.toNat) :
    endOfIteration s = { s with iter := s.iter + 1, state := .waitLoop, waitLeft := delayCycles s s.loopDelay } :=
  (if_neg (not_lastIteration h)).trans (if_pos ⟨hb, hd⟩)

theorem endOfIteration_again {s : State} (h : s.repeatCount.toNat = 0 ∨ s.iter.toNat + 1 ≠ s.repeatCount.toNat)
    (hb : s.blank = false ∨ s.loopDelay.toNat = 0) :
    endOfIteration s = toFirstColumn { s with iter := s.iter + 1 } :=
  (if_neg (not_lastIteration h)).trans (if_neg (by rintro ⟨h1, h2⟩; rcases hb with hb | hb <;> simp_all))

/-! ### The end of a column (R164, R166) -/

theorem advanceColumn_next {s : State} (h : s.curCol.toNat + 1 < s.encW.toNat) :
    advanceColumn s = { s with curCol := s.curCol + 1, txIdx := 0, state := .txCol } := if_pos h

theorem advanceColumn_last {s : State} (h : s.encW.toNat ≤ s.curCol.toNat + 1) : advanceColumn s = endOfIteration s :=
  if_neg (Nat.not_lt.mpr h)

theorem columnDone_abort {s : State} {a : Bool} (h : s.abortPend = true ∨ a = true) :
    columnDone s a = { s with txIdx := 0, state := .txOff } := if_pos (by simpa using h)

theorem columnDone_delay {s : State} (hp : s.abortPend = false) (hd : 0 < s.colDelay.toNat) :
    columnDone s false = { s with txIdx := 0, state := .waitCol, waitLeft := delayCycles s s.colDelay } :=
  (if_neg (by simp [hp])).trans (if_pos hd)

theorem columnDone_advance {s : State} (hp : s.abortPend = false) (hd : s.colDelay.toNat = 0) :
    columnDone s false = advanceColumn { s with txIdx := 0 } :=
  (if_neg (by simp [hp])).trans (if_neg (by simp [hd]))

/-! ### The output states (R163, R165, R168, R169) -/

theorem txColStep_stall {s : State} (he : s.now.sinkErr = false) (ho : s.now.outReady = false) (a : Bool) :
    txColStep s a = s := by
  simp [txColStep, he, ho]

theorem txColStep_next {s : State} (he : s.now.sinkErr = false) (ho : s.now.outReady = true)
    (hidx : s.txIdx.toNat < 3 * s.encH.toNat) (a : Bool) : txColStep s a = { s with txIdx := s.txIdx + 1 } := by
  simp [txColStep, he, ho, hidx]

theorem txColStep_last {s : State} (he : s.now.sinkErr = false) (ho : s.now.outReady = true)
    (hidx : s.txIdx.toNat = 3 * s.encH.toNat) (a : Bool) : txColStep s a = columnDone s a := by
  simp [txColStep, he, ho, hidx]

/-- A counter with one cycle left is 1. -/
theorem eq_one_of_toNat {v : BitVec 64} (h : v.toNat = 1) : v = 1 := BitVec.eq_of_toNat_eq h

theorem ne_one_of_toNat {v : BitVec 64} (h : 1 < v.toNat) : v ≠ 1 := by
  rintro rfl
  exact absurd h (by decide)

theorem waitColStep_count {s : State} (h : 1 < s.waitLeft.toNat) : waitColStep s = { s with waitLeft := s.waitLeft - 1 } :=
  if_neg (ne_one_of_toNat h)

theorem waitColStep_end {s : State} (h : s.waitLeft.toNat = 1) : waitColStep s = advanceColumn { s with waitLeft := 0 } :=
  if_pos (eq_one_of_toNat h)

theorem waitLoopStep_count {s : State} (h : 1 < s.waitLeft.toNat) : waitLoopStep s = { s with waitLeft := s.waitLeft - 1 } :=
  if_neg (ne_one_of_toNat h)

theorem waitLoopStep_end {s : State} (h : s.waitLeft.toNat = 1) : waitLoopStep s = toFirstColumn { s with waitLeft := 0 } :=
  if_pos (eq_one_of_toNat h)

/-- A delay cycle whose counter is not spent accesses nothing (log entry 5). -/
theorem engineFault_wait {s : State} (hs : s.state = .waitCol ∨ s.state = .waitLoop) (hw : 1 ≤ s.waitLeft.toNat) :
    engineFault s false = none := by
  have hne : s.waitLeft ≠ 0 := by
    intro h
    simp [h] at hw
  have hno : waitFault s = none := if_neg hne
  rcases hs with hs | hs <;> simp [engineFault, hs, hno]

/-- A column byte that CBM has is no fault, whether or not an abort is taken (log entry 5). -/
theorem engineFault_txCol {s : State} (hs : s.state = .txCol) (hx : s.curCol.toNat < s.params.pMaxWidth)
    (hk : s.txIdx.toNat < s.params.colStride) (a : Bool) : engineFault s a = none := by
  simp [engineFault, hs, txColFault, columnByteExists, hx, hk]

/-- In a delay no byte is offered (R162). -/
theorem streamOut_wait {s : State} (hs : s.state = .waitCol ∨ s.state = .waitLoop) : streamOut s = silentStream := by
  rcases hs with hs | hs <;> simp [streamOut, hs, silentStream]

end Sys2Proof.Machine
end

