-- ==== Sys2Proof/Proofs/SequencerCycles.lean ====
section
/-! The statements about one cycle of output (42_sequencer.md R163 to R169): each is the equation of its case beside the end of the
cycle. -/

namespace Sys2Proof.Machine

/-! ### Delays -/

/-- A WAIT_COL cycle without a transaction or an abort is the state's step (R165). -/
theorem step_waitCol {s : State} (hl : s.params.legal = true) (hs : s.state = .waitCol) (hr : s.now.rst = false)
    (hq : s.now.busReq = false) (ha : abortTaken s false = false) (hw : 1 ≤ s.waitLeft.toNat) :
    step s = .next ((waitColStep s).tick { bus := okay 0, stream := silentStream }) := by
  rw [step_noBus_noAbort hl hr hq ha (engineFault_wait (.inl hs) hw), streamOut_wait (.inl hs), stateStep_waitCol hs]

/-- A WAIT_LOOP cycle without a transaction or an abort is the state's step (R168). -/
theorem step_waitLoop {s : State} (hl : s.params.legal = true) (hs : s.state = .waitLoop) (hr : s.now.rst = false)
    (hq : s.now.busReq = false) (ha : abortTaken s false = false) (hw : 1 ≤ s.waitLeft.toNat) :
    step s = .next ((waitLoopStep s).tick { bus := okay 0, stream := silentStream }) := by
  rw [step_noBus_noAbort hl hr hq ha (engineFault_wait (.inr hs) hw), streamOut_wait (.inr hs), stateStep_waitLoop hs]

/-- Settles O41: the counter goes on, or its last cycle moves to the next column. -/
theorem columnDelayCycle : Obligations.ColumnDelayCycle := by
  intro s hl hs hr hq ha
  refine ⟨fun hw => ?_, fun hw hcol => ?_⟩
  · rw [step_waitCol hl hs hr hq ha hw.le, waitColStep_count hw]
    rfl
  · rw [step_waitCol hl hs hr hq ha hw.ge, waitColStep_end hw, advanceColumn_next (by exact hcol)]
    rfl

/-- Settles O43: the counter goes on, or its last cycle moves to column 0. -/
theorem loopDelayCycle : Obligations.LoopDelayCycle := by
  intro s hl hs hr hq ha
  refine ⟨fun hw => ?_, fun hw => ?_⟩
  · rw [step_waitLoop hl hs hr hq ha hw.le, waitLoopStep_count hw]
    rfl
  · rw [step_waitLoop hl hs hr hq ha hw.ge, waitLoopStep_end hw]
    rfl

/-! ### The off buffer -/

/-- Settles O44: no abort is taken in TX_OFF, and the cases are those of its step. -/
theorem offByteCycle : Obligations.OffByteCycle := by
  intro s hl hs hr hq
  have hstep : step s = .next ((txOffStep s).tick { bus := okay 0, stream := streamOut s }) := by
    rw [step_noBus_noAbort hl hr hq (by simp [abortTaken, hs, SeqState.abortable]) (by simp [engineFault, hs]),
      stateStep_txOff hs]
  refine ⟨fun he => ?_, fun he ho hidx => ?_, fun he ho hidx => ?_, fun he ho => ?_⟩
  · rw [hstep, txOffStep, if_pos he]
    rfl
  · rw [hstep, txOffStep_next (by simp [sinkReady, he, ho]) hidx]
    rfl
  · rw [hstep, txOffStep, if_neg (by simp [he]), if_pos ho, if_neg (Nat.not_lt.mpr hidx)]
    rfl
  · rw [hstep, txOffStep, if_neg (by simp [he]), if_neg (by simp [ho])]
    rfl

/-! ### Column output -/

/-- With an abort line high and none pending, a TX_COL cycle without a sink failure takes the abort (R219). -/
theorem abortTaken_txCol {s : State} {sh : Bool} (hs : s.state = .txCol) (hp : s.abortPend = false)
    (he : s.now.sinkErr = false) (hreq : abortReq s.now sh = true) : abortTaken s sh = true :=
  (abortTaken_iff s sh).mpr ⟨hreq, by rw [hs]; rfl, hp, by simp [he]⟩

/-- Some abort line is high (R216). -/
theorem abortReq_lines {i : PortIn} (h : i.sigInt = true ∨ i.sigTerm = true ∨ i.sigHup = true ∨ i.sigSegv = true)
    (sh : Bool) : abortReq i sh = true := by
  rcases h with h | h | h | h <;> simp [abortReq, h]

/-- The cause of the highest priority among lines of which one is high (R217). -/
theorem abortCause_lines {i : PortIn} (h : i.sigInt = true ∨ i.sigTerm = true ∨ i.sigHup = true ∨ i.sigSegv = true) :
    abortCause i false =
      if i.sigInt then .int else if i.sigTerm then .term else if i.sigHup then .hup else .segv := by
  unfold abortCause
  split_ifs <;> simp_all

/-- The cause of SHUTDOWN is HOST, unless a line is also high (R217). -/
theorem abortCause_shutdown (i : PortIn) :
    abortCause i true =
      if i.sigInt then .int else if i.sigTerm then .term else if i.sigHup then .hup
      else if i.sigSegv then .segv else .host := rfl

/-- Settles O39: a sink failure takes no abort; otherwise the abort is latched beside the step's own case. -/
theorem columnByteCycle : Obligations.ColumnByteCycle := by
  intro s hl hs hx hk hr hq
  have hf := engineFault_txCol hs hx hk
  have hstate := stateStep_txCol hs
  refine ⟨fun he => ?_, fun ha he ho hidx => ?_, fun ha he ho => ?_, fun hp he hline hcase => ?_⟩
  · rw [step_noBus_noAbort hl hr hq (by simp [abortTaken, hs, he]) (hf false), hstate, txColStep, if_pos he]
    rfl
  · rw [step_noBus_noAbort hl hr hq ha (hf false), hstate, txColStep_next he ho hidx]
    rfl
  · rw [step_noBus_noAbort hl hr hq ha (hf false), hstate, txColStep_stall he ho]
    rfl
  · rw [step_noBus_abort hl hr hq (abortTaken_txCol hs hp he (abortReq_lines hline false)) (hf true), hstate,
      abortCause_lines hline]
    rcases Bool.eq_false_or_eq_true s.now.outReady with ho | ho
    · rw [txColStep_next he ho (hcase.resolve_left (by simp [ho])), ho]
      rfl
    · rw [txColStep_stall he ho, ho]
      rfl

/-- The last handshake of a column, without a transaction or an abort (R164). -/
theorem step_columnEnd {s : State} (hi : s.Inv) (hs : s.state = .txCol) (hidx : s.txIdx.toNat = 3 * s.encH.toNat)
    (hr : s.now.rst = false) (hq : s.now.busReq = false) (he : s.now.sinkErr = false) (ho : s.now.outReady = true)
    (ha : abortTaken s false = false) :
    step s = .next ((columnDone s false).tick { bus := okay 0, stream := streamOut s }) := by
  rw [step_noBus_noAbort hi.params_legal hr hq ha (engineFault_none hi false), stateStep_txCol hs,
    txColStep_last he ho hidx]

/-- Settles O40: the cases are those of `columnDone`. -/
theorem columnEndCycle : Obligations.ColumnEndCycle := by
  intro s hi hs hidx hr hq he ho
  have hend := step_columnEnd hi hs hidx hr hq he ho
  refine ⟨fun hp => ?_, fun ha => ?_, fun hp ha hd => ?_, fun hp ha hd hcol => ?_⟩
  · rw [hend (by simp [abortTaken, hp]), columnDone_abort (.inl hp)]
    rfl
  · rw [step_noBus_abort hi.params_legal hr hq ha (engineFault_none hi true), stateStep_txCol hs,
      txColStep_last he ho hidx, columnDone_abort (.inr rfl)]
    rfl
  · rw [hend ha, columnDone_delay hp hd]
    exact ⟨_, rfl, (delayCycles_toNat hi.params_legal hd).1, rfl⟩
  · rw [hend ha, columnDone_advance hp hd, advanceColumn_next (by exact hcol), State.tick, hs]
    rfl

/-! ### The end of an iteration -/

/-- Settles O42: both ways in end in `endOfIteration`, whose cases they are. -/
theorem endOfIterationCycle : Obligations.EndOfIterationCycle := by
  constructor
  · intro s hl hs hr hq ha hw hcol
    have hend : step s = .next ((endOfIteration { s with waitLeft := 0 }).tick { bus := okay 0, stream := silentStream }) := by
      rw [step_waitCol hl hs hr hq ha hw.ge, waitColStep_end hw, advanceColumn_last (by exact hcol)]
    refine ⟨fun hn hi => ?_, fun hmore hb hd => ?_, fun hmore hb => ?_⟩
    · rw [hend, endOfIteration_last (by exact hn) (by exact hi)]
      rfl
    · rw [hend, endOfIteration_delay (by exact hmore) (by exact hb) (by exact hd)]
      exact ⟨_, rfl, (delayCycles_toNat hl hd).1, rfl⟩
    · rw [hend, endOfIteration_again (by exact hmore) (by exact hb)]
      rfl
  · intro s hi hs hidx hr hq he ho hp ha hd hcol
    have hend : step s = .next ((endOfIteration { s with txIdx := 0 }).tick { bus := okay 0, stream := streamOut s }) := by
      rw [step_columnEnd hi hs hidx hr hq he ho ha, columnDone_advance hp hd, advanceColumn_last (by exact hcol)]
    refine ⟨fun hn hit => ?_, fun hmore hb hloop => ?_, fun hmore hb => ?_⟩
    · rw [hend, endOfIteration_last (by exact hn) (by exact hit)]
      rfl
    · rw [hend, endOfIteration_delay (by exact hmore) (by exact hb) (by exact hloop)]
      exact ⟨_, rfl, (delayCycles_toNat hi.params_legal hloop).1, rfl⟩
    · rw [hend, endOfIteration_again (by exact hmore) (by exact hb), State.tick, hs]
      rfl

end Sys2Proof.Machine
end

