-- ==== Sys2Proof/Proofs/Commands.lean ====
section
/-! The statements about the commands (41_formatter.md R140, 42_sequencer.md R160 and R161, 43_control.md R201 to R205) and about the
aborts that go straight to the off buffer (60_exceptions.md R220, R221, R223). -/

namespace Sys2Proof.Machine

/-! ### Accepted commands -/

/-- An accepted command of a quiescent state leaves its effect, answers OKAY, and offers no byte (R204). -/
theorem commandCycle_quiescent {s : State} (hl : s.params.legal = true) (hq : s.state.quiescent = true) (u : State) :
    commandCycle s u = .next (u.tick { bus := okay 0, stream := silentStream }) :=
  commandCycle_next_iff.mpr ⟨hl, by rw [streamOut_quiescent hq]⟩

theorem acceptsEncode_iff (s : State) : acceptsEncode s = true ↔ s.state = .idle ∧ abortTaken s false = false := by
  simp [acceptsEncode]

theorem acceptsRun_iff (s : State) :
    acceptsRun s = true ↔ s.state = .idle ∧ s.encoded = true ∧ abortTaken s false = false := by
  simp [acceptsRun, and_assoc]

theorem acceptsStart_iff (s : State) : acceptsStart s = true ↔ s.state = .idle ∧ abortTaken s false = false := by
  simp [acceptsStart]

theorem acceptsClear_iff (s : State) :
    acceptsClear s = true ↔ (s.state = .idle ∨ s.state = .done ∨ s.state = .error) ∧ abortTaken s false = false := by
  simp [acceptsClear, quiescent_iff]

theorem exec_encode_accepted {s : State} (hl : s.params.legal = true) (hs : s.state = .idle)
    (ha : abortTaken s false = false) :
    exec .encode s = .next ((encodeEffect s).tick { bus := okay 0, stream := silentStream }) :=
  (if_pos ((acceptsEncode_iff s).mpr ⟨hs, ha⟩)).trans (commandCycle_quiescent hl (quiescent_of_idle hs) _)

theorem exec_run_accepted {s : State} (hl : s.params.legal = true) (hs : s.state = .idle) (henc : s.encoded = true)
    (ha : abortTaken s false = false) :
    exec .run s = .next ((runEffect s).tick { bus := okay 0, stream := silentStream }) :=
  (if_pos ((acceptsRun_iff s).mpr ⟨hs, henc, ha⟩)).trans (commandCycle_quiescent hl (quiescent_of_idle hs) _)

theorem exec_start_accepted {s : State} (hl : s.params.legal = true) (hs : s.state = .idle)
    (ha : abortTaken s false = false) :
    exec .start s = .next ((startEffect s).tick { bus := okay 0, stream := silentStream }) :=
  (if_pos ((acceptsStart_iff s).mpr ⟨hs, ha⟩)).trans (commandCycle_quiescent hl (quiescent_of_idle hs) _)

/-! ### Checks -/

/-- A geometry out of range (R141, R213). -/
theorem checkGeometry_badConfig {s : State}
    (h : s.width.toNat = 0 ∨ s.params.pMaxWidth < s.width.toNat ∨ s.height.toNat = 0 ∨ s.maxLeds.toNat = 0 ∨
      s.params.pMaxLeds < s.maxLeds.toNat) : checkGeometry s = .badConfig := if_pos h

/-- An image taller than the strip (R141, R214). -/
theorem checkGeometry_imageTooTall {s : State} (hw : 1 ≤ s.width.toNat) (hw' : s.width.toNat ≤ s.params.pMaxWidth)
    (hh : 1 ≤ s.height.toNat) (hm : 1 ≤ s.maxLeds.toNat) (hm' : s.maxLeds.toNat ≤ s.params.pMaxLeds)
    (htall : s.maxLeds.toNat < s.height.toNat) : checkGeometry s = .imageTooTall :=
  (if_neg (by omega)).trans (if_pos htall)

/-- ENCODE's effect is decided by the check (R140). -/
theorem encodeEffect_of_check {s : State} {c : ErrCode} (h : checkGeometry s = c) :
    encodeEffect s = if c = .none then beginEncoding s false else enterError s c := by
  rw [encodeEffect, h]

/-- With the sink present START's effect is decided by the check (R161). -/
theorem startEffect_of_check {s : State} {c : ErrCode} (hsink : s.now.sinkAvail = true) (h : checkGeometry s = c) :
    startEffect s = if c = .none then startOutput (beginEncoding s true) else enterError s c := by
  rw [startEffect, if_neg (by simp [hsink]), h]

/-- Settles O27: the effect of ENCODE in each outcome of its check. -/
theorem encodeLatchesTheGeometryOrFails : Obligations.EncodeLatchesTheGeometryOrFails := by
  intro s hl hs ha
  have hexec := exec_encode_accepted hl hs ha
  refine ⟨fun hw hw' hh hm hm' htall => ?_, fun hbad => ?_, fun hw hw' hh hm hm' htall => ?_⟩
  · rw [hexec, encodeEffect_of_check ((checkGeometry_none_iff s).mpr ⟨⟨hw, hw', hh, hm, hm'⟩, htall⟩)]
    rfl
  · rw [hexec, encodeEffect_of_check (checkGeometry_badConfig hbad)]
    rfl
  · rw [hexec, encodeEffect_of_check (checkGeometry_imageTooTall hw hw' hh hm hm' htall)]
    rfl

/-- Settles O28: the effect of RUN in each outcome of its checks, in their order. -/
theorem runStartsOutputOrFails : Obligations.RunStartsOutputOrFails := by
  intro s hl hs henc ha
  have hexec := exec_run_accepted hl hs henc ha
  refine ⟨fun hsink hm hm' htall => ?_, fun hsink => ?_, fun hsink hbad => ?_, fun hsink hm hm' htall => ?_⟩
  · rw [hexec, runEffect, if_neg (by simp [hsink]), if_neg (by omega), if_neg (by omega)]
    rfl
  · rw [hexec, runEffect, if_pos hsink]
    rfl
  · rw [hexec, runEffect, if_neg (by simp [hsink]), if_pos hbad]
    rfl
  · rw [hexec, runEffect, if_neg (by simp [hsink]), if_neg (by omega), if_pos htall]
    rfl

/-- Settles O29: the effect of START in each outcome of its checks, in their order. -/
theorem startStartsTheWholeRunOrFails : Obligations.StartStartsTheWholeRunOrFails := by
  intro s hl hs ha
  have hexec := exec_start_accepted hl hs ha
  refine ⟨fun hsink hw hw' hh hm hm' htall => ?_, fun hsink => ?_, fun hsink hbad => ?_,
    fun hsink hw hw' hh hm hm' htall => ?_⟩
  · rw [hexec, startEffect_of_check hsink ((checkGeometry_none_iff s).mpr ⟨⟨hw, hw', hh, hm, hm'⟩, htall⟩)]
    rfl
  · rw [hexec, startEffect, if_pos hsink]
    rfl
  · rw [hexec, startEffect_of_check hsink (checkGeometry_badConfig hbad)]
    rfl
  · rw [hexec, startEffect_of_check hsink (checkGeometry_imageTooTall hw hw' hh hm hm' htall)]
    rfl

/-- Settles O32: CLEAR is accepted, and its effect is `clearTerminal`. -/
theorem clearLeavesTheTerminalState : Obligations.ClearLeavesTheTerminalState :=
  fun s hl hs ha =>
    (if_pos ((acceptsClear_iff s).mpr ⟨hs, ha⟩)).trans (commandCycle_quiescent hl ((quiescent_iff s.state).mpr hs) _)

/-! ### Aborts to the off buffer -/

/-- The states that an abort leaves for the off buffer at once (R220, R221, R223). -/
def SeqState.abortsAtOnce (q : SeqState) : Prop := q = .idle ∨ q = .encoding ∨ q = .waitCol ∨ q = .waitLoop

/-- In these states an abort request with none pending is taken (R218, R219). -/
theorem abortTaken_atOnce {s : State} {sh : Bool} (hs : s.state.abortsAtOnce) (hp : s.abortPend = false)
    (hreq : abortReq s.now sh = true) : abortTaken s sh = true := by
  refine (abortTaken_iff s sh).mpr ⟨hreq, ?_, hp, ?_⟩
  · rcases hs with hs | hs | hs | hs <;> rw [hs] <;> rfl
  · rcases hs with hs | hs | hs | hs <;> simp [hs]

/-- The cycle of such an abort accesses no memory and offers no byte. -/
theorem engineCycle_atOnce {s : State} {sh : Bool} (hl : s.params.legal = true) (hs : s.state.abortsAtOnce)
    (hp : s.abortPend = false) (hreq : abortReq s.now sh = true) :
    engineCycle s sh .none (okay 0) =
      .next ((latchAbort (toOffBuffer s) (abortCause s.now sh)).tick { bus := okay 0, stream := silentStream }) := by
  have ha := abortTaken_atOnce hs hp hreq
  have hstep : stateStep s true = toOffBuffer s := by rcases hs with hs | hs | hs | hs <;> simp [stateStep, hs]
  have hfault : engineFault s true = none := by rcases hs with hs | hs | hs | hs <;> simp [engineFault, hs]
  have hstream : streamOut s = silentStream := by rcases hs with hs | hs | hs | hs <;> simp [streamOut, silentStream, hs]
  refine engineCycle_next_iff.mpr ⟨hl, ha.symm ▸ hfault, ?_⟩
  rw [engine_of_abort ha, hstep, hstream]
  rfl

/-- Settles O53: the request comes from a line. -/
theorem abortGoesToTheOffBuffer : Obligations.AbortGoesToTheOffBuffer := by
  intro s hl hs hp hr hq hline
  rw [step_noBus hr hq, engineCycle_atOnce hl hs hp (abortReq_lines hline false), abortCause_lines hline]
  rfl

/-- SHUTDOWN is the engine's cycle with an abort request of its own, answered OKAY (R201). -/
theorem exec_shutdown (s : State) : exec .shutdown s = engineCycle s true .none (okay 0) := rfl

/-- SHUTDOWN is an abort request (R216). -/
theorem abortReq_shutdown (i : PortIn) : abortReq i true = true := by simp [abortReq]

/-- Settles O30: the request is the command itself. -/
theorem shutdownGoesToTheOffBuffer : Obligations.ShutdownGoesToTheOffBuffer := by
  intro s hl hs hp
  rw [exec_shutdown, engineCycle_atOnce hl hs hp (abortReq_shutdown _), abortCause_shutdown]
  rfl

/-! ### SHUTDOWN elsewhere -/

/-- No abort is taken in these states and conditions, whatever requests it (R218, R219, R224). -/
theorem abortTaken_eq_false {s : State}
    (h : s.state = .txOff ∨ s.state = .done ∨ s.state = .error ∨ s.abortPend = true ∨
      (s.state = .txCol ∧ s.now.sinkErr = true)) (sh : Bool) : abortTaken s sh = false := by
  rcases h with h | h | h | h | h <;> simp [abortTaken, SeqState.abortable, h]

/-- Where no abort is taken, SHUTDOWN makes no difference to the engine (R224). -/
theorem engineCycle_shutdown_of_noAbort {s : State} (ha : ∀ sh, abortTaken s sh = false) (w : BusWrite) (r : BusResp) :
    engineCycle s true w r = engineCycle s false w r := by
  unfold engineCycle
  rw [ha, ha, engine_of_no_abort (ha true), engine_of_no_abort (ha false)]

/-- Settles O31: where no abort is taken the cycle is the one without a transaction; in TX_COL the abort is latched beside the step. -/
theorem shutdownElsewhere : Obligations.ShutdownElsewhere := by
  constructor
  · intro s hi hr hcase
    have hno := engineCycle_shutdown_of_noAbort (abortTaken_eq_false hcase) .none (okay 0)
    have hnext := engineCycle_inv hi false .none (okay 0)
    exact ⟨_, hno.trans hnext, (step_withoutBus s hr).trans hnext⟩
  · intro s hi hs hp he
    have ha := abortTaken_txCol hs hp he (abortReq_shutdown s.now)
    have hcolumn : txColStep s true =
        { s with
          state := (if s.now.outReady = true ∧ s.txIdx.toNat = 3 * s.encH.toNat then .txOff else .txCol)
          txIdx := (if s.now.outReady = false then s.txIdx
            else if s.txIdx.toNat = 3 * s.encH.toNat then 0 else s.txIdx + 1) } := by
      rcases Bool.eq_false_or_eq_true s.now.outReady with ho | ho
      · rcases Nat.lt_or_eq_of_le (hi.column_byte hs) with hlt | heq
        · simp [txColStep_next he ho hlt, ho, hlt.ne, ← hs]
        · simp [txColStep_last he ho heq, columnDone_abort, ho, heq]
      · simp [txColStep_stall he ho, ho, ← hs]
    rw [exec_shutdown, engineCycle_inv hi, engine_of_abort ha, stateStep_txCol hs, hcolumn, abortCause_shutdown]
    rfl

/-! ### Acceptance -/

/-- A rejected command is the cycle without a transaction, but for BUS_ERR and the response (R77, R204). -/
theorem rejectCommand_eq {s : State} (hi : s.Inv) (hr : s.now.rst = false) :
    ∃ u, step s.withoutBus = .next u ∧ rejectCommand s = .next u.withBusErr := by
  have hnext : rejectCommand s = _ := engineCycle_inv hi false .busErr errResp
  obtain ⟨u, hu, ht⟩ := rejectCommand_withBusErr hr hnext
  exact ⟨u, hu, ht ▸ hnext⟩

/-- A command with an effect of its own is answered OKAY exactly when its condition holds (R204). -/
theorem acceptOrReject {s t : State} {accept : Bool} {p : Prop} (hi : s.Inv) (hr : s.now.rst = false) (hp : accept = true ↔ p) :
    (p → ∃ u, (if accept then commandCycle s t else rejectCommand s) = .next u ∧ u.out.bus = { rdata := 0, err := false }) ∧
      (¬p → ∃ u, step s.withoutBus = .next u ∧
        (if accept then commandCycle s t else rejectCommand s) = .next u.withBusErr) := by
  refine ⟨fun h => ?_, fun h => ?_⟩
  · rw [if_pos (hp.mpr h)]
    exact ⟨_, commandCycle_next_iff.mpr ⟨hi.params_legal, rfl⟩, rfl⟩
  · rw [if_neg fun ha => h (hp.mp ha)]
    exact rejectCommand_eq hi hr

/-- Settles O33: NOP and SHUTDOWN are always accepted, and each other command on its own condition. -/
theorem commandsAreAcceptedAsTheTableSays : Obligations.CommandsAreAcceptedAsTheTableSays := by
  intro s hi hr i
  have halways : ∀ sh, (True → ∃ t, engineCycle s sh .none (okay 0) = .next t ∧ t.out.bus = { rdata := 0, err := false }) ∧
      (¬True → ∃ u, step s.withoutBus = .next u ∧ engineCycle s sh .none (okay 0) = .next u.withBusErr) :=
    fun sh => ⟨fun _ => ⟨_, engineCycle_inv hi sh _ _, rfl⟩, fun h => absurd trivial h⟩
  cases i with
  | nop => exact halways false
  | shutdown => exact halways true
  | encode => exact acceptOrReject hi hr (acceptsEncode_iff s)
  | run => exact acceptOrReject hi hr (acceptsRun_iff s)
  | start => exact acceptOrReject hi hr (acceptsStart_iff s)
  | clear => exact acceptOrReject hi hr (acceptsClear_iff s)

end Sys2Proof.Machine
end

