-- ==== Sys2Proof/Proofs/FormatterCycles.lean ====
section
/-! The statements about one cycle of the formatter (41_formatter.md R142, R144, R145): the bytes of CBM it writes, and its frame. -/

namespace Sys2Proof.Machine

/-- An ENCODING cycle without a transaction or an abort is the formatter's step (R142, R144). -/
theorem step_encoding {s : State} (hl : s.params.legal = true) (hs : s.state = .encoding) (hr : s.now.rst = false)
    (hq : s.now.busReq = false) (ha : abortTaken s false = false) (hf : encodingFault s = none) :
    step s = .next ((encodingStep s).tick { bus := okay 0, stream := silentStream }) := by
  have hstream : streamOut s = silentStream := by simp [streamOut, silentStream, hs]
  rw [step_noBus_noAbort hl hr hq ha (by simpa [engineFault, hs] using hf), stateStep_encoding hs, hstream]

/-- Distinct places of one column have distinct addresses (R81). -/
theorem columnAddr_ne {p : Params} {x k k' : Nat} (h : k ≠ k') : columnAddr p x k ≠ columnAddr p x k' := by
  unfold columnAddr
  omega

/-- The row's three bytes after the pixel step are the lanes of FORMAT_PIXEL, wherever the row is (R142, R143). -/
theorem readColumn_pixelStep_row (s : State) :
    readColumn (pixelStep s) s.encX.toNat (3 * s.encY.toNat) = gamma (readPixel s s.encX.toNat s.encY.toNat).b ∧
      readColumn (pixelStep s) s.encX.toNat (3 * s.encY.toNat + 1) = gamma (readPixel s s.encX.toNat s.encY.toNat).r ∧
      readColumn (pixelStep s) s.encX.toNat (3 * s.encY.toNat + 2) = gamma (readPixel s s.encX.toNat s.encY.toNat).g := by
  have h01 : columnAddr s.params s.encX.toNat (3 * s.encY.toNat) ≠ columnAddr s.params s.encX.toNat (3 * s.encY.toNat + 1) :=
    columnAddr_ne (by omega)
  have h02 : columnAddr s.params s.encX.toNat (3 * s.encY.toNat) ≠ columnAddr s.params s.encX.toNat (3 * s.encY.toNat + 2) :=
    columnAddr_ne (by omega)
  have h12 : columnAddr s.params s.encX.toNat (3 * s.encY.toNat + 1) ≠
      columnAddr s.params s.encX.toNat (3 * s.encY.toNat + 2) := columnAddr_ne (by omega)
  rw [pixelStep_writes]
  simp [readColumn, read_write_other _ _ h01, read_write_other _ _ h02, read_write_other _ _ h12, formatLane0, formatLane1,
    formatLane2]

/-- The pixel step writes no other byte of CBM (R142). -/
theorem read_pixelStep_other (s : State) {a : Nat} (h0 : a ≠ columnAddr s.params s.encX.toNat (3 * s.encY.toNat))
    (h1 : a ≠ columnAddr s.params s.encX.toNat (3 * s.encY.toNat + 1))
    (h2 : a ≠ columnAddr s.params s.encX.toNat (3 * s.encY.toNat + 2)) :
    Memory.read (pixelStep s).cbm a = Memory.read s.cbm a := by
  rw [pixelStep_writes]
  exact ((read_write_other _ _ h2).trans (read_write_other _ _ h1)).trans (read_write_other _ _ h0)

/-- Settles O36: the cycle is the pixel step. -/
theorem pixelStepWritesTheFormattedPixel : Obligations.PixelStepWritesTheFormattedPixel := by
  intro s hl hs hrow hx hy hr hq ha
  have hf : encodingFault s = none := by simp [encodingFault, hrow, pixelExists, hx, hy]
  obtain ⟨hblue, hred, hgreen⟩ := readColumn_pixelStep_row s
  refine ⟨_, step_encoding hl hs hr hq ha hf, ?_⟩
  rw [encodingStep_pixel hrow]
  exact ⟨congrArg (State.tick · _) (pixelStep_eq s), hblue, hred, hgreen, fun _ => read_pixelStep_other s⟩

/-- After ENCODE the completed encoding leaves the block in IDLE (R145). -/
theorem completeEncoding_idle {s : State} (h : s.runAfterEnc = false) :
    completeEncoding s = { s with encoded := true, state := .idle } := if_neg (by simp [h])

/-- After START output follows at once (R145). -/
theorem completeEncoding_run {s : State} (h : s.runAfterEnc = true) :
    completeEncoding s = { s with encoded := true, state := .txCol, curCol := 0, txIdx := 0 } := if_pos h

/-- Settles O37: the cycle is the trailing step, whose one byte is the framing byte. -/
theorem trailingStepEndsTheColumn : Obligations.TrailingStepEndsTheColumn := by
  intro s hl hs hrow hx hH hr hq ha
  have hf : encodingFault s = none := by
    simp [encodingFault, hrow, columnByteExists, hx, lt_colStride hH le_rfl]
  obtain ⟨hcbm, -⟩ := trailingStep_keeps s
  refine ⟨_, step_encoding hl hs hr hq ha hf, ?_⟩
  rw [encodingStep_trailing hrow]
  refine ⟨?_, fun a hne => ?_, fun hcol => ?_, fun hcol hrun => ?_, fun hcol hrun => ?_⟩
  · rw [readColumn, tick_cbm, hcbm, tick_params, (trailingStep_frame s).params]
    exact readColumn_writeColumn_same s _ _ 0
  · rw [tick_cbm, hcbm]
    exact read_write_other _ _ hne
  · rw [trailingStep_next hcol]
    rfl
  · rw [trailingStep_last (by omega), completeEncoding_idle (by exact hrun)]
    rfl
  · rw [trailingStep_last (by omega), completeEncoding_run (by exact hrun)]
    rfl

end Sys2Proof.Machine
end

