-- ==== Sys2Proof/Proofs/Transitions.lean ====
section
/-! The statements about where a step can lead, and which memories it writes (42_sequencer.md R173, R176; 60_exceptions.md R210, R215,
R226, R227). -/

namespace Sys2Proof.Machine

/-! ### Where the transitions of the engine lead -/

/-- The formatter stays in ENCODING until it completes (R142, R144, R145). -/
theorem encodingStep_state {s : State} (hs : s.state = .encoding) :
    (encodingStep s).state = .encoding ∨ (encodingStep s).state = .idle ∨ (encodingStep s).state = .txCol := by
  unfold encodingStep
  split
  · rw [pixelStep_eq]
    exact .inl hs
  split
  · by_cases hcol : s.encX.toNat + 1 < s.encW.toNat
    · rw [trailingStep_next hcol]
      exact .inl hs
    · rw [trailingStep_last hcol]
      unfold completeEncoding
      split
      · exact .inr (.inr rfl)
      · exact .inr (.inl rfl)
  · exact .inl hs

/-- The end of an iteration goes to the off buffer only when REPEAT is reached (R167). -/
theorem endOfIteration_state (s : State) :
    (endOfIteration s).state = .txCol ∨ (endOfIteration s).state = .waitLoop ∨
      ((endOfIteration s).state = .txOff ∧ s.repeatCount.toNat ≠ 0) := by
  simp only [endOfIteration]
  split_ifs with hlast
  · exact .inr (.inr ⟨rfl, hlast.1⟩)
  · exact .inr (.inl rfl)
  · exact .inl rfl

theorem advanceColumn_state (s : State) :
    (advanceColumn s).state = .txCol ∨ (advanceColumn s).state = .waitLoop ∨
      ((advanceColumn s).state = .txOff ∧ s.repeatCount.toNat ≠ 0) := by
  unfold advanceColumn
  split
  · exact .inl rfl
  · exact endOfIteration_state s

/-- Everything that a transition without an abort can lead to (R142 to R145, R163 to R169, R226): DONE only from the last byte of the
off buffer, and TX_OFF only at the end of a bounded run, behind a pending abort, or from TX_OFF. -/
inductive Move (s t : State) : Prop where
  | stay : t.state = s.state → Move s t
  | idle : t.state = .idle → Move s t
  | output : t.state.output → Move s t
  | error : t.state = .error → Move s t
  | txOff : t.state = .txOff → s.repeatCount.toNat ≠ 0 ∨ s.abortPend = true → Move s t
  | done : s.state = .txOff → t.state = .done → s.now.sinkErr = false → s.now.outReady = true →
      3 * s.maxLeds.toNat + 2 ≤ s.txIdx.toNat → Move s t

theorem advanceColumn_move {s t : State} (hr : s.repeatCount = t.repeatCount) : Move t (advanceColumn s) := by
  rcases advanceColumn_state s with h | h | ⟨h, hn⟩
  · exact .output (.inl h)
  · exact .output (.inr (.inr h))
  · exact .txOff h (.inl (hr ▸ hn))

theorem columnDone_move (s : State) : Move s (columnDone s false) := by
  unfold columnDone
  dsimp only
  split_ifs with hp
  · exact .txOff rfl (.inr (by simpa using hp))
  · exact .output (.inr (.inl rfl))
  · exact advanceColumn_move rfl

theorem stateStep_move (s : State) : Move s (stateStep s false) := by
  cases hs : s.state with
  | idle => exact .stay (by simp [stateStep, hs])
  | done => exact .stay (by simp [stateStep, hs])
  | error => exact .stay (by simp [stateStep, hs])
  | encoding =>
    rw [stateStep_encoding hs]
    rcases encodingStep_state hs with h | h | h
    · exact .stay (h.trans hs.symm)
    · exact .idle h
    · exact .output (.inl h)
  | txCol =>
    rw [stateStep_txCol hs, txColStep]
    split_ifs
    · exact .error rfl
    · exact .stay rfl
    · exact columnDone_move s
    · exact .stay rfl
  | waitCol =>
    rw [stateStep_waitCol hs, waitColStep]
    split_ifs
    · exact advanceColumn_move rfl
    · exact .stay rfl
  | waitLoop =>
    rw [stateStep_waitLoop hs, waitLoopStep]
    split_ifs
    · exact .output (.inl rfl)
    · exact .stay rfl
  | txOff =>
    rw [stateStep_txOff hs, txOffStep]
    split_ifs with he ho hidx
    · exact .error rfl
    · exact .stay rfl
    · exact .done hs rfl (by simpa using he) ho (Nat.not_lt.mp hidx)
    · exact .stay rfl

/-! ### Where a step leads -/

/-- An accepted command leads to ENCODING, TX_COL, ERROR or IDLE (R140, R160, R161, R202). -/
theorem CommandEffect.state {s u : State} (h : CommandEffect s u) :
    u.state = .encoding ∨ u.state = .txCol ∨ u.state = .error ∨ u.state = .idle := by
  cases h with
  | encode => unfold encodeEffect; split_ifs <;> simp
  | run => unfold runEffect; split_ifs <;> simp
  | start => unfold startEffect; split_ifs <;> simp
  | clear => simp

/-- A step that leads to TX_OFF or DONE is the engine's: an abort that is taken, or the transition of its STATE. -/
theorem step_to_end {s t : State} (h : step s = .next t) (ht : t.state = .txOff ∨ t.state = .done) :
    s.now.rst = false ∧ ∃ sh w o, t = (applyBusWrite (engine s sh) w).tick o ∧ t.state = (engine s sh).state := by
  obtain ⟨-, ⟨-, rfl⟩ | ⟨hr, heffect⟩⟩ := step_cases h
  · simp at ht
  · cases heffect with
    | engine sh w r _ _ h' => exact ⟨hr, sh, w, _, h', by rw [h']; exact (applyBusWrite_frame _ w).state⟩
    | command u hu h' =>
      rw [h', tick_state] at ht
      rcases hu.state with h | h | h | h <;> simp [h] at ht

/-- Settles O48: with REPEAT = 0 no transition without an abort leads to TX_OFF, and an abort that is taken is latched. -/
theorem infiniteModeEndsOnlyByAbort : Obligations.InfiniteModeEndsOnlyByAbort := by
  intro s t hn hs h ht
  obtain ⟨-, sh, w, o, rfl, hstate⟩ := step_to_end h (.inl ht)
  rw [hstate] at ht
  have frame := applyBusWrite_frame (engine s sh) w
  cases ha : abortTaken s sh with
  | true =>
    have hreq := ((abortTaken_iff s sh).mp ha).1
    right
    rw [tick_abortPend, tick_signal, frame.abortPend, frame.signal, engine_of_abort ha]
    exact ⟨rfl, abortCause_ne_none hreq⟩
  | false =>
    left
    rw [engine_of_no_abort ha] at ht
    cases stateStep_move s with
    | stay h => exact absurd (h.symm.trans ht) hs
    | idle h => cases h.symm.trans ht
    | output h => rcases h with h | h | h <;> cases h.symm.trans ht
    | error h => cases h.symm.trans ht
    | txOff _ h => exact h.resolve_left (by simp [hn])
    | done _ h => cases h.symm.trans ht

/-- Settles O58: the one transition to DONE is that of the off buffer's last byte. -/
theorem doneIsReachedOnlyThroughTheOffBuffer : Obligations.DoneIsReachedOnlyThroughTheOffBuffer := by
  intro s t hs h ht
  obtain ⟨hr, sh, w, o, rfl, hstate⟩ := step_to_end h (.inr ht)
  rw [hstate] at ht
  have frame := applyBusWrite_frame (engine s sh) w
  cases ha : abortTaken s sh with
  | true =>
    obtain ⟨-, habortable, -, hsink⟩ := (abortTaken_iff s sh).mp ha
    rw [engine_of_abort ha, latchAbort_state] at ht
    rcases stateStep_abort_state habortable hsink with h | h <;> cases h.symm.trans ht
  | false =>
    rw [tick_exitFlag, tick_abortPend, frame.exitFlag, frame.abortPend]
    rw [engine_of_no_abort ha] at ht ⊢
    cases stateStep_move s with
    | stay h => exact absurd (h.symm.trans ht) hs
    | idle h => cases h.symm.trans ht
    | output h => rcases h with h | h | h <;> cases h.symm.trans ht
    | error h => cases h.symm.trans ht
    | txOff h _ => cases h.symm.trans ht
    | done hoff _ he ho hidx =>
      have hend : txOffStep s = { s with txIdx := 0, exitFlag := false, abortPend := false, state := .done } := by
        rw [txOffStep, if_neg (by simp [he]), if_pos ho, if_neg (Nat.not_lt.mpr hidx)]
      have hh : handshake s = true := by simp [handshake, streamOut_txOff hoff, he, ho, hr]
      rw [stateStep_txOff hoff, hend]
      exact ⟨hoff, hh, hidx, rfl, rfl⟩

/-! ### Terminal states -/

/-- Settles O57: in DONE and ERROR the engine does nothing, a bus effect writes nothing of a run, and only CLEAR is accepted. -/
theorem terminalStatesAreLeftOnlyByClearOrReset : Obligations.TerminalStatesAreLeftOnlyByClearOrReset := by
  intro s t hs h
  have hq : s.state.quiescent = true := (quiescent_iff s.state).mpr (.inr hs)
  have hidle : s.state ≠ .idle := by rcases hs with hs | hs <;> simp [hs]
  have hno : ∀ sh, abortTaken s sh = false := abortTaken_eq_false (by rcases hs with hs | hs <;> simp [hs])
  cases hr : s.now.rst with
  | true => exact .inl rfl
  | false =>
    right
    rcases step_events hr h with ⟨w, r, -, hcycle⟩ | ⟨w, i, u, hp, hd, hacc, hcycle⟩
    · obtain ⟨-, -, rfl⟩ := engineCycle_next_iff.mp hcycle
      rw [engine_quiescent hq (hno _), streamOut_quiescent hq]
      have frame := applyBusWrite_frame s w
      exact .inr ⟨frame.state, { frame.sameEncoding with }, ⟨frame.abortPend, frame.exitFlag, frame.errCode, frame.signal⟩,
        ⟨frame.iter, frame.curCol, frame.waitLeft⟩, frame.txIdx, frame.cbm, rfl⟩
    · obtain ⟨-, rfl⟩ := commandCycle_next_iff.mp hcycle
      cases i with
      | nop => exact hacc.elim
      | shutdown => exact hacc.elim
      | encode => exact absurd ((acceptsEncode_iff s).mp hacc.1).1 hidle
      | run => exact absurd ((acceptsRun_iff s).mp hacc.1).1 hidle
      | start => exact absurd ((acceptsStart_iff s).mp hacc.1).1 hidle
      | clear =>
        obtain ⟨-, rfl⟩ := hacc
        exact .inl ⟨w, hp, hd, rfl⟩

/-- Settles O56: the engine enters ERROR beside the bus effect; ERROR is a terminal state. -/
theorem sinkFailureEntersError : Obligations.SinkFailureEntersError := by
  constructor
  · intro s hi hs hr he
    obtain ⟨w, r, -, hconfig, hstep⟩ := busy_step hi hr (busy_of_output hs)
    rw [engine_sinkErr hs he] at hstep
    have frame := applyBusWrite_frame (enterError s .deviceWriteFailure) w
    exact ⟨by simp [handshake, he], _, hstep, frame.state, frame.errCode, frame.exitFlag, frame.txIdx, frame.abortPend,
      frame.signal, frame.cbm, { frame.sameEncoding with }, ⟨frame.iter, frame.curCol, frame.waitLeft⟩⟩
  · intro s t hs hr h hne
    rcases terminalStatesAreLeftOnlyByClearOrReset s t (.inr hs) h with hrst | ⟨w, hp, hd, -⟩ | ⟨hstate, -⟩
    · cases hr.symm.trans hrst
    · exact ⟨w, hp, hd⟩
    · exact absurd (hstate.trans hs) hne

/-! ### The memories -/

/-- No command writes PIX or CBM (R24, R25). -/
theorem CommandEffect.memories {s u : State} (h : CommandEffect s u) : u.pix = s.pix ∧ u.cbm = s.cbm := by
  cases h with
  | encode => unfold encodeEffect; split_ifs <;> simp
  | run => unfold runEffect; split_ifs <;> simp
  | start => unfold startEffect; split_ifs <;> simp
  | clear => simp

/-- Outside ENCODING no step writes CBM (R25, R176). -/
theorem step_cbm {s t : State} (hs : s.state ≠ .encoding) (h : step s = .next t) : t.cbm = s.cbm := by
  obtain ⟨-, ⟨-, rfl⟩ | ⟨-, heffect⟩⟩ := step_cases h
  · rfl
  · cases heffect with
    | engine sh w r _ _ ht =>
      rw [ht]
      exact (applyBusWrite_frame _ w).cbm.trans (engine_output_frame s sh hs).cbm
    | command u hu ht =>
      rw [ht]
      exact hu.memories.2

/-- A bus effect that writes a pixel is that of a pixel write outside ENCODING (R80). -/
theorem accessWrite_pixel {s : State} {a : Access} {x y : Nat} {v : Word} (h : accessWrite s a = .pixel x y v) :
    a = .write (.pixel x y) v ∧ s.state ≠ .encoding := by
  cases a with
  | none => cases h
  | read g =>
    simp only [accessWrite] at h
    split at h <;> cases h
  | write g v' =>
    cases g with
    | pixel x' y' =>
      simp only [accessWrite, busWrite] at h
      split at h
      · cases h
      · next hs =>
        cases h
        exact ⟨rfl, hs⟩
    | csr r =>
      simp only [accessWrite, busWrite] at h
      split at h
      · split at h <;> cases h
      · cases h
    | _ => cases h

/-- Only a pixel effect writes PIX (R48). -/
theorem applyBusWrite_pix (s : State) {w : BusWrite} (hw : ∀ x y v, w ≠ .pixel x y v) : (applyBusWrite s w).pix = s.pix := by
  cases w with
  | none => rfl
  | busErr => rfl
  | config c v => cases c <;> rfl
  | pixel x y v => exact absurd rfl (hw x y v)

/-- What a cycle that changes PIX presents: a pixel write outside ENCODING, whose effect on PIX is the change (R24). -/
def PixelWriteOnly (s t : State) : Prop :=
  t.pix ≠ s.pix →
    s.state ≠ .encoding ∧ s.now.rst = false ∧
      ∃ x y v, presented s.params s.now = .access (.write (.pixel x y) v) ∧ t.pix = (writePixel s x y (pixelOfWord v)).pix

/-- The engine and the commands leave PIX to the bus (R24, R48). -/
theorem step_pix {s t : State} (h : step s = .next t) : PixelWriteOnly s t := by
  refine step_shape (P := fun o => ∀ t, o = .next t → PixelWriteOnly s t) (fun _ t h => ?_) (fun a hr hp t h => ?_)
    (fun sh w r hw t h => ?_) (fun u hu t h => ?_) t h
  · obtain ⟨-, rfl⟩ := resetCycle_next_iff.mp h
    exact fun hne => absurd rfl hne
  · obtain ⟨-, -, rfl⟩ := engineCycle_next_iff.mp h
    have frame := engine_frame s false
    intro hne
    cases hw : accessWrite s a with
    | pixel x y v =>
      obtain ⟨rfl, hs⟩ := accessWrite_pixel hw
      refine ⟨hs, hr, x, y, v, hp, ?_⟩
      simp [applyBusWrite, writePixel, frame.pix, frame.params]
    | _ => exact absurd ((applyBusWrite_pix _ (by simp [hw])).trans frame.pix) hne
  · obtain ⟨-, -, rfl⟩ := engineCycle_next_iff.mp h
    exact fun hne => absurd ((applyBusWrite_pix _ (by rcases hw with rfl | rfl <;> nofun)).trans (engine_frame s sh).pix) hne
  · obtain ⟨-, rfl⟩ := commandCycle_next_iff.mp h
    exact fun hne => absurd hu.memories.1 hne

/-- Settles O49: CBM is the formatter's, and PIX the host's. -/
theorem memoriesAreWrittenOnlyWhereAllowed : Obligations.MemoriesAreWrittenOnlyWhereAllowed :=
  fun _ _ h => ⟨fun hs => step_cbm hs h, step_pix h⟩

end Sys2Proof.Machine
end

