-- ==== Sys2Proof/Proofs/Noninterference.lean ====
section
/-! The statements about what a step does not depend on: the abort lines where no abort is taken (60_exceptions.md R224), and the
contents of PIX outside ENCODING (20_memory.md R90, 70_reset_and_hazards.md R257). -/

namespace Sys2Proof.Machine

/-! ### The abort lines -/

/-- The transition of a STATE reads of the input ports only what the sink says (R163, R169). -/
theorem stateStep_withInput_of_sink {s : State} {i : PortIn} (he : i.sinkErr = s.now.sinkErr)
    (ho : i.outReady = s.now.outReady) (a : Bool) : stateStep (s.withInput i) a = (stateStep s a).withInput i := by
  cases hs : s.state with
  | txCol =>
    rw [stateStep_txCol hs, stateStep_txCol (by exact hs), txColStep, txColStep, columnDone_withInput, withInput_now, he, ho,
      withInput_txIdx, withInput_encH]
    split_ifs <;> rfl
  | txOff =>
    rw [stateStep_txOff hs, stateStep_txOff (by exact hs), txOffStep, txOffStep, withInput_now, he, ho, withInput_txIdx,
      withInput_maxLeds]
    split_ifs <;> rfl
  | _ => exact stateStep_withInput_of_noOutput (by simp [hs]) (by simp [hs]) i a

/-- Settles O55: with no abort taken for either ports, the engine does not see the lines. -/
theorem abortRequestsAreIgnoredWhereNoneIsTaken : Obligations.AbortRequestsAreIgnoredWhereNoneIsTaken := by
  intro s int term hup segv hs
  have hold : ∀ sh, abortTaken s sh = false := abortTaken_eq_false (by tauto)
  have hnew : ∀ sh, abortTaken (s.withInput { s.now with sigInt := int, sigTerm := term, sigHup := hup, sigSegv := segv }) sh =
      false := abortTaken_eq_false (by simp only [withInput_state, withInput_abortPend]; tauto)
  refine step_withInput ⟨fun sh => (hnew sh).trans (hold sh).symm, fun sh => ?_⟩ ⟨rfl, rfl, rfl, rfl, rfl⟩ fun _ _ _ _ _ => rfl
  rw [engine_of_no_abort (hnew sh), engine_of_no_abort (hold sh)]
  exact stateStep_withInput_of_sink (s := s)
    (i := { s.now with sigInt := int, sigTerm := term, sigHup := hup, sigSegv := segv }) rfl rfl false

/-! ### The engine and PIX -/

/-- The same state with other contents of PIX. -/
def State.withPix (s : State) (m : Memory) : State := { s with pix := m }

@[simp] theorem withPix_params (s : State) (m : Memory) : (s.withPix m).params = s.params := rfl
@[simp] theorem withPix_state (s : State) (m : Memory) : (s.withPix m).state = s.state := rfl
@[simp] theorem withPix_txIdx (s : State) (m : Memory) : (s.withPix m).txIdx = s.txIdx := rfl
@[simp] theorem withPix_encH (s : State) (m : Memory) : (s.withPix m).encH = s.encH := rfl
@[simp] theorem withPix_maxLeds (s : State) (m : Memory) : (s.withPix m).maxLeds = s.maxLeds := rfl
@[simp] theorem withPix_now (s : State) (m : Memory) : (s.withPix m).now = s.now := rfl
@[simp] theorem withPix_checkGeometry (s : State) (m : Memory) : checkGeometry (s.withPix m) = checkGeometry s := rfl

theorem advanceColumn_withPix (s : State) (m : Memory) : advanceColumn (s.withPix m) = (advanceColumn s).withPix m := by
  cases s
  dsimp only [State.withPix, advanceColumn, endOfIteration]
  split_ifs <;> rfl

theorem columnDone_withPix (s : State) (m : Memory) (a : Bool) : columnDone (s.withPix m) a = (columnDone s a).withPix m := by
  have hadvance := advanceColumn_withPix { s with txIdx := 0 } m
  cases s
  dsimp only [State.withPix, columnDone] at hadvance ⊢
  split_ifs
  · rfl
  · rfl
  · exact hadvance

theorem txColStep_withPix (s : State) (m : Memory) (a : Bool) : txColStep (s.withPix m) a = (txColStep s a).withPix m := by
  unfold txColStep
  rw [columnDone_withPix, withPix_now, withPix_txIdx, withPix_encH]
  split_ifs <;> rfl

theorem waitColStep_withPix (s : State) (m : Memory) : waitColStep (s.withPix m) = (waitColStep s).withPix m := by
  have hadvance := advanceColumn_withPix { s with waitLeft := 0 } m
  cases s
  dsimp only [State.withPix, waitColStep] at hadvance ⊢
  split_ifs
  · exact hadvance
  · rfl

theorem waitLoopStep_withPix (s : State) (m : Memory) : waitLoopStep (s.withPix m) = (waitLoopStep s).withPix m := by
  cases s
  dsimp only [State.withPix, waitLoopStep]
  split_ifs <;> rfl

theorem txOffStep_withPix (s : State) (m : Memory) : txOffStep (s.withPix m) = (txOffStep s).withPix m := by
  unfold txOffStep
  rw [withPix_now, withPix_txIdx, withPix_maxLeds]
  split_ifs <;> rfl

/-- Outside ENCODING no transition reads PIX (R90). -/
theorem stateStep_withPix {s : State} (hs : s.state ≠ .encoding) (m : Memory) (a : Bool) :
    stateStep (s.withPix m) a = (stateStep s a).withPix m := by
  unfold stateStep
  rw [txColStep_withPix, waitColStep_withPix, waitLoopStep_withPix, txOffStep_withPix, withPix_state]
  cases hq : s.state with
  | encoding => exact absurd hq hs
  | _ => cases a <;> rfl

theorem engine_withPix {s : State} (hs : s.state ≠ .encoding) (m : Memory) (sh : Bool) :
    engine (s.withPix m) sh = (engine s sh).withPix m := by
  have habort : abortTaken (s.withPix m) sh = abortTaken s sh := rfl
  unfold engine
  rw [habort, stateStep_withPix hs, stateStep_withPix hs]
  cases abortTaken s sh <;> rfl

/-! ### The cycle and PIX -/

/-- An engine cycle that writes no pixel answers alike, but for PIX (R257). -/
theorem engineCycle_withPix {s t : State} {sh : Bool} {w : BusWrite} {r : BusResp} (hs : s.state ≠ .encoding)
    (m : Memory) (h : engineCycle s sh w r = .next t) (hw : ∀ x y v, w ≠ .pixel x y v) :
    engineCycle (s.withPix m) sh w r = .next (t.withPix m) := by
  obtain ⟨hl, hf, rfl⟩ := engineCycle_next_iff.mp h
  refine engineCycle_next_iff.mpr ⟨hl, hf, ?_⟩
  rw [engine_withPix hs]
  cases w with
  | pixel x y v => exact absurd rfl (hw x y v)
  | config c v => cases c <;> rfl
  | none => rfl
  | busErr => rfl

theorem encodeEffect_withPix (s : State) (m : Memory) : encodeEffect (s.withPix m) = (encodeEffect s).withPix m := by
  unfold encodeEffect
  rw [withPix_checkGeometry]
  split_ifs <;> rfl

theorem startEffect_withPix (s : State) (m : Memory) : startEffect (s.withPix m) = (startEffect s).withPix m := by
  unfold startEffect
  rw [withPix_checkGeometry, withPix_now]
  split_ifs <;> rfl

theorem runEffect_withPix (s : State) (m : Memory) : runEffect (s.withPix m) = (runEffect s).withPix m := by
  unfold runEffect
  rw [withPix_now, withPix_maxLeds, withPix_params, withPix_encH]
  split_ifs <;> rfl

theorem acceptOrReject_withPix {s t u : State} {accept : Bool} (hs : s.state ≠ .encoding) (m : Memory)
    (h : (if accept then commandCycle s u else rejectCommand s) = .next t) :
    (if accept then commandCycle (s.withPix m) (u.withPix m) else rejectCommand (s.withPix m)) = .next (t.withPix m) := by
  cases accept with
  | false => exact engineCycle_withPix hs m h (fun _ _ _ => nofun)
  | true =>
    obtain ⟨hl, rfl⟩ := commandCycle_next_iff.mp h
    exact commandCycle_next_iff.mpr ⟨hl, rfl⟩

/-- Outside ENCODING no command reads PIX (R90). -/
theorem exec_withPix {s t : State} {i : Instr} (hs : s.state ≠ .encoding) (m : Memory) (h : exec i s = .next t) :
    exec i (s.withPix m) = .next (t.withPix m) := by
  cases i with
  | nop => exact engineCycle_withPix hs m h (fun _ _ _ => nofun)
  | shutdown => exact engineCycle_withPix hs m h (fun _ _ _ => nofun)
  | encode =>
    have := acceptOrReject_withPix hs m h
    rwa [← encodeEffect_withPix] at this
  | run =>
    have := acceptOrReject_withPix hs m h
    rwa [← runEffect_withPix] at this
  | start =>
    have := acceptOrReject_withPix hs m h
    rwa [← startEffect_withPix] at this
  | clear => exact acceptOrReject_withPix (u := clearTerminal s) hs m h

/-- An access outside the pixel window neither reads nor writes PIX (R80). -/
theorem accessCycle_withPix {s t : State} {a : Access} (hs : s.state ≠ .encoding) (hread : ∀ x y, a ≠ .read (.pixel x y))
    (hwrite : ∀ x y v, a ≠ .write (.pixel x y) v) (m : Memory) (h : accessCycle s a = .next t) :
    accessCycle (s.withPix m) a = .next (t.withPix m) := by
  have hno : ∀ x y v, accessWrite s a ≠ .pixel x y v := fun x y v e => hwrite x y v (accessWrite_pixel e).1
  have hbus : accessWrite (s.withPix m) a = accessWrite s a ∧ accessResp (s.withPix m) a = accessResp s a := by
    cases a with
    | none => exact ⟨rfl, rfl⟩
    | write g v => exact ⟨rfl, rfl⟩
    | read g =>
      have hword : busRead (s.withPix m) g = busRead s g := by
        cases g with
        | pixel x y => exact absurd rfl (hread x y)
        | csr r => cases r <;> rfl
        | _ => rfl
      simp only [accessWrite, accessResp, hword, and_self]
  obtain ⟨hw, hr⟩ := hbus
  rw [accessCycle, hw, hr]
  exact engineCycle_withPix hs m h hno

/-- Settles O50: neither the engine, nor a command, nor an access outside the pixel window reads PIX. -/
theorem pixelsDoNotReachTheStream : Obligations.PixelsDoNotReachTheStream := by
  intro s t m hs hread hwrite h
  refine ⟨?_, rfl⟩
  cases hr : s.now.rst with
  | true =>
    obtain ⟨hl, rfl⟩ := resetCycle_next_iff.mp ((step_reset hr).symm.trans h)
    exact (step_reset (s := s.withPix m) hr).trans (resetCycle_next_iff.mpr ⟨hl, rfl⟩)
  | false =>
    cases hp : presented s.params s.now with
    | access a =>
      rw [step_access hr hp] at h
      rw [hp] at hread hwrite
      exact (step_access (s := s.withPix m) hr hp).trans
        (accessCycle_withPix hs (fun x y e => hread x y (congrArg _ e)) (fun x y v e => hwrite x y v (congrArg _ e)) m h)
    | command w =>
      cases hd : decode w with
      | ok i =>
        rw [step_command hr hp hd] at h
        exact (step_command (s := s.withPix m) hr hp hd).trans (exec_withPix hs m h)
      | error e =>
        rw [step_of_decode_error hr hp hd] at h
        exact (step_of_decode_error (s := s.withPix m) hr hp hd).trans (engineCycle_withPix hs m h (fun _ _ _ => nofun))

end Sys2Proof.Machine
end

