-- ==== Sys2Proof/Proofs/StatusFlags.lean ====
section
/-! The statement about the flags of STATUS (10_state.md R45): what can happen to them in a cycle without reset is one of a few
events, and the rule's table is read off event by event. -/

namespace Sys2Proof.Machine

/-! ### The events -/

/-- An abort is taken in this cycle, from a line or from SHUTDOWN (R219). -/
def State.abortEvent (s : State) : Prop := abortTaken s (presentsShutdown s.params s.now) = true

/-- CLEAR is accepted in this cycle (R202). -/
def State.clearEvent (s : State) : Prop :=
  ∃ w, presented s.params s.now = .command w ∧ decode w = .ok .clear ∧ acceptsClear s = true

/-- An ENCODE (b = 0) or START (b = 1) that starts the formatter is accepted in this cycle (R140, R161). -/
def State.beginEvent (s : State) (b : Bool) : Prop :=
  ∃ w, presented s.params s.now = .command w ∧
    (decode w = .ok .encode ∧ acceptsEncode s = true ∧ b = false ∨ decode w = .ok .start ∧ acceptsStart s = true ∧ b = true)

/-- Everything a cycle without reset can do to the flags of STATUS but BUS_ERR, and when (R45). -/
inductive FlagEvent (s t : State) : Prop where
  | none : ¬s.abortEvent → SameFlags s t → FlagEvent s t
  | abort : s.abortEvent →
      SameFlags { s with abortPend := true, signal := abortCause s.now (presentsShutdown s.params s.now) } t → FlagEvent s t
  | encoded : ¬s.abortEvent → s.state = .encoding → s.encY = s.encH → s.encW.toNat ≤ s.encX.toNat + 1 →
      t.state = .idle ∨ t.state = .txCol → SameFlags { s with encoded := true } t → FlagEvent s t
  | error (c : ErrCode) : ¬s.abortEvent → s.state ≠ .error → t.state = .error →
      SameFlags { s with exitFlag := true, errCode := c } t → FlagEvent s t
  | done : ¬s.abortEvent → s.state = .txOff → t.state = .done →
      SameFlags { s with exitFlag := false, abortPend := false } t → FlagEvent s t
  | begin (b : Bool) : ¬s.abortEvent → s.beginEvent b → checkGeometry s = .none → t.state = .encoding →
      SameFlags { s with encoded := false, runAfterEnc := b } t → FlagEvent s t
  | clear : ¬s.abortEvent → s.clearEvent →
      SameFlags { s with abortPend := false, exitFlag := false, errCode := .none, signal := .none } t → FlagEvent s t

/-- The end of a cycle beside a bus effect writes none of these flags (R48). -/
theorem SameFlags.endCycle {s t : State} (h : SameFlags s t) (w : BusWrite) (o : PortOut) :
    SameFlags s ((applyBusWrite t w).tick o) := by
  have frame := applyBusWrite_frame t w
  exact ⟨frame.encoded.trans h.encoded, frame.abortPend.trans h.abortPend, frame.exitFlag.trans h.exitFlag,
    frame.errCode.trans h.errCode, frame.signal.trans h.signal, frame.runAfterEnc.trans h.runAfterEnc⟩

/-- The transition of a cycle that takes an abort writes no flag itself (R220 to R223). -/
theorem stateStep_abort_flags {s : State} (hs : s.state.abortable = true) (he : ¬(s.state = .txCol ∧ s.now.sinkErr = true)) :
    SameFlags s (stateStep s true) := by
  cases hst : s.state with
  | txCol =>
    have hok : s.now.sinkErr = false := by simpa [hst] using he
    rw [stateStep_txCol hst, txColStep, if_neg (by simp [hok])]
    split_ifs
    · exact ⟨rfl, rfl, rfl, rfl, rfl, rfl⟩
    · exact columnDone_flags s true
    · exact ⟨rfl, rfl, rfl, rfl, rfl, rfl⟩
  | txOff => simp [hst, SeqState.abortable] at hs
  | done => simp [hst, SeqState.abortable] at hs
  | error => simp [hst, SeqState.abortable] at hs
  | _ =>
    simp only [stateStep, hst, if_true]
    exact ⟨rfl, rfl, rfl, rfl, rfl, rfl⟩

/-- What an engine cycle does to the flags is no event, an abort, or an event of the transition of its STATE. -/
theorem engineCycle_flagEvent {s t : State} {w : BusWrite} {r : BusResp}
    (h : engineCycle s (presentsShutdown s.params s.now) w r = .next t) : FlagEvent s t := by
  obtain ⟨-, -, rfl⟩ := engineCycle_next_iff.mp h
  have hstate := (applyBusWrite_frame (engine s (presentsShutdown s.params s.now)) w).state
  cases ha : abortTaken s (presentsShutdown s.params s.now) with
  | true =>
    obtain ⟨-, habortable, -, hsink⟩ := (abortTaken_iff _ _).mp ha
    have hflags := stateStep_abort_flags habortable hsink
    refine .abort ha (SameFlags.endCycle ?_ w _)
    rw [engine_of_abort ha]
    exact ⟨hflags.encoded, rfl, hflags.exitFlag, hflags.errCode, rfl, hflags.runAfterEnc⟩
  | false =>
    have hno : ¬s.abortEvent := by simp [State.abortEvent, ha]
    rw [engine_of_no_abort ha] at hstate ⊢
    cases stateStep_flags s false with
    | same hf => exact .none hno (hf.endCycle w _)
    | encoded he hy hx ht hf => exact .encoded hno he hy hx (by rwa [tick_state, hstate]) (hf.endCycle w _)
    | error c hs ht =>
      refine .error c hno (by rcases hs with hs | hs <;> simp [hs]) (hstate.trans (by rw [ht]; rfl)) (SameFlags.endCycle ?_ w _)
      rw [ht]
      exact ⟨rfl, rfl, rfl, rfl, rfl, rfl⟩
    | done hs ht hf => exact .done hno hs (hstate.trans ht) (hf.endCycle w _)

/-- What an accepted command does to the flags is an event of its own (R45). -/
theorem commandCycle_flagEvent {s t u : State} {w : Word} {i : Instr} (hp : presented s.params s.now = .command w)
    (hd : decode w = .ok i) (hu : AcceptedEffect s u i) (h : commandCycle s u = .next t) : FlagEvent s t := by
  obtain ⟨-, rfl⟩ := commandCycle_next_iff.mp h
  have hnoAbort : abortTaken s false = false → i ≠ .shutdown → ¬s.abortEvent := fun ha hi => by
    have hsh : presentsShutdown s.params s.now = false := by
      simp only [presentsShutdown, hp, hd]
    simp [State.abortEvent, hsh, ha]
  have herror : ∀ c o, ¬s.abortEvent → s.state = .idle → FlagEvent s ((enterError s c).tick o) := fun c o hno hs =>
    .error c hno (by simp [hs]) rfl ⟨rfl, rfl, rfl, rfl, rfl, rfl⟩
  cases i with
  | nop => exact hu.elim
  | shutdown => exact hu.elim
  | encode =>
    obtain ⟨hacc, rfl⟩ := hu
    obtain ⟨hs, ha⟩ := (acceptsEncode_iff s).mp hacc
    have hno := hnoAbort ha nofun
    unfold encodeEffect
    split_ifs with hc
    · exact .begin false hno ⟨w, hp, .inl ⟨hd, hacc, rfl⟩⟩ hc rfl ⟨rfl, rfl, rfl, rfl, rfl, rfl⟩
    · exact herror _ _ hno hs
  | start =>
    obtain ⟨hacc, rfl⟩ := hu
    obtain ⟨hs, ha⟩ := (acceptsStart_iff s).mp hacc
    have hno := hnoAbort ha nofun
    unfold startEffect
    split_ifs with hsink hc
    · exact herror _ _ hno hs
    · exact .begin true hno ⟨w, hp, .inr ⟨hd, hacc, rfl⟩⟩ hc rfl ⟨rfl, rfl, rfl, rfl, rfl, rfl⟩
    · exact herror _ _ hno hs
  | run =>
    obtain ⟨hacc, rfl⟩ := hu
    obtain ⟨hs, -, ha⟩ := (acceptsRun_iff s).mp hacc
    have hno := hnoAbort ha nofun
    unfold runEffect
    split_ifs
    · exact herror _ _ hno hs
    · exact herror _ _ hno hs
    · exact herror _ _ hno hs
    · exact .none hno ⟨rfl, rfl, rfl, rfl, rfl, rfl⟩
  | clear =>
    obtain ⟨hacc, rfl⟩ := hu
    exact .clear (hnoAbort ((acceptsClear_iff s).mp hacc).2 nofun) ⟨w, hp, hd, hacc⟩ ⟨rfl, rfl, rfl, rfl, rfl, rfl⟩

theorem step_flagEvent {s t : State} (hr : s.now.rst = false) (h : step s = .next t) : FlagEvent s t := by
  rcases step_events hr h with ⟨w, r, -, hcycle⟩ | ⟨w, i, u, hp, hd, hu, hcycle⟩
  · exact engineCycle_flagEvent hcycle
  · exact commandCycle_flagEvent hp hd hu hcycle

/-! ### BUS_ERR -/

/-- A bus effect sets BUS_ERR or leaves it (R48). -/
theorem applyBusWrite_busErr (s : State) (w : BusWrite) :
    (applyBusWrite s w).busErr = (decide (w = .busErr) || s.busErr) := by
  cases w with
  | config c v => cases c <;> simp [applyBusWrite]
  | _ => simp [applyBusWrite]

/-- BUS_ERR is set exactly by an ERR response, and only CLEAR clears it (R77, R202). -/
theorem step_busErr {s t : State} (hr : s.now.rst = false) (h : step s = .next t) :
    t.busErr = (t.out.bus.err || s.busErr) ∨ s.clearEvent ∧ t.busErr = false ∧ t.out.bus.err = false := by
  rcases step_events hr h with ⟨w, r, hresp, hcycle⟩ | ⟨w, i, u, hp, hd, hu, hcycle⟩
  · left
    obtain ⟨-, -, rfl⟩ := engineCycle_next_iff.mp hcycle
    have herr : r.err = decide (w = .busErr) := Bool.eq_iff_iff.mpr (by simpa using hresp)
    rw [tick_busErr, applyBusWrite_busErr, (engine_frame s _).busErr, tick_out, herr]
  · obtain ⟨-, rfl⟩ := commandCycle_next_iff.mp hcycle
    cases i with
    | nop => exact hu.elim
    | shutdown => exact hu.elim
    | encode =>
      obtain ⟨-, rfl⟩ := hu
      left
      unfold encodeEffect
      split_ifs <;> rfl
    | run =>
      obtain ⟨-, rfl⟩ := hu
      left
      unfold runEffect
      split_ifs <;> rfl
    | start =>
      obtain ⟨-, rfl⟩ := hu
      left
      unfold startEffect
      split_ifs <;> rfl
    | clear =>
      obtain ⟨hacc, rfl⟩ := hu
      exact .inr ⟨⟨w, hp, hd, hacc⟩, rfl, rfl⟩

/-! ### The table -/

/-- The rule's table for the flags but BUS_ERR (R45). -/
structure FlagTable (s t : State) : Prop where
  encoded_set : s.encoded = false → t.encoded = true →
    s.state = .encoding ∧ s.encY = s.encH ∧ s.encW.toNat ≤ s.encX.toNat + 1 ∧ (t.state = .idle ∨ t.state = .txCol)
  encoded_cleared : s.encoded = true → t.encoded = false → t.state = .encoding ∧ checkGeometry s = .none ∧ ∃ b, s.beginEvent b
  abort_latched : s.abortEvent → t.abortPend = true ∧ t.signal = abortCause s.now (presentsShutdown s.params s.now)
  abortPend_set : s.abortPend = false → t.abortPend = true → s.abortEvent
  abortPend_cleared : s.abortPend = true → t.abortPend = false → (s.state = .txOff ∧ t.state = .done) ∨ s.clearEvent
  signal_changed : t.signal ≠ s.signal → s.abortEvent ∨ s.clearEvent
  exit_set : s.exitFlag = false → t.exitFlag = true → s.state ≠ .error ∧ t.state = .error
  exit_cleared : s.exitFlag = true → t.exitFlag = false → (s.state = .txOff ∧ t.state = .done) ∨ s.clearEvent
  errCode_changed : t.errCode ≠ s.errCode → (s.state ≠ .error ∧ t.state = .error) ∨ s.clearEvent
  runAfterEnc_changed : t.runAfterEnc ≠ s.runAfterEnc → t.state = .encoding ∧ s.beginEvent t.runAfterEnc

/-- Each event is one the table allows for the flags it writes. -/
theorem FlagEvent.table {s t : State} (h : FlagEvent s t) : FlagTable s t := by
  cases h with
  | none ha hf =>
    constructor <;> simp +contextual [ha, hf.encoded, hf.abortPend, hf.exitFlag, hf.errCode, hf.signal, hf.runAfterEnc]
  | abort ha hf =>
    constructor <;> simp +contextual [ha, hf.encoded, hf.abortPend, hf.exitFlag, hf.errCode, hf.signal, hf.runAfterEnc]
  | encoded ha hs hy hx ht hf =>
    constructor <;>
      simp +contextual [ha, hs, hy, hx, ht, hf.encoded, hf.abortPend, hf.exitFlag, hf.errCode, hf.signal, hf.runAfterEnc]
  | error c ha hs ht hf =>
    constructor <;>
      simp +contextual [ha, hs, ht, hf.encoded, hf.abortPend, hf.exitFlag, hf.errCode, hf.signal, hf.runAfterEnc]
  | done ha hs ht hf =>
    constructor <;>
      simp +contextual [ha, hs, ht, hf.encoded, hf.abortPend, hf.exitFlag, hf.errCode, hf.signal, hf.runAfterEnc]
  | begin b ha hb hc ht hf =>
    have hbegin : ∃ b, s.beginEvent b := ⟨b, hb⟩
    constructor <;>
      simp +contextual [ha, hb, hbegin, hc, ht, hf.encoded, hf.abortPend, hf.exitFlag, hf.errCode, hf.signal, hf.runAfterEnc]
  | clear ha hc hf =>
    constructor <;>
      simp +contextual [ha, hc, hf.encoded, hf.abortPend, hf.exitFlag, hf.errCode, hf.signal, hf.runAfterEnc]

/-- Settles O59: the table, with BUS_ERR beside it, and what an abort that is taken presupposes. -/
theorem statusFlagsChangeOnlyByTheirEvents : Obligations.StatusFlagsChangeOnlyByTheirEvents := by
  intro s t hr h
  have table := (step_flagEvent hr h).table
  have hbus := step_busErr hr h
  refine ⟨table.encoded_set, fun h1 h0 => ?_, fun ha => ?_, table.abortPend_set, table.abortPend_cleared,
    table.signal_changed, fun he => ?_, fun h0 h1 => ?_, fun h1 h0 => ?_, table.exit_set, table.exit_cleared,
    table.errCode_changed, fun hne => ?_⟩
  · obtain ⟨ht, hc, b, w, hp, hw⟩ := table.encoded_cleared h1 h0
    exact ⟨ht, hc, w, hp, hw.imp (fun ⟨hd, hacc, _⟩ => ⟨hd, hacc⟩) fun ⟨hd, hacc, _⟩ => ⟨hd, hacc⟩⟩
  · obtain ⟨hreq, habortable, hp, -⟩ := (abortTaken_iff _ _).mp ha
    obtain ⟨hpend, hsignal⟩ := table.abort_latched ha
    exact ⟨habortable, hp, hpend, hsignal, hsignal ▸ abortCause_ne_none hreq⟩
  · rcases hbus with hb | ⟨-, -, hok⟩
    · rw [hb, he, Bool.true_or]
    · cases hok.symm.trans he
  · rcases hbus with hb | ⟨-, hb, -⟩
    · simpa [h0, h1] using hb
    · cases hb.symm.trans h1
  · rcases hbus with hb | ⟨hclear, -⟩
    · simp [h0, h1] at hb
    · exact hclear
  · obtain ⟨ht, w, hp, hw⟩ := table.runAfterEnc_changed hne
    exact ⟨ht, w, hp, hw⟩

end Sys2Proof.Machine
end

