-- ==== Sys2Proof/Proofs/OutputRuns.lean ====
section
/-! Runs through the output states (42_sequencer.md R162 to R168): what the sink receives, what stays as it was, and one cycle of such
a run. -/

namespace Sys2Proof.Machine

/-! ### Runs -/

/-- Every cycle uses up one element of the input list (log entry 1). -/
theorem step_inputs {s t : State} (h : step s = .next t) : t.inputs = s.inputs.tail := by
  obtain ⟨-, ⟨-, rfl⟩ | ⟨-, heffect⟩⟩ := step_cases h
  · rfl
  · cases heffect with
    | engine sh w r _ _ ht =>
      rw [ht, tick_inputs, (applyBusWrite_frame _ w).inputs, (engine_frame s sh).inputs]
    | command u hu ht =>
      have hinputs : u.inputs = s.inputs := by
        cases hu with
        | encode => unfold encodeEffect; split_ifs <;> rfl
        | run => unfold runEffect; split_ifs <;> rfl
        | start => unfold startEffect; split_ifs <;> rfl
        | clear => rfl
      rw [ht, tick_inputs, hinputs]

theorem after_succ {n : Nat} {s t : State} (h : after (n + 1) s = some t) : ∃ u, step s = .next u ∧ after n u = some t := by
  simp only [after] at h
  split at h
  · next u hu => exact ⟨u, hu, h⟩
  · cases h
  · cases h

theorem after_inputs {n : Nat} {s t : State} (h : after n s = some t) : t.inputs = s.inputs.drop n := by
  induction n generalizing s with
  | zero =>
    cases h
    rfl
  | succ n ih =>
    obtain ⟨u, hu, hafter⟩ := after_succ h
    rw [ih hafter, step_inputs hu, ← List.drop_one, List.drop_drop, Nat.add_comm]

/-- Every run keeps the invariant. -/
theorem after_inv {n : Nat} {s t : State} (hi : s.Inv) (h : after n s = some t) : t.Inv := by
  induction n generalizing s with
  | zero =>
    cases h
    exact hi
  | succ n ih =>
    obtain ⟨u, hu, hafter⟩ := after_succ h
    exact ih (stepKeepsTheInvariant s u hi hu) hafter

/-- What no output state writes: the configuration, the encoding's registers and CBM. -/
structure SameImage (s t : State) : Prop where
  config : SameConfig s t
  encoding : SameEncoding s t
  cbm : t.cbm = s.cbm

theorem SameImage.refl (s : State) : SameImage s s := ⟨(EngineFrame.refl s).sameConfig, (OutputFrame.refl s).sameEncoding, rfl⟩

theorem SameImage.trans {s t u : State} (h : SameImage s t) (k : SameImage t u) : SameImage s u :=
  ⟨h.config.trans k.config, h.encoding.trans k.encoding, k.cbm.trans h.cbm⟩

/-- In n cycles from s, which keep the image and are not in DONE before their end, the sink receives bs, and t is reached. -/
structure Sends (s : State) (n : Nat) (bs : List (Byte × Bool)) (t : State) : Prop where
  after : after n s = some t
  received : received n s = bs
  busy : ∀ k < n, ∃ u, Machine.after k s = some u ∧ u.state ≠ .done
  image : SameImage s t

theorem Sends.refl (s : State) : Sends s 0 [] s := ⟨rfl, rfl, fun _ h => absurd h (Nat.not_lt_zero _), .refl s⟩

theorem Sends.trans {s t u : State} {m n : Nat} {bs cs : List (Byte × Bool)} (h : Sends s m bs t) (k : Sends t n cs u) :
    Sends s (m + n) (bs ++ cs) u where
  after := (after_add m n h.after).trans k.after
  received := by rw [received_add m n h.after, h.received, k.received]
  busy j hj := by
    rcases Nat.lt_or_ge j m with hlt | hge
    · exact h.busy j hlt
    · obtain ⟨v, hv, hne⟩ := k.busy (j - m) (by omega)
      refine ⟨v, ?_, hne⟩
      rw [← hv, ← after_add m (j - m) h.after, Nat.add_sub_cancel' hge]
  image := h.image.trans k.image

theorem Sends.inv {s t : State} {n : Nat} {bs : List (Byte × Bool)} (h : Sends s n bs t) (hi : s.Inv) : t.Inv :=
  after_inv hi h.after

/-- What the sink receives in one cycle (R162). -/
def State.offer (s : State) : List (Byte × Bool) := if handshake s then [((streamOut s).data, (streamOut s).last)] else []

theorem Sends.of_step {s t : State} (h : step s = .next t) (hs : s.state ≠ .done) (hk : SameImage s t) :
    Sends s 1 s.offer t where
  after := by simp [Machine.after, h]
  received := by simp [Machine.received, h, State.offer]
  busy k hk := ⟨s, by rw [Nat.lt_one_iff.mp hk]; rfl, hs⟩
  image := hk

/-! ### The input ports of a run -/

/-- The input ports of the next n cycles are listed, and each satisfies P. -/
def State.Brings (s : State) (n : Nat) (P : Params → PortIn → Prop) : Prop :=
  n ≤ s.inputs.length ∧ ∀ i ∈ s.inputs.take n, P s.params i

theorem State.Brings.mono {s : State} {m n : Nat} {P : Params → PortIn → Prop} (h : s.Brings n P) (hmn : m ≤ n) : s.Brings m P :=
  ⟨hmn.trans h.1, fun i hi => h.2 i (List.take_subset_take_left _ hmn hi)⟩

theorem State.Brings.now {s : State} {n : Nat} {P : Params → PortIn → Prop} (h : s.Brings n P) (hn : 0 < n) : P s.params s.now :=
  h.2 _ (now_mem_take (n := 0) rfl hn h.1)

/-- What a run leaves of the input ports it was promised. -/
theorem State.Brings.rest {s t : State} {m n : Nat} {bs : List (Byte × Bool)} {P : Params → PortIn → Prop}
    (h : s.Brings (m + n) P) (hrun : Sends s m bs t) : t.Brings n P := by
  have hinputs := after_inputs hrun.after
  obtain ⟨hlen, hall⟩ := h
  refine ⟨by rw [hinputs, List.length_drop]; omega, fun i hi => ?_⟩
  rw [hrun.image.config.params]
  refine hall i ?_
  rw [hinputs, List.take_drop] at hi
  exact List.mem_of_mem_drop hi

/-! ### One cycle -/

/-- The position and the abort record are those of v. -/
structure SameMove (v t : State) : Prop where
  state : t.state = v.state
  iter : t.iter = v.iter
  curCol : t.curCol = v.curCol
  txIdx : t.txIdx = v.txIdx
  waitLeft : t.waitLeft = v.waitLeft
  abortPend : t.abortPend = v.abortPend
  signal : t.signal = v.signal

/-- A cycle of an output state without reset moves as the engine does, whatever the host presents (R47, R48, R254). -/
theorem output_cycle {s : State} (hi : s.Inv) (hs : s.state.output) (hr : s.now.rst = false) :
    ∃ t, Sends s 1 s.offer t ∧ SameMove (engine s (presentsShutdown s.params s.now)) t := by
  have hne : s.state ≠ .encoding ∧ s.state ≠ .done ∧ s.state.quiescent = false := by
    rcases hs with hs | hs | hs <;> rw [hs] <;> decide
  obtain ⟨hencoding, hdone, hbusy⟩ := hne
  obtain ⟨w, r, -, hconfig, hstep⟩ := busy_step hi hr hbusy
  have hengine := engine_output_frame s (presentsShutdown s.params s.now) hencoding
  have hbus := applyBusWrite_frame (engine s (presentsShutdown s.params s.now)) w
  have himage : SameImage s (applyBusWrite (engine s (presentsShutdown s.params s.now)) w) :=
    ⟨hengine.sameConfig.trans (applyBusWrite_sameConfig _ hconfig), hengine.sameEncoding.trans hbus.sameEncoding,
      hbus.cbm.trans hengine.cbm⟩
  exact ⟨_, .of_step hstep hdone ⟨{ himage.config with }, { himage.encoding with }, himage.cbm⟩,
    ⟨hbus.state, hbus.iter, hbus.curCol, hbus.txIdx, hbus.waitLeft, hbus.abortPend, hbus.signal⟩⟩

/-! ### The bytes of a column -/

/-- A ready sink has `out_ready` and no failure. -/
theorem sinkReady_iff (i : PortIn) : sinkReady i = true ↔ i.outReady = true ∧ i.sinkErr = false := by
  simp [sinkReady]

/-- In TX_COL a sink that takes every byte receives byte TX_IDX of column CUR_COL (R162, R163). -/
theorem offer_txCol {s : State} (hs : s.state = .txCol) (hr : s.now.rst = false) (hk : sinkReady s.now = true) :
    s.offer = [(readColumn s s.curCol.toNat s.txIdx.toNat, decide (s.txIdx.toNat = 3 * s.encH.toNat))] := by
  obtain ⟨ho, he⟩ := (sinkReady_iff _).mp hk
  have hstream : streamOut s =
      { valid := true, data := readColumn s s.curCol.toNat s.txIdx.toNat,
        last := decide (s.txIdx.toNat = 3 * s.encH.toNat) } := by simp [streamOut, hs]
  have hh : handshake s = true := by simp [handshake, hstream, ho, he, hr]
  simp [State.offer, hh, hstream]

/-- In a delay the sink receives nothing (R162). -/
theorem offer_wait {s : State} (hs : s.state = .waitCol ∨ s.state = .waitLoop) : s.offer = [] := by
  simp [State.offer, handshake, streamOut_wait hs, silentStream]

theorem readColumn_of_sameImage {s t : State} (h : SameImage s t) (x k : Nat) : readColumn t x k = readColumn s x k := by
  rw [readColumn, readColumn, h.cbm, h.config.params]

/-- The stream of a column depends on the image alone (R146). -/
theorem columnStream_of_sameImage {s t : State} (h : SameImage s t) (x : Nat) : columnStream t x = columnStream s x := by
  simp only [columnStream, h.encoding.encH, readColumn_of_sameImage h]

/-- Byte k of a column's stream, and the bytes behind it (R146). -/
theorem columnStream_drop (s : State) (x : Nat) {k : Nat} (hk : k ≤ 3 * s.encH.toNat) :
    (columnStream s x).drop k = (readColumn s x k, decide (k = 3 * s.encH.toNat)) :: (columnStream s x).drop (k + 1) := by
  have hlt : k < (columnStream s x).length := by simpa [columnStream] using hk
  rw [List.drop_eq_getElem_cons hlt]
  simp [columnStream]

theorem columnStream_drop_all (s : State) (x : Nat) {k : Nat} (hk : 3 * s.encH.toNat < k) : (columnStream s x).drop k = [] :=
  List.drop_eq_nil_of_le (by simpa [columnStream] using hk)

/-- The index of the byte after one that is not the last. -/
theorem nextIdx_toNat {s : State} (h : s.txIdx.toNat < 3 * s.encH.toNat) : (s.txIdx + 1).toNat = s.txIdx.toNat + 1 := by
  have := s.encH.isLt
  bv_omega

end Sys2Proof.Machine
end

