-- ==== Sys2Proof/Proofs/AbortedColumn.lean ====
section
/-! The statement about an abort in TX_COL (60_exceptions.md R222, 42_sequencer.md R164, R170): an induction over the bytes that are
left of the column, and then the off buffer. -/

namespace Sys2Proof.Machine

/-- An abort is pending, or taken in this cycle (R164, R219). -/
def State.Aborting (s : State) : Prop := s.abortPend = true ∨ abortTaken s (presentsShutdown s.params s.now) = true

/-- The cause that such an abort leaves in SIGNAL: one that is pending keeps its own (R217, R219). -/
def State.abortSignal (s : State) : AbortCause :=
  if s.abortPend then s.signal else abortCause s.now (presentsShutdown s.params s.now)

/-- With an abort in TX_COL the engine takes the state's step v, with the abort latched (R219, R222). -/
theorem engine_aborting {s v : State} (hs : s.state = .txCol) (hab : s.Aborting)
    (hv : ∀ a, s.abortPend = true ∨ a = true → txColStep s a = v) (hp : v.abortPend = s.abortPend) (hsig : v.signal = s.signal) :
    engine s (presentsShutdown s.params s.now) = { v with abortPend := true, signal := s.abortSignal } := by
  cases hpend : s.abortPend with
  | true =>
    have hlatched : v = { v with abortPend := true, signal := s.signal } := by rw [← hsig, ← hpend, ← hp]
    rw [engine_of_no_abort (by simp [abortTaken, hpend]), stateStep_txCol hs, hv false (.inl hpend), State.abortSignal,
      if_pos hpend]
    exact hlatched
  | false =>
    have ha : abortTaken s (presentsShutdown s.params s.now) = true := hab.resolve_left (by simp [hpend])
    rw [engine_of_abort ha, stateStep_txCol hs, hv true (.inr rfl), State.abortSignal, if_neg (by simp [hpend])]
    rfl

/-- In n more cycles the aborted column that stands in s is sent, and t stands at the first byte of the off buffer (R164, R222). -/
structure AbortedColumnSent (s : State) (n : Nat) (t : State) : Prop where
  sends : Sends s n ((columnStream s s.curCol.toNat).drop s.txIdx.toNat) t
  txOff : t.state = .txOff
  txIdx : t.txIdx = 0
  iter : t.iter = s.iter
  curCol : t.curCol = s.curCol
  signal : t.signal = s.abortSignal

/-- The promise that no cycle resets and that the sink takes every byte. -/
def TakesEveryByte (_ : Params) (i : PortIn) : Prop := i.rst = false ∧ sinkReady i = true

/-- The last byte of an aborted column is followed by the off buffer (R164). -/
theorem abortedColumn_last {s : State} (hi : s.Inv) (hs : s.state = .txCol) (hab : s.Aborting)
    (hnow : TakesEveryByte s.params s.now) (hidx : s.txIdx.toNat = 3 * s.encH.toNat) : ∃ t, AbortedColumnSent s 1 t := by
  obtain ⟨hr, hk⟩ := hnow
  obtain ⟨ho, he⟩ := (sinkReady_iff _).mp hk
  obtain ⟨t, hsend, hmove⟩ := output_cycle hi (.inl hs) hr
  rw [engine_aborting hs hab (fun a ha => (txColStep_last he ho hidx a).trans (columnDone_abort ha)) rfl rfl] at hmove
  rw [offer_txCol hs hr hk, ← columnStream_drop_all s s.curCol.toNat (Nat.lt_succ_of_le hidx.ge),
    ← columnStream_drop s s.curCol.toNat hidx.le] at hsend
  exact ⟨t, hsend, hmove.state, hmove.txIdx, hmove.iter, hmove.curCol, hmove.signal⟩

/-- The rest of an aborted column, by induction on the bytes behind the one offered (R222). -/
theorem abortedColumn_rest (n : Nat) {s : State} (hi : s.Inv) (hs : s.state = .txCol) (hab : s.Aborting)
    (hb : s.Brings (n + 1) TakesEveryByte) (hidx : s.txIdx.toNat + n = 3 * s.encH.toNat) :
    ∃ t, AbortedColumnSent s (n + 1) t := by
  induction n generalizing s with
  | zero => exact abortedColumn_last hi hs hab (hb.now Nat.one_pos) hidx
  | succ n ih =>
    have hlt : s.txIdx.toNat < 3 * s.encH.toNat := by omega
    obtain ⟨hr, hk⟩ := hb.now (Nat.succ_pos _)
    obtain ⟨ho, he⟩ := (sinkReady_iff _).mp hk
    obtain ⟨u, hsend, hmove⟩ := output_cycle hi (.inl hs) hr
    rw [engine_aborting hs hab (fun a _ => txColStep_next he ho hlt a) rfl rfl] at hmove
    have hnext : u.txIdx.toNat = s.txIdx.toNat + 1 := (congrArg BitVec.toNat hmove.txIdx).trans (nextIdx_toNat hlt)
    rw [Nat.add_comm] at hb
    obtain ⟨t, ht⟩ := ih (hsend.inv hi) (hmove.state.trans hs) (.inl hmove.abortPend) (hb.rest hsend)
      (by rw [hnext, hsend.image.encoding.encH]; omega)
    have hsignal : u.abortSignal = s.abortSignal := (if_pos hmove.abortPend).trans hmove.signal
    have hcolumn := hsend.trans ht.sends
    rw [offer_txCol hs hr hk, hmove.curCol, hnext, columnStream_of_sameImage hsend.image, List.singleton_append,
      ← columnStream_drop s s.curCol.toNat hlt.le, Nat.add_comm] at hcolumn
    exact ⟨t, hcolumn, ht.txOff, ht.txIdx, ht.iter.trans hmove.iter, ht.curCol.trans hmove.curCol, ht.signal.trans hsignal⟩

/-- Settles O54: the rest of the column, and then the off buffer of O45. -/
theorem abortInAColumnFinishesItThenSendsOneOffBuffer : Obligations.AbortInAColumnFinishesItThenSendsOneOffBuffer := by
  intro s hi hs hab hlen hall
  have hb : s.Brings (3 * s.encH.toNat + 1 - s.txIdx.toNat + (3 * s.maxLeds.toNat + 3)) TakesEveryByte := ⟨hlen, hall⟩
  have hidx := hi.column_byte hs
  obtain ⟨n, hn⟩ : ∃ n, 3 * s.encH.toNat + 1 - s.txIdx.toNat = n + 1 := ⟨3 * s.encH.toNat - s.txIdx.toNat, by omega⟩
  rw [hn] at hb ⊢
  obtain ⟨u, hu⟩ := abortedColumn_rest n hi hs hab (hb.mono (Nat.le_add_right _ _)) (by omega)
  have hoff := hb.rest hu.sends
  rw [← hu.sends.image.config.maxLeds] at hoff ⊢
  obtain ⟨hrecv, t, hafter, hdone, hexit, hpend, hiter, hcol, hsignal, -⟩ :=
    offBufferIsSentWhole u (hu.sends.inv hi) hu.txOff hu.txIdx hoff.1 hoff.2
  refine ⟨?_, t, (after_add _ _ hu.sends.after).trans hafter, hdone, hexit, hpend, hiter.trans hu.iter, hcol.trans hu.curCol,
    hsignal.trans hu.signal⟩
  rw [received_add _ _ hu.sends.after, hu.sends.received, hrecv]

end Sys2Proof.Machine
end

