-- ==== Sys2Proof/Proofs/BoundedRun.lean ====
section
/-! The statement about a bounded run (42_sequencer.md R172, R174, R175). A column is its bytes and its delay; an iteration is an
induction over its columns; the run is an induction over its iterations, and then the off buffer. -/

namespace Sys2Proof.Machine

/-- The promise of R174: no reset, no abort request, and a sink that takes every byte. -/
def Unhindered (p : Params) (i : PortIn) : Prop := undisturbed p i = true ∧ sinkReady i = true

theorem Unhindered.requests {p : Params} {i : PortIn} (h : Unhindered p i) :
    i.rst = false ∧ abortReq i (presentsShutdown p i) = false := by
  simpa [undisturbed] using h.1

/-! ### One cycle -/

/-- An unhindered cycle of an output state with no abort pending is the transition of its STATE (R47). -/
theorem unhindered_cycle {s : State} (hi : s.Inv) (hs : s.state.output) (hu : Unhindered s.params s.now) :
    ∃ t, Sends s 1 s.offer t ∧ SameMove (stateStep s false) t := by
  obtain ⟨hr, hreq⟩ := hu.requests
  obtain ⟨t, hsend, hmove⟩ := output_cycle hi hs hr
  rw [engine_of_no_abort (by rw [abortTaken, hreq]; rfl)] at hmove
  exact ⟨t, hsend, hmove⟩

/-- An unhindered TX_COL cycle sends byte TX_IDX of the column and takes the state's step (R163). -/
theorem unhindered_txCol {s : State} (hi : s.Inv) (hs : s.state = .txCol) (hu : Unhindered s.params s.now) :
    ∃ t, Sends s 1 [(readColumn s s.curCol.toNat s.txIdx.toNat, decide (s.txIdx.toNat = 3 * s.encH.toNat))] t ∧
      SameMove (txColStep s false) t := by
  obtain ⟨t, hsend, hmove⟩ := unhindered_cycle hi (.inl hs) hu
  rw [offer_txCol hs hu.requests.1 hu.2] at hsend
  rw [stateStep_txCol hs] at hmove
  exact ⟨t, hsend, hmove⟩

/-! ### The place of a run -/

/-- State t stands in STATE q in iteration i (from 0) at column c, with no abort pending. -/
structure Place (q : SeqState) (c i : Nat) (t : State) : Prop where
  state : t.state = q
  curCol : t.curCol.toNat = c
  iter : t.iter.toNat = i
  abortPend : t.abortPend = false

/-- A move to a state of the same place. -/
theorem SameMove.place {v t : State} {q : SeqState} {c i : Nat} (h : SameMove v t) (hv : Place q c i v) : Place q c i t :=
  ⟨h.state.trans hv.state, h.curCol ▸ hv.curCol, h.iter ▸ hv.iter, h.abortPend.trans hv.abortPend⟩

/-- The first byte of column c. -/
structure AtColumn (c i : Nat) (t : State) : Prop extends Place .txCol c i t where
  txIdx : t.txIdx = 0

/-- The cycles of a delay of d ticks (R44). -/
def State.delay (s : State) (d : Word) : Nat := d.toNat * s.params.pTickCycles

/-! ### A column and its delay -/

/-- The bytes before the last of a column, by induction on their number (R163). -/
theorem column_bytes (n : Nat) {s : State} {c i : Nat} (hi : s.Inv) (hs : Place .txCol c i s) (hb : s.Brings n Unhindered)
    (hidx : s.txIdx.toNat + n = 3 * s.encH.toNat) :
    ∃ t, Sends s n (((columnStream s c).drop s.txIdx.toNat).take n) t ∧ Place .txCol c i t ∧
      t.txIdx.toNat = 3 * s.encH.toNat := by
  induction n generalizing s with
  | zero => exact ⟨s, .refl s, hs, hidx⟩
  | succ n ih =>
    have hlt : s.txIdx.toNat < 3 * s.encH.toNat := by omega
    have hu := hb.now (Nat.succ_pos n)
    obtain ⟨ho, he⟩ := (sinkReady_iff _).mp hu.2
    obtain ⟨u, hsend, hmove⟩ := unhindered_txCol hi hs.state hu
    rw [txColStep_next he ho hlt] at hmove
    have hnext : u.txIdx.toNat = s.txIdx.toNat + 1 := (congrArg BitVec.toNat hmove.txIdx).trans (nextIdx_toNat hlt)
    rw [Nat.add_comm] at hb
    obtain ⟨t, ht, hplace, hlast⟩ := ih (hsend.inv hi) (hmove.place ⟨hs.state, hs.curCol, hs.iter, hs.abortPend⟩) (hb.rest hsend)
      (by rw [hnext, hsend.image.encoding.encH]; omega)
    have hcolumn := hsend.trans ht
    rw [hnext, columnStream_of_sameImage hsend.image, List.singleton_append, ← List.take_succ_cons, hs.curCol,
      ← columnStream_drop s c hlt.le, Nat.add_comm] at hcolumn
    exact ⟨t, hcolumn, hplace, hlast.trans (by rw [hsend.image.encoding.encH])⟩

/-- A delay down to its last cycle (R165, R168). -/
theorem delay_countdown (d : Nat) {s : State} {q : SeqState} {c i : Nat} (hi : s.Inv) (hq : q = .waitCol ∨ q = .waitLoop)
    (hs : Place q c i s) (hb : s.Brings d Unhindered) (hleft : s.waitLeft.toNat = d + 1) :
    ∃ t, Sends s d [] t ∧ Place q c i t ∧ t.waitLeft.toNat = 1 := by
  induction d generalizing s with
  | zero => exact ⟨s, .refl s, hs, hleft⟩
  | succ d ih =>
    have hwait : s.state = .waitCol ∨ s.state = .waitLoop := by rwa [hs.state]
    obtain ⟨u, hsend, hmove⟩ := unhindered_cycle hi (.inr hwait) (hb.now (Nat.succ_pos d))
    have hcount : stateStep s false = { s with waitLeft := s.waitLeft - 1 } := by
      rcases hwait with h | h
      · rw [stateStep_waitCol h, waitColStep_count (by omega)]
      · rw [stateStep_waitLoop h, waitLoopStep_count (by omega)]
    rw [hcount] at hmove
    rw [offer_wait hwait] at hsend
    have hless : u.waitLeft.toNat = d + 1 := by
      rw [hmove.waitLeft]
      bv_omega
    rw [Nat.add_comm] at hb
    obtain ⟨t, ht, hplace, hone⟩ := ih (hsend.inv hi) (hmove.place ⟨hs.state, hs.curCol, hs.iter, hs.abortPend⟩) (hb.rest hsend) hless
    exact ⟨t, Nat.add_comm 1 d ▸ hsend.trans ht, hplace, hone⟩

/-- A whole column delay ends in `advance` (R165, R166). -/
theorem columnDelay_run {s : State} {c i d : Nat} (hi : s.Inv) (hs : Place .waitCol c i s) (hb : s.Brings d Unhindered)
    (hleft : s.waitLeft.toNat = d) :
    ∃ v t, Sends s d [] t ∧ SameMove (advanceColumn v) t ∧ SameImage s v ∧ Place .waitCol c i v := by
  obtain ⟨k, rfl⟩ : ∃ k, d = k + 1 := ⟨d - 1, by have := hi.delay_left (.inl hs.state); omega⟩
  obtain ⟨u, hcount, hplace, hone⟩ := delay_countdown k hi (.inl rfl) hs (hb.mono (Nat.le_succ k)) hleft
  obtain ⟨t, hsend, hmove⟩ := unhindered_cycle (hcount.inv hi) (.inr (.inl hplace.state)) ((hb.rest hcount).now Nat.one_pos)
  rw [offer_wait (.inl hplace.state)] at hsend
  rw [stateStep_waitCol hplace.state, waitColStep_end hone] at hmove
  exact ⟨_, t, hcount.trans hsend, hmove, ⟨{ hcount.image.config with }, { hcount.image.encoding with }, hcount.image.cbm⟩,
    ⟨hplace.state, hplace.curCol, hplace.iter, hplace.abortPend⟩⟩

/-- A whole loop delay ends at column 0 (R168). -/
theorem loopDelay_run {s : State} {c i d : Nat} (hi : s.Inv) (hs : Place .waitLoop c i s) (hb : s.Brings d Unhindered)
    (hleft : s.waitLeft.toNat = d) : ∃ t, Sends s d [] t ∧ AtColumn 0 i t := by
  obtain ⟨k, rfl⟩ : ∃ k, d = k + 1 := ⟨d - 1, by have := hi.delay_left (.inr hs.state); omega⟩
  obtain ⟨u, hcount, hplace, hone⟩ := delay_countdown k hi (.inr rfl) hs (hb.mono (Nat.le_succ k)) hleft
  obtain ⟨t, hsend, hmove⟩ := unhindered_cycle (hcount.inv hi) (.inr (.inr hplace.state)) ((hb.rest hcount).now Nat.one_pos)
  rw [offer_wait (.inr hplace.state)] at hsend
  rw [stateStep_waitLoop hplace.state, waitLoopStep_end hone] at hmove
  exact ⟨t, hcount.trans hsend, hmove.place ⟨rfl, rfl, hplace.iter, hplace.abortPend⟩, hmove.txIdx⟩

/-- The cycles of a column with its delay (R174). -/
def State.columnCycles (s : State) : Nat := 3 * s.encH.toNat + 1 + s.delay s.colDelay

/-- A column's stream is the bytes before its last, and its last (R146). -/
theorem columnStream_eq (s : State) (x : Nat) :
    (columnStream s x).take (3 * s.encH.toNat) ++ [(readColumn s x (3 * s.encH.toNat), true)] = columnStream s x := by
  have hlast := columnStream_drop s x le_rfl
  rw [columnStream_drop_all s x (Nat.lt_succ_self _), decide_eq_true rfl] at hlast
  rw [← hlast, List.take_append_drop]

/-- The bytes of a column end in `column_done` (R163, R164). -/
theorem column_sent {s : State} {c i : Nat} (hi : s.Inv) (hs : AtColumn c i s)
    (hb : s.Brings (3 * s.encH.toNat + 1) Unhindered) :
    ∃ u t, Sends s (3 * s.encH.toNat + 1) (columnStream s c) t ∧ SameMove (columnDone u false) t ∧ SameImage s u ∧
      Place .txCol c i u := by
  have hfirst : s.txIdx.toNat = 0 := by rw [hs.txIdx]; rfl
  obtain ⟨u, hbytes, hplace, hlast⟩ := column_bytes (3 * s.encH.toNat) hi hs.toPlace (hb.mono (Nat.le_succ _)) (by omega)
  have hH := hbytes.image.encoding.encH
  have hlast' : u.txIdx.toNat = 3 * u.encH.toNat := hlast.trans (by rw [hH])
  have hu := (hb.rest hbytes).now Nat.one_pos
  obtain ⟨ho, he⟩ := (sinkReady_iff _).mp hu.2
  obtain ⟨t, hend, hmove⟩ := unhindered_txCol (hbytes.inv hi) hplace.state hu
  rw [txColStep_last he ho hlast'] at hmove
  have hstream := hbytes.trans hend
  rw [hfirst, List.drop_zero, hplace.curCol, hlast, hH, decide_eq_true rfl, readColumn_of_sameImage hbytes.image,
    columnStream_eq] at hstream
  exact ⟨u, t, hstream, hmove, hbytes.image, hplace⟩

/-- A column and its delay end in `advance` (R164 to R166). -/
theorem column_run {s : State} {c i : Nat} (hi : s.Inv) (hs : AtColumn c i s) (hb : s.Brings s.columnCycles Unhindered) :
    ∃ q v t, Sends s s.columnCycles (columnStream s c) t ∧ SameMove (advanceColumn v) t ∧ SameImage s v ∧ Place q c i v := by
  unfold State.columnCycles at hb ⊢
  obtain ⟨u, w, hsent, hmove, himage, hplace⟩ := column_sent hi hs (hb.mono (Nat.le_add_right _ _))
  rcases Nat.eq_zero_or_pos s.colDelay.toNat with hzero | hpos
  · have hnone : s.delay s.colDelay = 0 := by rw [State.delay, hzero, Nat.zero_mul]
    rw [columnDone_advance hplace.abortPend (by rwa [himage.config.colDelay])] at hmove
    rw [hnone]
    exact ⟨.txCol, _, w, hsent, hmove, ⟨{ himage.config with }, { himage.encoding with }, himage.cbm⟩,
      ⟨hplace.state, hplace.curCol, hplace.iter, hplace.abortPend⟩⟩
  · rw [columnDone_delay hplace.abortPend (by rwa [himage.config.colDelay])] at hmove
    have hleft : w.waitLeft.toNat = s.delay s.colDelay := by
      rw [hmove.waitLeft]
      simp only [delayCycles, himage.config.colDelay, himage.config.params]
      exact (delayCycles_toNat hi.params_legal hpos).1
    obtain ⟨v, t, hdelay, hadvance, himage', hplace'⟩ :=
      columnDelay_run (hsent.inv hi) (hmove.place ⟨rfl, hplace.curCol, hplace.iter, hplace.abortPend⟩) (hb.rest hsent) hleft
    have hrun := hsent.trans hdelay
    rw [List.append_nil] at hrun
    exact ⟨_, v, t, hrun, hadvance, hsent.image.trans himage', hplace'⟩

/-! ### An iteration -/

theorem columnsFrom_of_sameImage {s t : State} (h : SameImage s t) (first : Nat) : columnsFrom t first = columnsFrom s first := by
  simp only [columnsFrom, h.encoding.encW, columnStream_of_sameImage h]

theorem columnCycles_of_sameImage {s t : State} (h : SameImage s t) : t.columnCycles = s.columnCycles := by
  simp only [State.columnCycles, State.delay, h.encoding.encH, h.config.colDelay, h.config.params]

/-- The columns from one on are it and those behind it (R175). -/
theorem columnsFrom_cons (s : State) {c : Nat} (h : c < s.encW.toNat) :
    columnsFrom s c = columnStream s c ++ columnsFrom s (c + 1) := by
  obtain ⟨k, hk⟩ : ∃ k, s.encW.toNat - c = k + 1 := ⟨s.encW.toNat - c - 1, by omega⟩
  have hk' : s.encW.toNat - (c + 1) = k := by omega
  simp only [columnsFrom, hk, hk', List.range_succ_eq_map, List.map_cons, List.map_map, List.flatten_cons, Nat.add_zero]
  congr 3
  funext j
  simp only [Function.comp_apply, Nat.succ_eq_add_one]
  congr 1
  omega

theorem columnsFrom_end (s : State) {c : Nat} (h : s.encW.toNat ≤ c) : columnsFrom s c = [] := by
  simp [columnsFrom, Nat.sub_eq_zero_of_le h]

/-- `advance` before the last column goes to the next one (R166). -/
theorem Place.nextColumn {q : SeqState} {v t : State} {c i : Nat} (hv : Place q c i v) (h : SameMove (advanceColumn v) t)
    (hc : c + 1 < v.encW.toNat) : AtColumn (c + 1) i t := by
  rw [advanceColumn_next (by rwa [hv.curCol])] at h
  have hnext : (v.curCol + 1).toNat = c + 1 := by rw [toNat_succ_of_lt (b := v.encW) (by rw [hv.curCol]; omega), hv.curCol]
  exact { h.place ⟨rfl, hnext, hv.iter, hv.abortPend⟩ with txIdx := h.txIdx }

/-- The columns from c to the last end in `end_of_iteration`, by induction on the number k of columns behind c (R166, R175). -/
theorem columns_run (k : Nat) {s : State} {c i : Nat} (hi : s.Inv) (hs : AtColumn c i s)
    (hb : s.Brings ((k + 1) * s.columnCycles) Unhindered) (hk : c + k + 1 = s.encW.toNat) :
    ∃ q v t, Sends s ((k + 1) * s.columnCycles) (columnsFrom s c) t ∧ SameMove (endOfIteration v) t ∧ SameImage s v ∧
      Place q (c + k) i v := by
  rw [columnsFrom_cons s (by omega : c < s.encW.toNat)]
  induction k generalizing s c with
  | zero =>
    rw [Nat.zero_add, Nat.one_mul] at hb ⊢
    obtain ⟨q, v, t, hcolumn, hmove, himage, hplace⟩ := column_run hi hs hb
    rw [advanceColumn_last (by rw [himage.encoding.encW, hplace.curCol]; omega)] at hmove
    rw [columnsFrom_end s hk.ge, List.append_nil]
    exact ⟨q, v, t, hcolumn, hmove, himage, hplace⟩
  | succ k ih =>
    rw [Nat.add_one_mul, Nat.add_comm] at hb ⊢
    obtain ⟨q, v, u, hcolumn, hmove, himage, hplace⟩ := column_run hi hs (hb.mono (Nat.le_add_right _ _))
    have hu := hplace.nextColumn hmove (by rw [himage.encoding.encW]; omega)
    have hW := hcolumn.image.encoding.encW
    have hC := columnCycles_of_sameImage hcolumn.image
    obtain ⟨q', v', t, hrest, hend, himage', hplace'⟩ :=
      ih (hcolumn.inv hi) hu (hC.symm ▸ hb.rest hcolumn) (by rw [hW]; omega)
    rw [hC, ← columnsFrom_cons u (by rw [hW]; omega), columnsFrom_of_sameImage hcolumn.image] at hrest
    refine ⟨q', v', t, hcolumn.trans hrest, hend, hcolumn.image.trans himage', ?_⟩
    rwa [Nat.add_right_comm, Nat.add_assoc] at hplace'

/-- The cycles of an iteration without its loop delay (R174). -/
def State.iterationCycles (s : State) : Nat := s.encW.toNat * s.columnCycles

/-- The cycles between two iterations: the loop delay where BLANK is set (R174). -/
def State.loopCycles (s : State) : Nat := if s.blank then s.delay s.loopDelay else 0

/-- All columns of an iteration end in `end_of_iteration` (R175). -/
theorem iteration_run {s : State} {i : Nat} (hi : s.Inv) (hs : AtColumn 0 i s) (hb : s.Brings s.iterationCycles Unhindered) :
    ∃ q c v t, Sends s s.iterationCycles (columnsFrom s 0) t ∧ SameMove (endOfIteration v) t ∧ SameImage s v ∧ Place q c i v := by
  obtain ⟨-, hcol⟩ := hi.column_inside (.inl hs.state)
  obtain ⟨k, hk⟩ : ∃ k, s.encW.toNat = k + 1 := ⟨s.encW.toNat - 1, by omega⟩
  unfold State.iterationCycles at hb ⊢
  rw [hk] at hb ⊢
  obtain ⟨q, v, t, h⟩ := columns_run k hi hs hb (by omega)
  exact ⟨q, _, v, t, h⟩

/-- The iteration counter goes on without wrapping while REPEAT is ahead (R167). -/
theorem Place.nextIter {q : SeqState} {v : State} {c i : Nat} (hv : Place q c i v) (h : i < v.repeatCount.toNat) :
    (v.iter + 1).toNat = i + 1 := by
  rw [toNat_succ_of_lt (b := v.repeatCount) (by rwa [hv.iter]), hv.iter]

/-- An iteration before the last, with its loop delay, leads to column 0 of the next (R167, R168). -/
theorem nextIteration_run {s : State} {i : Nat} (hi : s.Inv) (hs : AtColumn 0 i s) (hmore : i + 1 < s.repeatCount.toNat)
    (hb : s.Brings (s.iterationCycles + s.loopCycles) Unhindered) :
    ∃ t, Sends s (s.iterationCycles + s.loopCycles) (columnsFrom s 0) t ∧ AtColumn 0 (i + 1) t := by
  obtain ⟨q, c, v, u, hcolumns, hmove, himage, hplace⟩ := iteration_run hi hs (hb.mono (Nat.le_add_right _ _))
  have hconfig := himage.config
  have hiter := hplace.nextIter (by rw [hconfig.repeatCount]; omega)
  have hagain : v.repeatCount.toNat = 0 ∨ v.iter.toNat + 1 ≠ v.repeatCount.toNat := by
    rw [hplace.iter, hconfig.repeatCount]
    omega
  by_cases hdelay : s.blank = true ∧ 0 < s.loopDelay.toNat
  · obtain ⟨hblank, hpos⟩ := hdelay
    rw [endOfIteration_delay hagain (by rwa [hconfig.blank]) (by rwa [hconfig.loopDelay])] at hmove
    have hcycles : s.loopCycles = s.delay s.loopDelay := if_pos hblank
    have hleft : u.waitLeft.toNat = s.loopCycles := by
      rw [hmove.waitLeft, hcycles]
      simp only [delayCycles, hconfig.loopDelay, hconfig.params]
      exact (delayCycles_toNat hi.params_legal hpos).1
    obtain ⟨t, hwait, ht⟩ := loopDelay_run (hcolumns.inv hi)
      (hmove.place ⟨rfl, hplace.curCol, hiter, hplace.abortPend⟩) (hb.rest hcolumns) hleft
    have hrun := hcolumns.trans hwait
    rw [List.append_nil] at hrun
    exact ⟨t, hrun, ht⟩
  · have hno : s.blank = false ∨ s.loopDelay.toNat = 0 := by
      rcases Bool.eq_false_or_eq_true s.blank with hblank | hblank
      · exact .inr (Nat.eq_zero_of_not_pos fun hpos => hdelay ⟨hblank, hpos⟩)
      · exact .inl hblank
    have hcycles : s.loopCycles = 0 := by rcases hno with h | h <;> simp [State.loopCycles, State.delay, h]
    rw [endOfIteration_again hagain (by rwa [hconfig.blank, hconfig.loopDelay])] at hmove
    rw [hcycles]
    exact ⟨u, hcolumns, { hmove.place ⟨rfl, rfl, hiter, hplace.abortPend⟩ with txIdx := hmove.txIdx }⟩

/-- The last iteration leads to the off buffer (R167). -/
theorem lastIteration_run {s : State} {i : Nat} (hi : s.Inv) (hs : AtColumn 0 i s) (hlast : i + 1 = s.repeatCount.toNat)
    (hb : s.Brings s.iterationCycles Unhindered) :
    ∃ t, Sends s s.iterationCycles (columnsFrom s 0) t ∧ t.state = .txOff ∧ t.txIdx = 0 ∧ t.iter = s.repeatCount := by
  obtain ⟨q, c, v, t, hcolumns, hmove, himage, hplace⟩ := iteration_run hi hs hb
  have hN := himage.config.repeatCount
  rw [endOfIteration_last (by rw [hN]; omega) (by rw [hplace.iter, hN, hlast])] at hmove
  refine ⟨t, hcolumns, hmove.state, hmove.txIdx, hmove.iter.trans (BitVec.eq_of_toNat_eq ?_)⟩
  exact (hplace.nextIter (by rw [hN]; omega)).trans hlast

/-! ### The run -/

theorem cycles_of_sameImage {s t : State} (h : SameImage s t) :
    t.iterationCycles = s.iterationCycles ∧ t.loopCycles = s.loopCycles := by
  constructor
  · simp only [State.iterationCycles, columnCycles_of_sameImage h, h.encoding.encW]
  · simp only [State.loopCycles, State.delay, h.config.blank, h.config.loopDelay, h.config.params]

/-- The iterations from number i on, by induction on the number j of iterations behind it (R172, R174). -/
theorem iterations_run (j : Nat) {s : State} {i : Nat} (hi : s.Inv) (hs : AtColumn 0 i s) (hj : i + j + 1 = s.repeatCount.toNat)
    (hb : s.Brings (j * (s.iterationCycles + s.loopCycles) + s.iterationCycles) Unhindered) :
    ∃ t, Sends s (j * (s.iterationCycles + s.loopCycles) + s.iterationCycles)
        (List.replicate (j + 1) (columnsFrom s 0)).flatten t ∧
      t.state = .txOff ∧ t.txIdx = 0 ∧ t.iter = s.repeatCount := by
  induction j generalizing s i with
  | zero =>
    rw [Nat.zero_mul, Nat.zero_add] at hb ⊢
    simpa using lastIteration_run hi hs hj hb
  | succ j ih =>
    rw [Nat.add_one_mul, Nat.add_comm (j * _), Nat.add_assoc] at hb ⊢
    obtain ⟨u, hfirst, hu⟩ := nextIteration_run hi hs (by omega) (hb.mono (Nat.le_add_right _ _))
    have hN := hfirst.image.config.repeatCount
    obtain ⟨hIter, hLoop⟩ := cycles_of_sameImage hfirst.image
    obtain ⟨t, hrest, hoff, hidx, hiter⟩ := ih (hfirst.inv hi) hu (by rw [hN]; omega) (by rw [hIter, hLoop]; exact hb.rest hfirst)
    rw [hIter, hLoop, columnsFrom_of_sameImage hfirst.image] at hrest
    exact ⟨t, hfirst.trans hrest, hoff, hidx, hiter.trans hN⟩

/-- The off buffer of O45, as a run that is not in DONE before its end (R170). -/
theorem offBuffer_run {s : State} (hi : s.Inv) (hs : s.state = .txOff) (hidx : s.txIdx = 0)
    (hb : s.Brings (3 * s.maxLeds.toNat + 3) Unhindered) :
    ∃ t, Sends s (3 * s.maxLeds.toNat + 3) (offStream s.maxLeds.toNat) t ∧ t.state = .done ∧ t.exitFlag = false ∧
      t.iter = s.iter := by
  have hready : ∀ i ∈ s.inputs.take (3 * s.maxLeds.toNat + 3), i.rst = false ∧ sinkReady i = true :=
    fun i hin => ⟨(hb.2 i hin).requests.1, (hb.2 i hin).2⟩
  obtain ⟨hrecv, t, hafter, hdone, hexit, -, hiter, -, -, hcbm, hconfig, hencoding⟩ :=
    offBufferIsSentWhole s hi hs hidx hb.1 hready
  refine ⟨t, ⟨hafter, hrecv, fun k hk => ?_, ⟨hconfig, hencoding, hcbm⟩⟩, hdone, hexit, hiter⟩
  obtain ⟨u, hu, -, hat⟩ := ReadyOffBuffer.run ⟨hi, hs, hidx, hb.1, hready⟩ k hk
  exact ⟨u, hu, by simp [hat.txOff]⟩

/-- The cycles of the law of R174, iteration by iteration. -/
theorem boundedRunCycles_eq (s : State) (j : Nat) :
    boundedRunCycles s (j + 1) =
      j * (s.iterationCycles + s.loopCycles) + s.iterationCycles + (3 * s.maxLeds.toNat + 3) := by
  simp only [boundedRunCycles, State.iterationCycles, State.columnCycles, State.loopCycles, State.delay, Nat.add_sub_cancel]
  ring

/-- Settles O47: the iterations, and then the off buffer. -/
theorem boundedRunSendsEveryIterationThenOneOffBuffer : Obligations.BoundedRunSendsEveryIterationThenOneOffBuffer := by
  intro s hi hs hcol hidx hiter hpend hN hlen hall
  obtain ⟨j, hj⟩ : ∃ j, s.repeatCount.toNat = j + 1 := ⟨s.repeatCount.toNat - 1, by omega⟩
  have hb : s.Brings (boundedRunCycles s s.repeatCount.toNat) Unhindered := ⟨hlen, hall⟩
  rw [hj, boundedRunCycles_eq] at hb ⊢
  have hstart : AtColumn 0 0 s := ⟨⟨hs, by rw [hcol]; rfl, by rw [hiter]; rfl, hpend⟩, hidx⟩
  obtain ⟨u, hrun, hoff, hfirst, hcount⟩ := iterations_run j hi hstart (by omega) (hb.mono (Nat.le_add_right _ _))
  have hM := hrun.image.config.maxLeds
  obtain ⟨t, hsent, hdone, hexit, hkept⟩ := offBuffer_run (hrun.inv hi) hoff hfirst (by rw [hM]; exact hb.rest hrun)
  rw [hM] at hsent
  have hwhole := hrun.trans hsent
  exact ⟨hwhole.received, hwhole.busy, t, hwhole.after, hdone, hexit, hkept.trans hcount⟩

end Sys2Proof.Machine
end
